-- ==== Sys2Proof/Word.lean ====
section
/-!
DEFINITION. The words, the bytes and the exact numbers of FJS-CORE.

Spec: 30_encoding.md R90, R91 (the 40-bit operation word), 20_memory.md R63 (bytes of the sink stream), 00_scope.md
R11 and R12 (the value domain).

Every quantity that the spec calls a real number is held as PLAIN DATA and EXACTLY (notes/assumptions/2):
* a real parameter (FS, FREQ, HEADROOM) as a rational, or as a rational times a named open real (`RealParam`);
* an angle (STEP, PHASE) in *turns*, `angle / 2π` (the representation note R12): a rational, plus quotients of open reals (`Angle`);
* VOL, SQMIX, PMULT as rationals (R191: denominator 65536);
* SUM as a rational plus a rational combination of sines of angles (`Amp`, `Wave`).
What real number such data stands for is said in Machine/RealMeaning.lean. A machine of a physical number format holds the
format's codes instead (`Datum`).
-/
namespace Sys2Proof

/-- The operation word `OW`: exactly 40 bits, `op[39:36] idx[35:32] data[31:0]` (R90, R91). -/
abbrev OpWord := BitVec 40

/-- One byte of the sink's stream (R63). -/
abbrev Byte := BitVec 8

/-- An angle in turns: `r` stands for `2π * r` radians (R12). -/
abbrev Turn := ℚ

/-- One term `coeff * sin (2π * turn)` of an amplitude. -/
structure SineTerm where
  coeff : ℚ
  turn  : Turn
  deriving DecidableEq, Repr

/-- An amplitude of rational turns: the real `const + Σ coeff * sin (2π * turn)`, held exactly (R11). -/
structure Amp where
  const : ℚ
  sines : List SineTerm
  deriving DecidableEq, Repr

/-- A real parameter: the rational `scale`, times the open real `name` where one is named (notes/assumptions/20). -/
structure RealParam where
  scale : ℚ
  name  : Option Nat
  deriving DecidableEq, Repr

/-- `coeff` times the quotient of two open reals, in turns; an absent name stands for 1. -/
structure OpenTurn where
  coeff : ℚ
  num   : Option Nat
  den   : Option Nat
  deriving DecidableEq, Repr

/-- An angle, held exactly: a rational number of turns, and what open reals add to it. -/
structure Angle where
  turn  : Turn
  opens : List OpenTurn
  deriving DecidableEq, Repr

/-- One term `coeff * sin angle` whose angle rests on open reals. -/
structure OpenSine where
  coeff : ℚ
  angle : Angle
  deriving DecidableEq, Repr

/-- A sum of rendered samples, held exactly: its terms at rational turns, and those whose angles rest on open reals. -/
structure Wave where
  amp   : Amp
  opens : List OpenSine
  deriving DecidableEq, Repr

/-- What a register of the value domain holds (R11): a real number given by exact data, or, in a machine of a physical number
format, a value of the format, numbered by `c`. -/
inductive Datum (α : Type) where
  | real (a : α)
  | code (c : Nat)
  deriving DecidableEq, Repr

end Sys2Proof
end

