-- ==== Sys2Proof/Machine/Amp.lean ====
section
/-!
DEFINITION. Exact arithmetic on angles (turns) and on amplitudes: what `sin`, `sgn`, `+`, `*` of the spec's reals are on
the data of Word.lean (00_scope.md R11, R12, R14).

An amplitude is kept in a canonical form (`Amp.wf`): turns strictly rising inside the open quarter turn, no zero
coefficient, and no turn whose sine is rational.
-/
namespace Sys2Proof

/-- `r` less its whole turns: in `[0, 1)`. -/
def fracTurn (r : Turn) : Turn := r - (⌊r⌋ : ℚ)

/-- Brings an angle into the first quarter turn: `(neg, g)` with `0 ≤ g ≤ 1/4` and `sin (2π r) = ± sin (2π g)`, the sign
negative when `neg`. -/
def foldTurn (r : Turn) : Bool × Turn :=
  let f := fracTurn r
  if f ≤ 1 / 4 then (false, f)
  else if f < 1 / 2 then (false, 1 / 2 - f)
  else if f ≤ 3 / 4 then (true, f - 1 / 2)
  else (true, 1 - f)

/-- The sign `-1` or `+1` that `foldTurn` split off. -/
def foldSign (neg : Bool) : ℚ := if neg then -1 else 1

/-- `sgn (sin (2π r))` with `sign0` for the value at a zero of the sine (R14, R126). -/
def sgnSine (sign0 : ℚ) (r : Turn) : ℚ :=
  if (foldTurn r).2 = 0 then sign0 else foldSign (foldTurn r).1

/-- Adds one term to a list of terms sorted by turn; equal turns are merged and a zero coefficient leaves no term. -/
def insertTerm (t : SineTerm) : List SineTerm → List SineTerm
  | [] => if t.coeff = 0 then [] else [t]
  | u :: us =>
    if t.turn < u.turn then (if t.coeff = 0 then u :: us else t :: u :: us)
    else if t.turn = u.turn then
      (if t.coeff + u.coeff = 0 then us else { coeff := t.coeff + u.coeff, turn := u.turn } :: us)
    else u :: insertTerm t us

namespace Amp

/-- The rational `q` as an amplitude. -/
def ofRat (q : ℚ) : Amp := { const := q, sines := [] }

/-- The amplitude 0. -/
def zero : Amp := ofRat 0

/-- `sin (2π r)` (R126 "Base waveform"). The three quarter-turn angles whose sine is rational give that rational. -/
def sine (r : Turn) : Amp :=
  let g := (foldTurn r).2
  let sg := foldSign (foldTurn r).1
  if g = 0 then zero
  else if g = 1 / 12 then ofRat (sg * (1 / 2))
  else if g = 1 / 4 then ofRat sg
  else { const := 0, sines := [{ coeff := sg, turn := g }] }

/-- The sum of two amplitudes. -/
def add (a b : Amp) : Amp :=
  { const := a.const + b.const, sines := a.sines.foldr insertTerm b.sines }

/-- The product of a rational and an amplitude. -/
def scale (c : ℚ) (a : Amp) : Amp :=
  if c = 0 then zero
  else { const := c * a.const, sines := a.sines.map fun t => { coeff := c * t.coeff, turn := t.turn } }

/-- A turn may stand in a term of a canonical amplitude: inside the open quarter turn, its sine not rational. -/
def turnOk (r : Turn) : Bool := decide (0 < r) && decide (r < 1 / 4) && decide (r ≠ 1 / 12)

/-- Terms strictly rising in their turns, each with a good turn and a coefficient other than 0. -/
def termsWf : List SineTerm → Bool
  | [] => true
  | [t] => turnOk t.turn && decide (t.coeff ≠ 0)
  | t :: u :: us => turnOk t.turn && decide (t.coeff ≠ 0) && decide (t.turn < u.turn) && termsWf (u :: us)

/-- The canonical form of an amplitude. -/
def wf (a : Amp) : Bool := termsWf a.sines

end Amp

end Sys2Proof
end

