-- ==== Sys2Proof/Machine/RealMeaning.lean ====
section
/-!
DEFINITION. What real number the exact data stands for (00_scope.md R11, R12): the bridge between the plain data of the
state and the spec's real arithmetic. No step calls these functions; statements are written with them.
-/
namespace Sys2Proof

/-- The angle in radians of a turn: `2π * r` (R12). -/
noncomputable def radians (r : Turn) : ℝ := 2 * Real.pi * (r : ℝ)

/-- The value of a list of terms. -/
noncomputable def termsReal : List SineTerm → ℝ
  | [] => 0
  | t :: ts => (t.coeff : ℝ) * Real.sin (radians t.turn) + termsReal ts

/-- The real number an amplitude stands for. -/
noncomputable def Amp.toReal (a : Amp) : ℝ := (a.const : ℝ) + termsReal a.sines

/-- `sgn x` (R14): +1, -1, and `sign0` at 0. -/
noncomputable def realSgn (sign0 : ℝ) (x : ℝ) : ℝ := if 0 < x then 1 else if x < 0 then -1 else sign0

/-- `render (φ, q) = sgn (sin φ) * q + sin φ * (1 - q)` (R126, R131), over the reals. -/
noncomputable def realRender (sign0 φ q : ℝ) : ℝ :=
  realSgn sign0 (Real.sin φ) * q + Real.sin φ * (1 - q)

/-- `trunc x` (R14): the integer nearest to `x` in the direction of zero. -/
noncomputable def realTrunc (x : ℝ) : ℤ := if 0 ≤ x then ⌊x⌋ else ⌈x⌉

/-- `toI16 r` (R146), over the reals: clamp to -32768..32767, then truncate. -/
noncomputable def realToI16 (r : ℝ) : ℤ :=
  realTrunc (if r < -32768 then -32768 else if 32767 < r then 32767 else r)

end Sys2Proof
end

