-- ==== Sys2Proof/Machine/SineApprox.lean ====
section
/-!
DEFINITION. Rational approximations of `sin (2π r)`, with an error bound that tends to 0, and the proof that the bound holds.

The spec's sample conversion `toI16` (41_mixer.md R146) is a function of an exact real. Machine/Sample.lean computes it from
the amplitude with the approximations of this file; the theorems here are what makes that computation exact.
-/
namespace Sys2Proof

/-- Partial sums of the series of `arctan x`. -/
def atanSum (x : ℚ) : ℕ → ℚ
  | 0 => 0
  | k + 1 => atanSum x k + (-1) ^ k * x ^ (2 * k + 1) / (2 * k + 1 : ℕ)

/-- π to within `4 / 25 ^ k`, by Machin's formula. -/
def piApprox (k : ℕ) : ℚ := 4 * (4 * atanSum (1 / 5) k - atanSum (1 / 239) k)

/-- Partial sums of the series of `sin x`. -/
def sinSum (x : ℚ) : ℕ → ℚ
  | 0 => 0
  | k + 1 => sinSum x k + (-1) ^ k * x ^ (2 * k + 1) / (2 * k + 1).factorial

/-- `sin (2π r)` to within `sinErr k`, for `2 ≤ k`. -/
def sinApprox (k : ℕ) (r : Turn) : ℚ :=
  foldSign (foldTurn r).1 * sinSum (2 * piApprox k * (foldTurn r).2) k

/-- The error bound of `sinApprox`. -/
def sinErr (k : ℕ) : ℚ := 2 * 4 ^ k / (2 * k).factorial + 2 / 25 ^ k

/-- An amplitude's value to within `Amp.rad k`. -/
def termsMid (k : ℕ) : List SineTerm → ℚ
  | [] => 0
  | t :: ts => t.coeff * sinApprox k t.turn + termsMid k ts

/-- The sum of the coefficients' absolute values. -/
def termsWeight : List SineTerm → ℚ
  | [] => 0
  | t :: ts => |t.coeff| + termsWeight ts

/-- The middle of the `k`-th enclosure of an amplitude's value. -/
def Amp.mid (k : ℕ) (a : Amp) : ℚ := a.const + termsMid k a.sines

/-- The radius of the `k`-th enclosure of an amplitude's value. -/
def Amp.rad (k : ℕ) (a : Amp) : ℚ := termsWeight a.sines * sinErr k

/-! ### The folding of an angle -/

theorem fracTurn_nonneg (r : Turn) : 0 ≤ fracTurn r := by
  have h := Int.floor_le r
  simp only [fracTurn]; linarith

theorem fracTurn_lt_one (r : Turn) : fracTurn r < 1 := by
  have h := Int.lt_floor_add_one r
  simp only [fracTurn]; linarith

theorem sin_radians_frac (r : Turn) : Real.sin (radians (fracTurn r)) = Real.sin (radians r) := by
  have h : radians (fracTurn r) = radians r - (⌊r⌋ : ℤ) * (2 * Real.pi) := by
    simp only [radians, fracTurn]; push_cast; ring
  rw [h, Real.sin_sub_int_mul_two_pi]

theorem foldTurn_range (r : Turn) : 0 ≤ (foldTurn r).2 ∧ (foldTurn r).2 ≤ 1 / 4 := by
  have h0 := fracTurn_nonneg r
  have h1 := fracTurn_lt_one r
  unfold foldTurn
  dsimp only
  split_ifs with h2 h3 h4 <;> constructor <;> dsimp only <;> linarith

/-- The folding keeps the sine, up to the sign it splits off. -/
theorem sin_foldTurn (r : Turn) :
    Real.sin (radians r) = (foldSign (foldTurn r).1 : ℝ) * Real.sin (radians (foldTurn r).2) := by
  rw [← sin_radians_frac]
  unfold foldTurn
  dsimp only
  generalize fracTurn r = f
  have hhalf : radians (1 / 2 - f) = Real.pi - radians f := by simp only [radians]; push_cast; ring
  have hneg : radians (f - 1 / 2) = radians f - Real.pi := by simp only [radians]; push_cast; ring
  have hone : radians (1 - f) = 2 * Real.pi - radians f := by simp only [radians]; push_cast; ring
  split_ifs
  · simp [foldSign]
  · simp only [foldSign, hhalf, Real.sin_pi_sub]; simp
  · simp only [foldSign, hneg, Real.sin_sub_pi]; simp
  · simp only [foldSign, hone, Real.sin_two_pi_sub]; simp

theorem foldSign_abs (b : Bool) : |foldSign b| = 1 := by cases b <;> simp [foldSign]

/-! ### π by Machin's formula -/

theorem atanSum_cast (x : ℚ) (k : ℕ) :
    ((atanSum x k : ℚ) : ℝ) = ∑ i ∈ Finset.range k, (-1) ^ i * (x : ℝ) ^ (2 * i + 1) / ((2 * i + 1 : ℕ) : ℝ) := by
  induction k with
  | zero => simp [atanSum]
  | succ k ih => rw [Finset.sum_range_succ, ← ih, atanSum]; push_cast; ring

/-- A partial sum of the arctangent series is within a geometric tail of the limit. -/
theorem atanSum_error (x : ℚ) (h0 : 0 < x) (h1 : x < 1) (k : ℕ) :
    |((atanSum x k : ℚ) : ℝ) - Real.arctan x| ≤ (x : ℝ) * ((x : ℝ) ^ 2) ^ k / (1 - (x : ℝ) ^ 2) := by
  have hx0 : (0 : ℝ) < x := by exact_mod_cast h0
  have hx1 : (x : ℝ) < 1 := by exact_mod_cast h1
  have hs := Real.hasSum_arctan (x := (x : ℝ)) (by rw [Real.norm_eq_abs, abs_of_pos hx0]; exact hx1)
  have ht := hs.tendsto_sum_nat
  have hr : (x : ℝ) ^ 2 < 1 := by nlinarith
  have := dist_le_of_le_geometric_of_tendsto ((x : ℝ) ^ 2) (x : ℝ) hr (fun n => ?_) ht k
  · rw [Real.dist_eq, ← atanSum_cast] at this; exact this
  · rw [dist_comm, Real.dist_eq, Finset.sum_range_succ, add_sub_cancel_left, abs_div, abs_mul, abs_pow, abs_neg,
      abs_one, one_pow, one_mul, abs_of_pos (pow_pos hx0 _)]
    have hd : (1 : ℝ) ≤ |((2 * n + 1 : ℕ) : ℝ)| := by
      rw [Nat.abs_cast]; exact_mod_cast Nat.succ_le_succ (Nat.zero_le _)
    rw [show (x : ℝ) * ((x : ℝ) ^ 2) ^ n = (x : ℝ) ^ (2 * n + 1) by rw [← pow_mul]; ring]
    exact div_le_self (pow_pos hx0 _).le hd

theorem piApprox_error (k : ℕ) : |((piApprox k : ℚ) : ℝ) - Real.pi| ≤ 4 / 25 ^ k := by
  have h5 := atanSum_error (1 / 5) (by norm_num) (by norm_num) k
  have h239 := atanSum_error (1 / 239) (by norm_num) (by norm_num) k
  have hm := Real.four_mul_arctan_inv_5_sub_arctan_inv_239
  rw [show (((1 / 5 : ℚ)) : ℝ) = 5⁻¹ by norm_num] at h5
  rw [show (((1 / 239 : ℚ)) : ℝ) = 239⁻¹ by norm_num] at h239
  have hp : (((5 : ℝ)⁻¹) ^ 2) ^ k = 1 / 25 ^ k := by
    rw [show ((5 : ℝ)⁻¹) ^ 2 = 1 / 25 by norm_num, div_pow, one_pow]
  have hq : (((239 : ℝ)⁻¹) ^ 2) ^ k ≤ 1 / 25 ^ k := by
    rw [← hp]; exact pow_le_pow_left₀ (by positivity) (by norm_num) k
  rw [hp] at h5
  have hpos : (0 : ℝ) < 1 / 25 ^ k := by positivity
  have e : ((piApprox k : ℚ) : ℝ) - Real.pi =
      16 * (((atanSum (1 / 5) k : ℚ) : ℝ) - Real.arctan 5⁻¹) - 4 * (((atanSum (1 / 239) k : ℚ) : ℝ) - Real.arctan 239⁻¹) := by
    rw [piApprox]; push_cast; linarith
  have h239' : |((atanSum (1 / 239) k : ℚ) : ℝ) - Real.arctan 239⁻¹| ≤ (1 / 100) * (1 / 25 ^ k) := by
    refine h239.trans ?_
    rw [div_le_iff₀ (by norm_num)]
    nlinarith
  rw [e, abs_le]
  rw [abs_le] at h5 h239'
  rw [show (4 : ℝ) / 25 ^ k = 4 * (1 / 25 ^ k) by ring]
  have h5' : (5 : ℝ)⁻¹ * (1 / 25 ^ k) / (1 - (5 : ℝ)⁻¹ ^ 2) ≤ (21 / 100) * (1 / 25 ^ k) := by
    rw [div_le_iff₀ (by norm_num)]; nlinarith
  constructor <;> linarith

/-! ### The sine series -/

theorem sinSum_cast (x : ℚ) (k : ℕ) :
    ((sinSum x k : ℚ) : ℝ) = ∑ i ∈ Finset.range k, (-1) ^ i * (x : ℝ) ^ (2 * i + 1) / ((2 * i + 1).factorial : ℝ) := by
  induction k with
  | zero => simp [sinSum]
  | succ k ih => rw [Finset.sum_range_succ, ← ih, sinSum]; push_cast; ring

theorem expSum_im (x : ℝ) (k : ℕ) :
    (∑ m ∈ Finset.range (2 * k), ((x : ℂ) * Complex.I) ^ m / (m.factorial : ℂ)).im =
      ∑ i ∈ Finset.range k, (-1) ^ i * x ^ (2 * i + 1) / ((2 * i + 1).factorial : ℝ) := by
  induction k with
  | zero => simp
  | succ k ih =>
    rw [show 2 * (k + 1) = 2 * k + 1 + 1 by ring, Finset.sum_range_succ, Finset.sum_range_succ, Complex.add_im,
      Complex.add_im, ih, Finset.sum_range_succ]
    have he : (((x : ℂ) * Complex.I) ^ (2 * k) / ((2 * k).factorial : ℂ)) =
        (((-1) ^ k * x ^ (2 * k) / ((2 * k).factorial : ℝ) : ℝ) : ℂ) := by
      rw [mul_pow, pow_mul Complex.I, Complex.I_sq]; push_cast; ring
    have ho : (((x : ℂ) * Complex.I) ^ (2 * k + 1) / ((2 * k + 1).factorial : ℂ)) =
        (((-1) ^ k * x ^ (2 * k + 1) / ((2 * k + 1).factorial : ℝ) : ℝ) : ℂ) * Complex.I := by
      rw [mul_pow, pow_succ Complex.I, pow_mul Complex.I, Complex.I_sq]; push_cast; ring
    rw [he, ho, Complex.ofReal_im, Complex.im_ofReal_mul, Complex.I_im]
    ring

theorem sinSum_error (x : ℚ) (hx : |(x : ℝ)| ≤ 2) (k : ℕ) (hk : 2 ≤ k) :
    |((sinSum x k : ℚ) : ℝ) - Real.sin x| ≤ 2 * 4 ^ k / ((2 * k).factorial : ℝ) := by
  have hn : ‖((x : ℝ) : ℂ) * Complex.I‖ = |(x : ℝ)| := by simp
  have hk' : (4 : ℝ) ≤ ((2 * k : ℕ) : ℝ) := by exact_mod_cast (by omega : 4 ≤ 2 * k)
  have hb := Complex.exp_bound' (x := ((x : ℝ) : ℂ) * Complex.I) (n := 2 * k) (by
    rw [hn, div_le_iff₀ (by positivity)]; push_cast; push_cast at hk'; linarith)
  have hi := (Complex.abs_im_le_norm _).trans hb
  rw [Complex.sub_im, expSum_im, Complex.exp_ofReal_mul_I_im, ← sinSum_cast, hn, abs_sub_comm] at hi
  refine hi.trans ?_
  have hp : |(x : ℝ)| ^ (2 * k) ≤ 4 ^ k := by
    rw [pow_mul]; exact pow_le_pow_left₀ (by positivity) (by nlinarith [abs_nonneg (x : ℝ)]) k
  have hf : (0 : ℝ) < ((2 * k).factorial : ℝ) := by exact_mod_cast Nat.factorial_pos _
  rw [div_mul_eq_mul_div, div_le_div_iff_of_pos_right hf]
  linarith

/-! ### The bound of `sinApprox`, and that it tends to 0 -/

theorem sinApprox_error (k : ℕ) (hk : 2 ≤ k) (r : Turn) :
    |((sinApprox k r : ℚ) : ℝ) - Real.sin (radians r)| ≤ ((sinErr k : ℚ) : ℝ) := by
  obtain ⟨g0, g1⟩ := foldTurn_range r
  rw [sin_foldTurn, sinApprox]
  generalize (foldTurn r).1 = b
  generalize (foldTurn r).2 = g at g0 g1
  have g0' : (0 : ℝ) ≤ g := by exact_mod_cast g0
  have g1' : (g : ℝ) ≤ 1 / 4 := by
    have : ((g : ℚ) : ℝ) ≤ ((1 / 4 : ℚ) : ℝ) := by exact_mod_cast g1
    push_cast at this; linarith
  have hpi := piApprox_error k
  have h25 : (4 : ℝ) / 25 ^ k ≤ 4 / 25 := by
    apply div_le_div_of_nonneg_left (by norm_num) (by norm_num)
    calc (25 : ℝ) = 25 ^ 1 := by norm_num
      _ ≤ 25 ^ k := pow_le_pow_right₀ (by norm_num) (by omega)
  have hpi4 : |((piApprox k : ℚ) : ℝ)| ≤ 4 := by
    have h1 := Real.pi_lt_d2
    have h2 := Real.pi_pos
    rw [abs_le] at hpi ⊢
    constructor <;> norm_num at h1 ⊢ <;> linarith [hpi.1, hpi.2]
  have hx : |((2 * piApprox k * g : ℚ) : ℝ)| ≤ 2 := by
    push_cast
    rw [abs_mul, abs_mul, abs_of_nonneg g0', abs_of_pos (by norm_num : (0 : ℝ) < 2)]
    nlinarith [abs_nonneg ((piApprox k : ℚ) : ℝ)]
  have hs := sinSum_error (2 * piApprox k * g) hx k hk
  have hl : |Real.sin ((2 * piApprox k * g : ℚ) : ℝ) - Real.sin (radians g)| ≤ 2 / 25 ^ k := by
    refine (Real.abs_sin_sub_sin_le _ _).trans ?_
    have : ((2 * piApprox k * g : ℚ) : ℝ) - radians g = 2 * (g : ℝ) * (((piApprox k : ℚ) : ℝ) - Real.pi) := by
      simp only [radians]; push_cast; ring
    rw [this, abs_mul, abs_of_nonneg (by positivity : (0 : ℝ) ≤ 2 * g)]
    calc 2 * (g : ℝ) * |((piApprox k : ℚ) : ℝ) - Real.pi| ≤ (1 / 2) * (4 / 25 ^ k) := by
          apply mul_le_mul (by linarith) hpi (abs_nonneg _) (by norm_num)
      _ = 2 / 25 ^ k := by ring
  have hb : |(foldSign b : ℝ)| = 1 := by cases b <;> simp [foldSign]
  push_cast at hs hl ⊢
  rw [← mul_sub, abs_mul, hb, one_mul, sinErr]
  push_cast
  refine (abs_sub_le _ (Real.sin (2 * (piApprox k : ℝ) * g)) _).trans ?_
  exact add_le_add hs hl

theorem sinErr_tendsto : Filter.Tendsto (fun k => ((sinErr k : ℚ) : ℝ)) Filter.atTop (nhds 0) := by
  have h1 : Filter.Tendsto (fun k : ℕ => (2 : ℝ) ^ (2 * k) / ((2 * k).factorial : ℝ)) Filter.atTop (nhds 0) :=
    (FloorSemiring.tendsto_pow_div_factorial_atTop (2 : ℝ)).comp
      (Filter.tendsto_atTop_mono (fun k => by omega : ∀ k : ℕ, k ≤ 2 * k) Filter.tendsto_id)
  have h2 : Filter.Tendsto (fun k : ℕ => ((1 : ℝ) / 25) ^ k) Filter.atTop (nhds 0) :=
    tendsto_pow_atTop_nhds_zero_of_lt_one (by norm_num) (by norm_num)
  have h := (h1.const_mul 2).add (h2.const_mul 2)
  simp only [mul_zero, add_zero] at h
  refine h.congr (fun k => ?_)
  rw [sinErr, pow_mul]; push_cast
  rw [div_pow, one_pow]; norm_num; ring

theorem sinErr_nonneg (k : ℕ) : 0 ≤ sinErr k := by unfold sinErr; positivity

/-! ### The enclosures of an amplitude -/

theorem termsWeight_nonneg (ts : List SineTerm) : 0 ≤ termsWeight ts := by
  induction ts with
  | nil => simp [termsWeight]
  | cons t ts ih => simp only [termsWeight]; positivity

theorem termsMid_error (k : ℕ) (hk : 2 ≤ k) (ts : List SineTerm) :
    |((termsMid k ts : ℚ) : ℝ) - termsReal ts| ≤ ((termsWeight ts * sinErr k : ℚ) : ℝ) := by
  induction ts with
  | nil => simp [termsMid, termsReal, termsWeight]
  | cons t ts ih =>
    have h := sinApprox_error k hk t.turn
    simp only [termsMid, termsReal, termsWeight]
    push_cast at ih ⊢
    have e : (t.coeff : ℝ) * (sinApprox k t.turn : ℝ) + (termsMid k ts : ℝ) -
        ((t.coeff : ℝ) * Real.sin (radians t.turn) + termsReal ts) =
        (t.coeff : ℝ) * ((sinApprox k t.turn : ℝ) - Real.sin (radians t.turn)) + ((termsMid k ts : ℝ) - termsReal ts) := by
      ring
    rw [e, add_mul]
    refine (abs_add_le _ _).trans (add_le_add ?_ ih)
    rw [abs_mul]
    exact mul_le_mul_of_nonneg_left h (abs_nonneg _)

/-- The amplitude's value lies within `rad k` of `mid k`. -/
theorem Amp.mid_error (k : ℕ) (hk : 2 ≤ k) (a : Amp) :
    |((a.mid k : ℚ) : ℝ) - a.toReal| ≤ ((a.rad k : ℚ) : ℝ) := by
  have h := termsMid_error k hk a.sines
  simp only [Amp.mid, Amp.rad, Amp.toReal]
  push_cast at h ⊢
  rwa [add_sub_add_left_eq_sub]

theorem Amp.rad_tendsto (a : Amp) : Filter.Tendsto (fun k => ((a.rad k : ℚ) : ℝ)) Filter.atTop (nhds 0) := by
  have h := sinErr_tendsto.const_mul ((termsWeight a.sines : ℚ) : ℝ)
  rw [mul_zero] at h
  refine h.congr (fun k => ?_)
  rw [Amp.rad]; push_cast; rfl

end Sys2Proof
end

