-- ==== Sys2Proof/Machine/Vanish.lean ====
section
/-!
DEFINITION. An exact test whether an amplitude is 0, and the proof that it is exact.

`toI16` (41_mixer.md R146) jumps at integers, so a sample that IS an integer must be told from one near it. With `n` a
multiple of 4 and of every denominator, `2i` times the amplitude is a polynomial with rational coefficients at a
primitive `n`-th root of unity. The polynomial vanishes there if and only if it vanishes at all of them, that is, if and
only if its product with `X ^ (n / p) - 1` over the primes `p` dividing `n` is 0 modulo `X ^ n - 1`. Polynomials are
lists of (exponent, coefficient).
-/
namespace Sys2Proof

/-- A sparse polynomial: (exponent, coefficient) pairs. -/
abbrev Sparse := List (ℕ × ℚ)

/-- The sum of the coefficients at exponents congruent to `e` modulo `n`. -/
def residueSum (n e : ℕ) : Sparse → ℚ
  | [] => 0
  | (d, c) :: p => (if d % n = e % n then c else 0) + residueSum n e p

/-- The polynomial is 0 modulo `X ^ n - 1`. -/
def vanishesMod (n : ℕ) (p : Sparse) : Bool := p.all fun x => decide (residueSum n x.1 p = 0)

/-- The product with `X ^ d - 1`. -/
def timesPowSubOne (d : ℕ) : Sparse → Sparse
  | [] => []
  | (e, c) :: p => (e + d, c) :: (e, -c) :: timesPowSubOne d p

/-- Trial division: the primes that divide `m`, given that none below `d` does, put before `acc`. -/
def primesFrom : ℕ → ℕ → ℕ → List ℕ → List ℕ
  | 0, _, _, acc => acc
  | fuel + 1, d, m, acc =>
    if m < 2 then acc
    else if m < d * d then m :: acc
    else if m % d = 0 then primesFrom fuel d (m / d) (d :: acc)
    else primesFrom fuel (d + 1) m acc

/-- The primes that divide `n` (with repeats). -/
def primesOf (n : ℕ) : List ℕ := primesFrom n 2 n []

/-- The product with `X ^ (n / p) - 1` for each `p` of the list, each taken once. -/
def killImprimitive (n : ℕ) : List ℕ → Sparse → Sparse
  | [], q => q
  | p :: ps, q => if p ∈ ps then killImprimitive n ps q else killImprimitive n ps (timesPowSubOne (n / p) q)

/-- The terms' common denominator, after folding. -/
def termsDen : List SineTerm → ℕ
  | [] => 1
  | t :: ts => Nat.lcm (foldTurn t.turn).2.den (termsDen ts)

/-- The order of the root of unity that an amplitude lives over. -/
def Amp.order (a : Amp) : ℕ := 4 * termsDen a.sines

/-- `2i * coeff * sin (2π turn)` for each term, over the `n`-th roots of unity. -/
def termsPoly (n : ℕ) : List SineTerm → Sparse
  | [] => []
  | t :: ts =>
    let g := (foldTurn t.turn).2
    let c := foldSign (foldTurn t.turn).1 * t.coeff
    let e := g.num.toNat * (n / g.den)
    (e, c) :: (n - e, -c) :: termsPoly n ts

/-- `2i` times the amplitude, over the `n`-th roots of unity. -/
def Amp.poly (n : ℕ) (a : Amp) : Sparse := (n / 4, 2 * a.const) :: termsPoly n a.sines

/-- The amplitude is the real number 0. -/
def Amp.isZero (a : Amp) : Bool :=
  let n := a.order
  vanishesMod n (killImprimitive n (primesOf n) (a.poly n))

/-! ### Evaluation at a root of unity -/

/-- The value of a sparse polynomial at a complex number. -/
noncomputable def Sparse.eval (z : ℂ) : Sparse → ℂ
  | [] => 0
  | (e, c) :: p => (c : ℂ) * z ^ e + Sparse.eval z p

theorem eval_timesPowSubOne (z : ℂ) (d : ℕ) (p : Sparse) :
    (timesPowSubOne d p).eval z = (z ^ d - 1) * p.eval z := by
  induction p with
  | nil => simp [timesPowSubOne, Sparse.eval]
  | cons x p ih => obtain ⟨e, c⟩ := x; simp only [timesPowSubOne, Sparse.eval, ih]; push_cast; ring

/-- At an `n`-th root of unity only the residues count. -/
theorem eval_eq_residues (n : ℕ) (hn : 0 < n) (z : ℂ) (hz : z ^ n = 1) (p : Sparse) :
    p.eval z = ∑ e ∈ Finset.range n, ((residueSum n e p : ℚ) : ℂ) * z ^ e := by
  induction p with
  | nil => simp [Sparse.eval, residueSum]
  | cons x p ih =>
    obtain ⟨d, c⟩ := x
    simp only [Sparse.eval, residueSum, ih]
    push_cast
    simp only [add_mul, Finset.sum_add_distrib]
    congr 1
    rw [Finset.sum_eq_single (d % n)]
    · rw [if_pos (Nat.mod_mod d n).symm]
      congr 1
      conv_lhs => rw [← Nat.mod_add_div d n, pow_add, pow_mul, hz, one_pow, mul_one]
    · intro b hb hne
      rw [if_neg (by rw [Nat.mod_eq_of_lt (Finset.mem_range.1 hb)]; exact fun h => hne h.symm)]
      simp
    · intro h; exact absurd (Finset.mem_range.2 (Nat.mod_lt d hn)) h

theorem residueSum_mod (n e : ℕ) (p : Sparse) : residueSum n (e % n) p = residueSum n e p := by
  induction p with
  | nil => rfl
  | cons x p ih => obtain ⟨d, c⟩ := x; simp only [residueSum, ih, Nat.mod_mod]

theorem residueSum_eq_zero_of_notMem (n e : ℕ) (p : Sparse) (h : ∀ x ∈ p, x.1 % n ≠ e % n) : residueSum n e p = 0 := by
  induction p with
  | nil => rfl
  | cons x p ih =>
    obtain ⟨d, c⟩ := x
    simp only [residueSum]
    rw [if_neg (h (d, c) (by simp)), ih (fun y hy => h y (by simp [hy])), add_zero]

theorem residueSum_congr (n d e : ℕ) (h : d % n = e % n) (p : Sparse) : residueSum n d p = residueSum n e p := by
  rw [← residueSum_mod, h, residueSum_mod]

theorem vanishesMod_iff (n : ℕ) (p : Sparse) : vanishesMod n p = true ↔ ∀ e, residueSum n e p = 0 := by
  simp only [vanishesMod, List.all_eq_true, decide_eq_true_eq]
  constructor
  · intro h e
    by_cases hx : ∃ x ∈ p, x.1 % n = e % n
    · obtain ⟨x, hx, he⟩ := hx
      rw [← residueSum_congr n x.1 e he]; exact h x hx
    · push Not at hx; exact residueSum_eq_zero_of_notMem n e p hx
  · intro h x _; exact h x.1

/-- Vanishing modulo `X ^ n - 1` is vanishing at every `n`-th root of unity. -/
theorem vanishesMod_iff_roots (n : ℕ) (hn : 0 < n) (p : Sparse) :
    vanishesMod n p = true ↔ ∀ z : ℂ, z ^ n = 1 → p.eval z = 0 := by
  rw [vanishesMod_iff]
  constructor
  · intro h z hz
    rw [eval_eq_residues n hn z hz]
    exact Finset.sum_eq_zero fun e _ => by rw [h e]; simp
  · intro h e
    rw [← residueSum_mod]
    set R : Polynomial ℂ := ∑ e ∈ Finset.range n, Polynomial.C ((residueSum n e p : ℚ) : ℂ) * Polynomial.X ^ e with hR
    have hRz : R = 0 := by
      have hprim := Complex.isPrimitiveRoot_exp n hn.ne'
      apply Polynomial.eq_zero_of_degree_lt_of_eval_finset_eq_zero (Polynomial.nthRootsFinset n (1 : ℂ))
      · rw [hprim.card_nthRootsFinset]
        refine lt_of_le_of_lt (Polynomial.degree_sum_le _ _) ?_
        rw [Finset.sup_lt_iff (by exact WithBot.bot_lt_coe _)]
        intro b hb
        refine lt_of_le_of_lt (Polynomial.degree_C_mul_X_pow_le _ _) ?_
        exact_mod_cast Finset.mem_range.1 hb
      · intro z hz
        rw [Polynomial.mem_nthRootsFinset hn] at hz
        rw [hR, Polynomial.eval_finsetSum]
        have := h z hz
        rw [eval_eq_residues n hn z hz] at this
        rw [← this]
        exact Finset.sum_congr rfl fun e _ => by simp
    have hc : R.coeff (e % n) = ((residueSum n (e % n) p : ℚ) : ℂ) := by
      rw [hR, Polynomial.finsetSum_coeff, Finset.sum_eq_single (e % n)]
      · simp
      · intro b _ hb
        rw [Polynomial.coeff_C_mul_X_pow, if_neg (Ne.symm hb)]
      · intro hne; exact absurd (Finset.mem_range.2 (Nat.mod_lt e hn)) hne
    rw [hRz, Polynomial.coeff_zero] at hc
    exact_mod_cast hc.symm

/-! ### The primes that divide `n` -/

theorem primesFrom_spec (fuel : ℕ) : ∀ (d m : ℕ) (acc : List ℕ), 2 ≤ d → 0 < m → m + 2 ≤ fuel + d →
    (∀ q, q.Prime → q ∣ m → d ≤ q) →
    (∀ q ∈ acc, q ∈ primesFrom fuel d m acc) ∧
    (∀ q, q.Prime → q ∣ m → q ∈ primesFrom fuel d m acc) ∧
    (∀ q ∈ primesFrom fuel d m acc, q ∈ acc ∨ (2 ≤ q ∧ q ∣ m)) := by
  induction fuel with
  | zero =>
    intro d m acc hd hm hf hp
    have hno : ∀ q, q.Prime → ¬ q ∣ m := fun q hq hqm => by
      have := hp q hq hqm
      have := Nat.le_of_dvd hm hqm
      omega
    refine ⟨fun q hq => hq, fun q hq hqm => absurd hqm (hno q hq), fun q hq => .inl hq⟩
  | succ fuel ih =>
    intro d m acc hd hm hf hp
    rw [primesFrom]
    by_cases h1 : m < 2
    · rw [if_pos h1]
      refine ⟨fun q hq => hq, fun q hq hqm => ?_, fun q hq => .inl hq⟩
      have := Nat.le_of_dvd hm hqm
      have := hq.two_le
      omega
    rw [if_neg h1]
    by_cases h2 : m < d * d
    · rw [if_pos h2]
      have hmp : m.Prime := by
        rw [Nat.prime_def_le_sqrt]
        refine ⟨by omega, fun k hk hks hkm => ?_⟩
        obtain ⟨q, hq, hqk⟩ := Nat.exists_prime_and_dvd (by omega : k ≠ 1)
        have := hp q hq (hqk.trans hkm)
        have := Nat.le_of_dvd (by omega) hqk
        have hk2 : k * k ≤ m := Nat.le_sqrt.1 hks
        have : d * d ≤ k * k := Nat.mul_le_mul (by omega) (by omega)
        omega
      refine ⟨fun q hq => by simp [hq], fun q hq hqm => ?_, fun q hq => ?_⟩
      · simp [(Nat.prime_dvd_prime_iff_eq hq hmp).1 hqm]
      · rcases List.mem_cons.1 hq with h | h
        · exact .inr (by subst h; exact ⟨by omega, dvd_rfl⟩)
        · exact .inl h
    rw [if_neg h2]
    have hdm : d ≤ m := by nlinarith
    by_cases h3 : m % d = 0
    · rw [if_pos h3]
      have hdvd : d ∣ m := Nat.dvd_of_mod_eq_zero h3
      obtain ⟨c, hc⟩ := hdvd
      have hdpos : 0 < d := by omega
      have hdiv : m / d = c := by rw [hc, Nat.mul_div_cancel_left c hdpos]
      have hcpos : 0 < c := by
        rcases Nat.eq_zero_or_pos c with h | h
        · subst h; omega
        · exact h
      have hdprime : d.Prime := by
        obtain ⟨q, hq, hqd⟩ := Nat.exists_prime_and_dvd (by omega : d ≠ 1)
        have h1 := hp q hq (hqd.trans ⟨c, hc⟩)
        have h2 := Nat.le_of_dvd hdpos hqd
        have : q = d := by omega
        exact this ▸ hq
      have hcm : c < m := by rw [hc]; nlinarith
      obtain ⟨i1, i2, i3⟩ := ih d c (d :: acc) hd hcpos (by omega)
        (fun q hq hqc => hp q hq (hc ▸ Dvd.dvd.mul_left hqc d))
      rw [hdiv]
      refine ⟨fun q hq => i1 q (by simp [hq]), fun q hq hqm => ?_, fun q hq => ?_⟩
      · rw [hc] at hqm
        rcases (Nat.Prime.dvd_mul hq).1 hqm with h | h
        · exact i1 q (by simp [(Nat.prime_dvd_prime_iff_eq hq hdprime).1 h])
        · exact i2 q hq h
      · rcases i3 q hq with h | ⟨h, h'⟩
        · rcases List.mem_cons.1 h with h | h
          · exact .inr (by subst h; exact ⟨hd, ⟨c, hc⟩⟩)
          · exact .inl h
        · exact .inr ⟨h, hc ▸ Dvd.dvd.mul_left h' d⟩
    · rw [if_neg h3]
      refine ih (d + 1) m acc (by omega) hm (by omega) (fun q hq hqm => ?_)
      have := hp q hq hqm
      rcases Nat.lt_or_ge d q with h | h
      · exact h
      · have : q = d := by omega
        subst this
        exact absurd (Nat.mod_eq_zero_of_dvd hqm) h3

theorem mem_primesOf (n : ℕ) (hn : 0 < n) (q : ℕ) (hq : q.Prime) (hqn : q ∣ n) : q ∈ primesOf n :=
  (primesFrom_spec n 2 n [] le_rfl hn le_rfl fun _ h _ => h.two_le).2.1 q hq hqn

theorem primesOf_dvd (n : ℕ) (hn : 0 < n) (q : ℕ) (hq : q ∈ primesOf n) : 2 ≤ q ∧ q ∣ n := by
  rcases (primesFrom_spec n 2 n [] le_rfl hn le_rfl fun _ h _ => h.two_le).2.2 q hq with h | h
  · simp at h
  · exact h

/-! ### Vanishing at a primitive root -/

theorem eval_killImprimitive (n : ℕ) (z : ℂ) (ps : List ℕ) : ∀ q : Sparse,
    ∃ k : ℂ, (killImprimitive n ps q).eval z = k * q.eval z ∧
      ((∃ p ∈ ps, z ^ (n / p) = 1) → k = 0) ∧ ((∀ p ∈ ps, z ^ (n / p) ≠ 1) → k ≠ 0) := by
  induction ps with
  | nil => intro q; exact ⟨1, by simp [killImprimitive], by simp, by simp⟩
  | cons p ps ih =>
    intro q
    rw [killImprimitive]
    by_cases hp : p ∈ ps
    · rw [if_pos hp]
      obtain ⟨k, h1, h2, h3⟩ := ih q
      refine ⟨k, h1, fun ⟨x, hx, hz⟩ => h2 ⟨x, ?_, hz⟩, fun h => h3 fun x hx => h x (by simp [hx])⟩
      rcases List.mem_cons.1 hx with h | h
      · exact h ▸ hp
      · exact h
    · rw [if_neg hp]
      obtain ⟨k, h1, h2, h3⟩ := ih (timesPowSubOne (n / p) q)
      refine ⟨k * (z ^ (n / p) - 1), by rw [h1, eval_timesPowSubOne, mul_assoc], fun ⟨x, hx, hz⟩ => ?_, fun h => ?_⟩
      · rcases List.mem_cons.1 hx with hxp | hxp
        · rw [← hxp, hz, sub_self, mul_zero]
        · rw [h2 ⟨x, hxp, hz⟩, zero_mul]
      · exact mul_ne_zero (h3 fun x hx => h x (by simp [hx])) (sub_ne_zero.2 (h p (by simp)))

/-- The polynomial of a sparse list. -/
noncomputable def Sparse.toPoly : Sparse → Polynomial ℚ
  | [] => 0
  | (e, c) :: p => Polynomial.C c * Polynomial.X ^ e + Sparse.toPoly p

theorem aeval_toPoly (z : ℂ) (p : Sparse) : Polynomial.aeval z p.toPoly = p.eval z := by
  induction p with
  | nil => simp [Sparse.toPoly, Sparse.eval]
  | cons x p ih => obtain ⟨e, c⟩ := x; simp [Sparse.toPoly, Sparse.eval, ih]

/-- A rational polynomial that vanishes at one primitive root vanishes at all of them. -/
theorem eval_eq_zero_of_primitive (n : ℕ) (hn : 0 < n) (p : Sparse) (z w : ℂ) (hz : IsPrimitiveRoot z n)
    (hw : IsPrimitiveRoot w n) (h : p.eval z = 0) : p.eval w = 0 := by
  rw [← aeval_toPoly] at h ⊢
  have hd : minpoly ℚ z ∣ p.toPoly := minpoly.dvd ℚ z h
  rw [← Polynomial.cyclotomic_eq_minpoly_rat hz hn, Polynomial.cyclotomic_eq_minpoly_rat hw hn] at hd
  obtain ⟨q, hq⟩ := hd
  rw [hq, map_mul, minpoly.aeval, zero_mul]

/-- The test on the polynomial is exact. -/
theorem vanishes_iff (n : ℕ) (hn : 0 < n) (p : Sparse) (z : ℂ) (hz : IsPrimitiveRoot z n) :
    vanishesMod n (killImprimitive n (primesOf n) p) = true ↔ p.eval z = 0 := by
  rw [vanishesMod_iff_roots n hn]
  constructor
  · intro h
    obtain ⟨k, h1, -, h3⟩ := eval_killImprimitive n z (primesOf n) p
    have h0 := h z hz.pow_eq_one
    rw [h1] at h0
    rcases mul_eq_zero.1 h0 with hk | hk
    · refine absurd hk (h3 fun q hq => ?_)
      obtain ⟨hq2, hqn⟩ := primesOf_dvd n hn q hq
      exact hz.pow_ne_one_of_pos_of_lt (Nat.div_pos (Nat.le_of_dvd hn hqn) (by omega)).ne' (Nat.div_lt_self hn (by omega))
    · exact hk
  · intro h w hw
    obtain ⟨k, h1, h2, -⟩ := eval_killImprimitive n w (primesOf n) p
    rw [h1]
    by_cases hprim : IsPrimitiveRoot w n
    · rw [eval_eq_zero_of_primitive n hn p z w hz hprim h, mul_zero]
    · have hord : orderOf w ∣ n := orderOf_dvd_of_pow_eq_one hw
      have hne : orderOf w ≠ n := fun he => hprim (he ▸ IsPrimitiveRoot.orderOf w)
      obtain ⟨c, hc⟩ := hord
      have hc1 : c ≠ 1 := fun h1 => hne (by rw [hc, h1, mul_one])
      obtain ⟨q, hq, hqc⟩ := Nat.exists_prime_and_dvd hc1
      have hqn : q ∣ n := hqc.trans ⟨orderOf w, by rw [hc, mul_comm]⟩
      rw [h2 ⟨q, mem_primesOf n hn q hq hqn, ?_⟩, zero_mul]
      obtain ⟨e, he⟩ := hqc
      have : n / q = orderOf w * e := by
        rw [hc, he, show orderOf w * (q * e) = q * (orderOf w * e) by ring, Nat.mul_div_cancel_left _ hq.pos]
      rw [this, pow_mul, pow_orderOf_eq_one, one_pow]

/-! ### From amplitudes to polynomials -/

theorem termsDen_pos (ts : List SineTerm) : 0 < termsDen ts := by
  induction ts with
  | nil => simp [termsDen]
  | cons t ts ih => exact Nat.lcm_pos (Rat.den_pos _) ih

theorem Amp.order_pos (a : Amp) : 0 < a.order := Nat.mul_pos (by norm_num) (termsDen_pos _)

/-- The primitive root that the amplitudes are read at. -/
noncomputable def rootOf (n : ℕ) : ℂ := Complex.exp (2 * Real.pi * Complex.I / n)

theorem rootOf_pow (n : ℕ) (hn : 0 < n) (e : ℕ) (g : ℚ) (he : (e : ℚ) = g * n) :
    rootOf n ^ e = Complex.exp (radians g * Complex.I) := by
  have hn' : (n : ℂ) ≠ 0 := by exact_mod_cast hn.ne'
  have he' : (e : ℂ) = (g : ℂ) * n := by exact_mod_cast congrArg (fun x : ℚ => (x : ℂ)) he
  rw [rootOf, ← Complex.exp_nat_mul, he']
  congr 1
  simp only [radians]; push_cast
  field_simp

theorem termsPoly_eval (n : ℕ) (hn : 0 < n) (ts : List SineTerm) (hd : termsDen ts ∣ n) :
    (termsPoly n ts).eval (rootOf n) = 2 * Complex.I * (termsReal ts : ℂ) := by
  induction ts with
  | nil => simp [termsPoly, Sparse.eval, termsReal]
  | cons t ts ih =>
    have hd1 : (foldTurn t.turn).2.den ∣ n := (Nat.dvd_lcm_left _ _).trans hd
    have hd2 : termsDen ts ∣ n := (Nat.dvd_lcm_right _ _).trans hd
    obtain ⟨g0, g1⟩ := foldTurn_range t.turn
    simp only [termsPoly, Sparse.eval, termsReal, ih hd2]
    rw [sin_foldTurn]
    generalize (foldTurn t.turn).1 = b
    generalize (foldTurn t.turn).2 = g at *
    have he : ((g.num.toNat * (n / g.den) : ℕ) : ℚ) = g * n := by
      obtain ⟨c, hc⟩ := hd1
      have hdp : 0 < g.den := g.den_pos
      have hnum : ((g.num.toNat : ℕ) : ℚ) = (g.num : ℚ) := by
        have : ((g.num.toNat : ℕ) : ℤ) = g.num := Int.toNat_of_nonneg (Rat.num_nonneg.2 g0)
        exact_mod_cast this
      rw [hc, Nat.mul_div_cancel_left c hdp]
      push_cast
      rw [hnum, ← mul_assoc, Rat.mul_den_eq_num]
    have hle : g.num.toNat * (n / g.den) ≤ n := by
      have : ((g.num.toNat * (n / g.den) : ℕ) : ℚ) ≤ (n : ℚ) := by
        rw [he]
        have : (0 : ℚ) ≤ n := by positivity
        nlinarith
      exact_mod_cast this
    have he2 : ((n - g.num.toNat * (n / g.den) : ℕ) : ℚ) = (1 - g) * n := by
      rw [Nat.cast_sub hle, he]; ring
    rw [rootOf_pow n hn _ g he, rootOf_pow n hn _ (1 - g) he2]
    have hr : radians (1 - g) = 2 * Real.pi - radians g := by simp only [radians]; push_cast; ring
    rw [hr, Complex.exp_mul_I, Complex.exp_mul_I, ← Complex.ofReal_cos, ← Complex.ofReal_sin, ← Complex.ofReal_cos,
      ← Complex.ofReal_sin, Real.cos_two_pi_sub, Real.sin_two_pi_sub]
    push_cast
    ring

theorem Amp.poly_eval (a : Amp) : (a.poly a.order).eval (rootOf a.order) = 2 * Complex.I * (a.toReal : ℂ) := by
  have hn := a.order_pos
  have hI : rootOf a.order ^ (a.order / 4) = Complex.I := by
    rw [rootOf_pow a.order hn (a.order / 4) (1 / 4) ?_]
    · have : radians (1 / 4) = Real.pi / 2 := by simp only [radians]; push_cast; ring
      rw [this, Complex.exp_mul_I, ← Complex.ofReal_cos, ← Complex.ofReal_sin, Real.cos_pi_div_two, Real.sin_pi_div_two]
      simp
    · rw [Amp.order, Nat.mul_div_cancel_left _ (by norm_num)]; push_cast; ring
  simp only [Amp.poly, Sparse.eval, hI, Amp.toReal, termsPoly_eval a.order hn a.sines (Dvd.intro_left 4 rfl)]
  push_cast
  ring

/-- The zero test is exact. -/
theorem Amp.isZero_iff (a : Amp) : a.isZero = true ↔ a.toReal = 0 := by
  rw [Amp.isZero, vanishes_iff a.order a.order_pos _ (rootOf a.order)
    (Complex.isPrimitiveRoot_exp a.order a.order_pos.ne'), Amp.poly_eval]
  simp

end Sys2Proof
end

