-- ==== Sys2Proof/Machine/Sample.lean ====
section
/-!
DEFINITION. The sample conversion `toI16` (41_mixer.md R146), computed exactly: "first clamp ... then cast, y = trunc(c), the
integer nearest c toward zero".

The amplitude is enclosed between rationals. Where both ends of the enclosure convert to the same sample, that is the
sample; where they do not, the amplitude may be an integer, which `Amp.isZero` tells exactly; otherwise a finer enclosure
is taken. `exists_settled` says that some enclosure settles it, so the search ends for every amplitude.
`Laws/Sample.lean` proves the result equal to `realToI16` of the amplitude's real value.
-/
namespace Sys2Proof

/-- The clamp of R146 on rationals. -/
def clampRat (q : ℚ) : ℚ := if q < -32768 then -32768 else if 32767 < q then 32767 else q

/-- `trunc` of R14 on rationals. -/
def truncRat (q : ℚ) : ℤ := if 0 ≤ q then ⌊q⌋ else ⌈q⌉

/-- `toI16` of a rational (R146). -/
def ratToI16 (q : ℚ) : ℤ := truncRat (clampRat q)

/-- The sample, if the enclosure of precision `k` settles it. -/
def settle (a : Amp) (k : ℕ) : Option ℤ :=
  let m := a.mid (k + 2)
  let e := a.rad (k + 2)
  let lo := ratToI16 (m - e)
  if lo = ratToI16 (m + e) then some lo
  else
    let z : ℤ := ⌊m + 1 / 2⌋
    if (a.add (Amp.ofRat (-z))).isZero then some (ratToI16 z) else none

theorem insertTerm_real (t : SineTerm) (ts : List SineTerm) :
    termsReal (insertTerm t ts) = (t.coeff : ℝ) * Real.sin (radians t.turn) + termsReal ts := by
  induction ts with
  | nil => by_cases h : t.coeff = 0 <;> simp [insertTerm, termsReal, h]
  | cons u us ih =>
    rw [insertTerm]
    by_cases h1 : t.turn < u.turn
    · by_cases h : t.coeff = 0 <;> simp [h1, h, termsReal]
    · by_cases h2 : t.turn = u.turn
      · by_cases h : t.coeff + u.coeff = 0
        · have hc : (t.coeff : ℝ) + (u.coeff : ℝ) = 0 := by exact_mod_cast h
          simp only [h2, h, if_true, if_false, termsReal, lt_irrefl]
          rw [← add_assoc, ← add_mul, hc, zero_mul, zero_add]
        · simp only [h2, h, if_true, if_false, termsReal, lt_irrefl]; push_cast; ring
      · simp only [h1, h2, if_false, termsReal, ih]; ring

theorem foldr_insertTerm_real (ts us : List SineTerm) :
    termsReal (ts.foldr insertTerm us) = termsReal ts + termsReal us := by
  induction ts with
  | nil => simp [termsReal]
  | cons t ts ih => simp only [List.foldr, insertTerm_real, ih, termsReal]; ring

@[simp] theorem Amp.add_toReal (a b : Amp) : (a.add b).toReal = a.toReal + b.toReal := by
  simp only [Amp.toReal, Amp.add, foldr_insertTerm_real]; push_cast; ring

@[simp] theorem Amp.ofRat_toReal (q : ℚ) : (Amp.ofRat q).toReal = q := by simp [Amp.toReal, Amp.ofRat, termsReal]

/-- A rational and the integer it stands for convert alike. -/
theorem ratToI16_mono {p q : ℚ} (h : p ≤ q) : ratToI16 p ≤ ratToI16 q := by
  have hc : clampRat p ≤ clampRat q := by unfold clampRat; split_ifs <;> linarith
  unfold ratToI16
  revert hc
  generalize clampRat p = a
  generalize clampRat q = b
  intro hc
  unfold truncRat
  split_ifs with h1 h2
  · exact Int.floor_mono hc
  · linarith
  · have h1' : ⌈a⌉ ≤ 0 := Int.ceil_le.2 (by push_cast; linarith)
    exact h1'.trans (Int.floor_nonneg.2 ‹_›)
  · exact Int.ceil_mono hc

/-- Between two neighbouring integers the conversion is constant. -/
theorem ratToI16_between (n : ℤ) (p q : ℚ) (hp0 : (n : ℚ) < p) (hp1 : p < n + 1) (hq0 : (n : ℚ) < q) (hq1 : q < n + 1) :
    ratToI16 p = ratToI16 q := by
  have key : ∀ r : ℚ, (n : ℚ) < r → r < n + 1 →
      ratToI16 r = if 32767 ≤ n then 32767 else if n < -32768 then -32768 else if 0 ≤ n then n else n + 1 := by
    intro r h0 h1
    unfold ratToI16 clampRat truncRat
    by_cases c1 : 32767 ≤ n
    · have c1' : (32767 : ℚ) ≤ n := by exact_mod_cast c1
      rw [if_neg (by linarith : ¬ r < -32768), if_pos (by linarith : 32767 < r), if_pos c1]; norm_num
    · by_cases c2 : n < -32768
      · have c2' : (n : ℚ) + 1 ≤ -32768 := by exact_mod_cast Int.add_one_le_iff.2 c2
        rw [if_pos (by linarith : r < -32768), if_neg c1, if_pos c2]; norm_num
      · have c1' : (n : ℚ) + 1 ≤ 32767 := by exact_mod_cast Int.add_one_le_iff.2 (not_le.1 c1)
        have c2' : (-32768 : ℚ) ≤ n := by exact_mod_cast not_lt.1 c2
        rw [if_neg (by linarith : ¬ r < -32768), if_neg (by linarith : ¬ 32767 < r), if_neg c1, if_neg c2]
        by_cases c3 : 0 ≤ n
        · have c3' : (0 : ℚ) ≤ n := by exact_mod_cast c3
          rw [if_pos (by linarith : 0 ≤ r), if_pos c3, Int.floor_eq_iff]; exact ⟨h0.le, h1⟩
        · have c3' : (n : ℚ) + 1 ≤ 0 := by exact_mod_cast Int.add_one_le_iff.2 (not_le.1 c3)
          rw [if_neg (by linarith : ¬ 0 ≤ r), if_neg c3, Int.ceil_eq_iff]
          push_cast
          exact ⟨by linarith, h1.le⟩
  rw [key p hp0 hp1, key q hq0 hq1]

/-- Some enclosure settles the sample: the search for one ends. -/
theorem exists_settled (a : Amp) : ∃ k, (settle a k).isSome = true := by
  have hfine : ∀ δ : ℝ, 0 < δ → ∃ k, ((a.rad (k + 2) : ℚ) : ℝ) < δ := by
    intro δ hδ
    have h := (a.rad_tendsto.comp (Filter.tendsto_add_atTop_nat 2)).eventually (gt_mem_nhds hδ)
    obtain ⟨k, hk⟩ := h.exists
    exact ⟨k, hk⟩
  by_cases hint : a.toReal = ((⌊a.toReal⌋ : ℤ) : ℝ)
  · obtain ⟨k, hk⟩ := hfine (1 / 2) (by norm_num)
    refine ⟨k, ?_⟩
    have herr := a.mid_error (k + 2) (by omega)
    have hlt := abs_lt.1 (herr.trans_lt hk)
    have hz : (⌊a.mid (k + 2) + 1 / 2⌋ : ℤ) = ⌊a.toReal⌋ := by
      rw [Int.floor_eq_iff]
      constructor
      · have : ((⌊a.toReal⌋ : ℤ) : ℝ) ≤ ((a.mid (k + 2) + 1 / 2 : ℚ) : ℝ) := by push_cast; linarith [hlt.1]
        exact_mod_cast this
      · have : ((a.mid (k + 2) + 1 / 2 : ℚ) : ℝ) < ((⌊a.toReal⌋ : ℤ) : ℝ) + 1 := by push_cast; linarith [hlt.2]
        exact_mod_cast this
    have h0 : (a.add (Amp.ofRat (-(⌊a.mid (k + 2) + 1 / 2⌋ : ℤ)))).isZero = true := by
      rw [Amp.isZero_iff, Amp.add_toReal, Amp.ofRat_toReal, hz]
      push_cast
      linarith
    unfold settle
    simp only [h0, if_true]
    split_ifs <;> rfl
  · have hlo : ((⌊a.toReal⌋ : ℤ) : ℝ) < a.toReal := lt_of_le_of_ne (Int.floor_le _) fun h => hint h.symm
    have hhi : a.toReal < ((⌊a.toReal⌋ : ℤ) : ℝ) + 1 := Int.lt_floor_add_one _
    generalize ⌊a.toReal⌋ = n at hlo hhi
    obtain ⟨k, hk⟩ := hfine (min (a.toReal - n) (n + 1 - a.toReal) / 2)
      (half_pos (lt_min (sub_pos.2 hlo) (sub_pos.2 hhi)))
    refine ⟨k, ?_⟩
    have herr := abs_le.1 (a.mid_error (k + 2) (by omega))
    have h1 := min_le_left (a.toReal - n) (n + 1 - a.toReal)
    have h2 := min_le_right (a.toReal - n) (n + 1 - a.toReal)
    have hr : (0 : ℝ) ≤ ((a.rad (k + 2) : ℚ) : ℝ) := le_trans (abs_nonneg _) (a.mid_error (k + 2) (by omega))
    have c1 : (n : ℚ) < a.mid (k + 2) - a.rad (k + 2) := by
      have : ((n : ℤ) : ℝ) < ((a.mid (k + 2) - a.rad (k + 2) : ℚ) : ℝ) := by push_cast; linarith [herr.1, herr.2]
      exact_mod_cast this
    have c2 : a.mid (k + 2) + a.rad (k + 2) < n + 1 := by
      have : ((a.mid (k + 2) + a.rad (k + 2) : ℚ) : ℝ) < ((n : ℤ) : ℝ) + 1 := by push_cast; linarith [herr.1, herr.2]
      exact_mod_cast this
    have hr' : (0 : ℚ) ≤ a.rad (k + 2) := by exact_mod_cast hr
    unfold settle
    simp only [ratToI16_between n _ _ c1 (by linarith) (by linarith : (n : ℚ) < a.mid (k + 2) + a.rad (k + 2)) c2, if_true]
    rfl

/-- `toI16` of an amplitude (R146). Four precisions are tried first; the search after them is never reached in practice
and is what makes the function total. -/
def Amp.toI16 (a : Amp) : ℤ :=
  match [8, 16, 32, 64].findSome? (settle a) with
  | some y => y
  | none => (settle a (Nat.find (exists_settled a))).getD 0

end Sys2Proof
end

