-- ==== Sys2Proof/Machine/AmpReal.lean ====
section
/-!
DEFINITION. The exact arithmetic of Amp.lean and Sample.lean against the reals (00_scope.md R11): what real number each
operation's result stands for, and that `Amp.toI16` is the sample of the amplitude's real value (41_mixer.md R146).
`Machine/OpenReals.lean` rests on it.
-/
namespace Sys2Proof

/-! ### Amplitudes -/

theorem sin_pos_of_fold {g : Turn} (h0 : 0 < g) (h1 : g ≤ 1 / 4) : 0 < Real.sin (radians g) := by
  have h0' : (0 : ℝ) < g := by exact_mod_cast h0
  have h1' : (g : ℝ) ≤ 1 / 4 := by
    have : ((g : ℚ) : ℝ) ≤ ((1 / 4 : ℚ) : ℝ) := by exact_mod_cast h1
    push_cast at this; linarith
  have hp := Real.pi_pos
  apply Real.sin_pos_of_pos_of_lt_pi
  · simp only [radians]; positivity
  · simp only [radians]; nlinarith

theorem foldSign_real (b : Bool) : (foldSign b : ℝ) = if b then -1 else 1 := by cases b <;> simp [foldSign]

/-- `sgnSine` is the sign of the sine, with the given value at a zero (R14, R126). -/
theorem sgnSine_real (sign0 : ℚ) (r : Turn) :
    ((sgnSine sign0 r : ℚ) : ℝ) = realSgn sign0 (Real.sin (radians r)) := by
  obtain ⟨g0, g1⟩ := foldTurn_range r
  rw [sin_foldTurn, foldSign_real]
  unfold sgnSine realSgn
  generalize (foldTurn r).1 = b
  generalize (foldTurn r).2 = g at g0 g1
  by_cases hg : g = 0
  · subst hg; simp [radians]
  · have hs := sin_pos_of_fold (lt_of_le_of_ne g0 (Ne.symm hg)) g1
    cases b
    · simp [hg, hs, foldSign]
    · have h1 : ¬ (0 < -Real.sin (radians g)) := by linarith
      simp [hg, foldSign, hs, h1]

@[simp] theorem Amp.zero_toReal : Amp.zero.toReal = 0 := by simp [Amp.zero]

/-- `Amp.sine r` stands for `sin (2π r)` (R126). -/
@[simp] theorem Amp.sine_toReal (r : Turn) : (Amp.sine r).toReal = Real.sin (radians r) := by
  rw [sin_foldTurn]
  unfold Amp.sine
  dsimp only
  generalize (foldTurn r).1 = b
  generalize (foldTurn r).2 = g
  have h12 : Real.sin (radians (1 / 12)) = 1 / 2 := by
    have : radians (1 / 12) = Real.pi / 6 := by simp only [radians]; push_cast; ring
    rw [this, Real.sin_pi_div_six]
  have h4 : Real.sin (radians (1 / 4)) = 1 := by
    have : radians (1 / 4) = Real.pi / 2 := by simp only [radians]; push_cast; ring
    rw [this, Real.sin_pi_div_two]
  split_ifs with h0 h1 h2
  · subst h0; simp [radians]
  · subst h1; rw [h12, Amp.ofRat_toReal]; push_cast; ring
  · subst h2; rw [h4, Amp.ofRat_toReal, mul_one]
  · simp [Amp.toReal, termsReal]

theorem termsReal_map_scale (c : ℚ) (ts : List SineTerm) :
    termsReal (ts.map fun t => { coeff := c * t.coeff, turn := t.turn }) = (c : ℝ) * termsReal ts := by
  induction ts with
  | nil => simp [termsReal]
  | cons t ts ih => simp only [List.map, termsReal, ih]; push_cast; ring

@[simp] theorem Amp.scale_toReal (c : ℚ) (a : Amp) : (Amp.scale c a).toReal = (c : ℝ) * a.toReal := by
  unfold Amp.scale
  split_ifs with h
  · simp [h]
  · simp only [Amp.toReal, termsReal_map_scale]; push_cast; ring

/-! ### The sample conversion -/

theorem realTrunc_cast (q : ℚ) : realTrunc (q : ℝ) = truncRat q := by
  unfold realTrunc truncRat
  by_cases h : 0 ≤ q
  · have h' : (0 : ℝ) ≤ q := by exact_mod_cast h
    rw [if_pos h, if_pos h', Rat.floor_cast]
  · have h' : ¬ (0 : ℝ) ≤ q := by exact_mod_cast h
    rw [if_neg h, if_neg h', Rat.ceil_cast]

theorem realToI16_cast (q : ℚ) : realToI16 (q : ℝ) = ratToI16 q := by
  unfold realToI16 ratToI16 clampRat
  rw [← realTrunc_cast]
  congr 1
  have h1 : ((q : ℝ) < -32768) ↔ q < -32768 := by
    constructor <;> intro h <;> exact_mod_cast h
  have h2 : ((32767 : ℝ) < q) ↔ 32767 < q := by
    constructor <;> intro h <;> exact_mod_cast h
  simp only [h1, h2]
  split_ifs <;> push_cast <;> rfl

theorem realTrunc_mono {x y : ℝ} (h : x ≤ y) : realTrunc x ≤ realTrunc y := by
  unfold realTrunc
  split_ifs with h1 h2 h2
  · exact Int.floor_mono h
  · linarith
  · exact (Int.ceil_le.2 (by push_cast; linarith : x ≤ ((0 : ℤ) : ℝ))).trans (Int.floor_nonneg.2 h2)
  · exact Int.ceil_mono h

theorem realToI16_mono {x y : ℝ} (h : x ≤ y) : realToI16 x ≤ realToI16 y := by
  unfold realToI16
  apply realTrunc_mono
  split_ifs <;> linarith

/-- What an enclosure settles is the sample of the real value. -/
theorem settle_sound (a : Amp) (k : ℕ) (y : ℤ) (h : settle a k = some y) : y = realToI16 a.toReal := by
  have herr := abs_le.1 (a.mid_error (k + 2) (by omega))
  unfold settle at h
  dsimp only at h
  split_ifs at h with h1 h2
  · obtain rfl := Option.some.inj h
    have lo : ((a.mid (k + 2) - a.rad (k + 2) : ℚ) : ℝ) ≤ a.toReal := by push_cast; linarith [herr.2]
    have hi : a.toReal ≤ ((a.mid (k + 2) + a.rad (k + 2) : ℚ) : ℝ) := by push_cast; linarith [herr.1]
    have hlo := realToI16_mono lo
    have hhi := realToI16_mono hi
    rw [realToI16_cast] at hlo hhi
    rw [← h1] at hhi
    exact le_antisymm hlo hhi
  · obtain rfl := Option.some.inj h
    rw [Amp.isZero_iff, Amp.add_toReal, Amp.ofRat_toReal] at h2
    push_cast at h2
    have : a.toReal = (((⌊a.mid (k + 2) + 1 / 2⌋ : ℤ) : ℚ) : ℝ) := by push_cast; linarith
    rw [this, realToI16_cast]

/-- The sample is one that some enclosure settled. -/
theorem toI16_settled (a : Amp) : ∃ k, settle a k = some a.toI16 := by
  unfold Amp.toI16
  split
  · rename_i y hy
    obtain ⟨k, _, hk⟩ := List.exists_of_findSome?_eq_some hy
    exact ⟨k, hk⟩
  · refine ⟨Nat.find (exists_settled a), ?_⟩
    have h := Nat.find_spec (exists_settled a)
    obtain ⟨y, hy⟩ := Option.isSome_iff_exists.1 h
    rw [hy]; rfl

/-- `Amp.toI16` is the clamp and truncation of the amplitude's real value (R146). -/
theorem Amp.toI16_real (a : Amp) : a.toI16 = realToI16 a.toReal := by
  obtain ⟨k, hk⟩ := toI16_settled a
  exact settle_sound a k _ hk

end Sys2Proof
end

