-- ==== Sys2Proof/Machine/Wave.lean ====
section
/-!
DEFINITION. Exact arithmetic on real parameters, angles and waves: what `+`, `*`, `/` of the spec's reals are on the data of
Word.lean (00_scope.md R11, R12), and the real number that such data stands for under a choice `x` of the open reals.

Where no open real occurs an angle is its rational turn and a wave its amplitude (Amp.lean).
-/
namespace Sys2Proof

/-! ### Real parameters -/

/-- The rational `q` as a real parameter. -/
def RealParam.rat (q : ℚ) : RealParam := { scale := q, name := none }

/-- A real parameter times a rational. -/
def RealParam.times (p : RealParam) (q : ℚ) : RealParam :=
  if q = 0 then RealParam.rat 0 else { p with scale := p.scale * q }

/-- The quotient of two real parameters, as turns; the same open real above and below cancels. -/
def RealParam.ratio (p q : RealParam) : Angle :=
  if p.name = q.name then { turn := p.scale / q.scale, opens := [] }
  else { turn := 0, opens := [{ coeff := p.scale / q.scale, num := p.name, den := q.name }] }

/-! ### Angles -/

/-- Adds one quotient to a list of quotients; equal quotients are merged and a zero coefficient leaves none. -/
def insertOpen (p : OpenTurn) : List OpenTurn → List OpenTurn
  | [] => if p.coeff = 0 then [] else [p]
  | u :: us =>
    if p.num = u.num ∧ p.den = u.den then
      (if p.coeff + u.coeff = 0 then us else { u with coeff := p.coeff + u.coeff } :: us)
    else u :: insertOpen p us

namespace Angle

/-- A rational number of turns. -/
def ofTurn (r : Turn) : Angle := { turn := r, opens := [] }

/-- The sum of two angles. -/
def add (a b : Angle) : Angle := { turn := a.turn + b.turn, opens := b.opens.foldr insertOpen a.opens }

/-- The product of an angle and a rational. -/
def scale (c : ℚ) (a : Angle) : Angle :=
  if c = 0 then ofTurn 0
  else { turn := c * a.turn, opens := a.opens.map fun p => { p with coeff := c * p.coeff } }

/-- An angle less one turn, `2π`. -/
def subTurn (a : Angle) : Angle := { a with turn := a.turn - 1 }

/-- The turn that an angle is when every open real is 1. -/
def atOne (a : Angle) : Turn := a.turn + (a.opens.map OpenTurn.coeff).sum

end Angle

/-! ### Waves -/

namespace Wave

/-- The rational `q` as a wave. -/
def ofRat (q : ℚ) : Wave := { amp := Amp.ofRat q, opens := [] }

/-- The wave 0. -/
def zero : Wave := ofRat 0

/-- `sin` of an angle (40_oscillator.md R126 "Base waveform"). -/
def sine (a : Angle) : Wave :=
  match a.opens with
  | [] => { amp := Amp.sine a.turn, opens := [] }
  | _ :: _ => { amp := Amp.zero, opens := [{ coeff := 1, angle := a }] }

/-- The sum of two waves. -/
def add (v w : Wave) : Wave := { amp := v.amp.add w.amp, opens := v.opens ++ w.opens }

/-- The product of a rational and a wave. -/
def scale (c : ℚ) (w : Wave) : Wave :=
  if c = 0 then zero
  else { amp := Amp.scale c w.amp, opens := w.opens.map fun o => { o with coeff := c * o.coeff } }

/-- The amplitude that a wave is when every open real is 1. -/
def atOne (w : Wave) : Amp :=
  w.opens.foldr (fun o a => (Amp.scale o.coeff (Amp.sine o.angle.atOne)).add a) w.amp

end Wave

/-! ### The real number under a choice of the open reals -/

/-- The open real of a name; 1 where none is named. -/
def openAt (x : Nat → ℝ) : Option Nat → ℝ
  | none => 1
  | some k => x k

/-- The value of a real parameter. -/
noncomputable def RealParam.realAt (x : Nat → ℝ) (p : RealParam) : ℝ := p.scale * openAt x p.name

/-- The value of a quotient, in turns. -/
noncomputable def OpenTurn.realAt (x : Nat → ℝ) (p : OpenTurn) : ℝ := p.coeff * (openAt x p.num / openAt x p.den)

/-- The value of a list of quotients, in turns. -/
noncomputable def opensTurns (x : Nat → ℝ) : List OpenTurn → ℝ
  | [] => 0
  | p :: ps => p.realAt x + opensTurns x ps

/-- The value of an angle, in turns. -/
noncomputable def Angle.turnsAt (x : Nat → ℝ) (a : Angle) : ℝ := a.turn + opensTurns x a.opens

/-- The value of an angle, in radians. -/
noncomputable def Angle.realAt (x : Nat → ℝ) (a : Angle) : ℝ := 2 * Real.pi * a.turnsAt x

/-- The value of a list of sine terms. -/
noncomputable def opensReal (x : Nat → ℝ) : List OpenSine → ℝ
  | [] => 0
  | o :: os => o.coeff * Real.sin (o.angle.realAt x) + opensReal x os

/-- The value of a wave. -/
noncomputable def Wave.realAt (x : Nat → ℝ) (w : Wave) : ℝ := w.amp.toReal + opensReal x w.opens

/-! ### The values when every open real is 1 -/

theorem openAt_one (n : Option Nat) : openAt (fun _ => 1) n = 1 := by cases n <;> rfl

theorem Angle.turnsAt_one (a : Angle) : a.turnsAt (fun _ => 1) = (a.atOne : ℝ) := by
  have h : ∀ ps : List OpenTurn, opensTurns (fun _ => 1) ps = (((ps.map OpenTurn.coeff).sum : ℚ) : ℝ) := by
    intro ps
    induction ps with
    | nil => simp [opensTurns]
    | cons p ps ih => simp [opensTurns, OpenTurn.realAt, openAt_one, ih]
  simp [Angle.turnsAt, Angle.atOne, h]

theorem Angle.realAt_one (a : Angle) : a.realAt (fun _ => 1) = radians a.atOne := by
  rw [Angle.realAt, Angle.turnsAt_one, radians]

theorem Wave.realAt_one (w : Wave) : w.realAt (fun _ => 1) = w.atOne.toReal := by
  unfold Wave.realAt Wave.atOne
  induction w.opens with
  | nil => simp [opensReal]
  | cons o os ih => simp only [opensReal, List.foldr, Amp.add_toReal, Amp.scale_toReal, Amp.sine_toReal, Angle.realAt_one, ← ih]; ring

end Sys2Proof
end

