-- ==== Sys2Proof/Machine/OpenReals.lean ====
section
/-!
DEFINITION. What the machine may know of the open reals, the real numbers that OPEN parameters name (00_scope.md R8, R11;
notes/assumptions/20).

Every positive real is a rational times a real of the interval 1 to 2, so an open real is taken from that interval and a
parameter gives the rational. The machine of the spec compares and converts reals exactly, whichever reals they are. For a
rational it is a computation; for an open real it is a fact about that real, and this structure carries those facts beside
the reals: one Boolean, sign or sample for each question the machine asks, with the law that the answer is the right one.
The fields' default values, every open real 1, say that the laws can be met; `Config.openReals` has no stated value.
-/
namespace Sys2Proof

theorem exceedsTurn_at_one (a : Angle) : decide (1 < a.atOne) = true ↔ 1 < a.turnsAt fun _ => 1 := by
  rw [Angle.turnsAt_one, decide_eq_true_eq]
  exact ⟨fun h => by exact_mod_cast h, fun h => by exact_mod_cast h⟩

theorem sgnSine_at_one (sign0 : ℚ) (a : Angle) :
    ((Sys2Proof.sgnSine sign0 a.atOne : ℚ) : ℝ) = realSgn sign0 (Real.sin (a.realAt fun _ => 1)) := by
  rw [Angle.realAt_one, sgnSine_real]

theorem sample_at_one (n : Option Nat) (w : Wave) :
    w.atOne.toI16 = realToI16 (openAt (fun _ => 1) n * w.realAt fun _ => 1) := by
  rw [openAt_one, one_mul, Wave.realAt_one, Amp.toI16_real]

/-- A choice of the open reals, and the answers to what the machine asks about them. -/
structure OpenReals where
  /-- the real of each name -/
  value : Nat → ℝ := fun _ => 1
  value_range : ∀ k, 1 ≤ value k ∧ value k ≤ 2 := by exact fun _ => ⟨le_refl _, one_le_two⟩
  /-- whether an angle exceeds `2π` (R124) -/
  exceedsTurn : Angle → Bool := fun a => decide (1 < a.atOne)
  exceedsTurn_iff : ∀ a, exceedsTurn a = true ↔ 1 < a.turnsAt value := by exact exceedsTurn_at_one
  /-- `sgn (sin φ)`, the given value at a zero of the sine (R14, R126) -/
  sgnSine : ℚ → Angle → ℚ := fun sign0 a => Sys2Proof.sgnSine sign0 a.atOne
  sgnSine_eq : ∀ sign0 a, ((sgnSine sign0 a : ℚ) : ℝ) = realSgn sign0 (Real.sin (a.realAt value)) := by exact sgnSine_at_one
  /-- `toI16` of a named open real times a wave (R146) -/
  sample : Option Nat → Wave → ℤ := fun _ w => w.atOne.toI16
  sample_eq : ∀ n w, sample n w = realToI16 (openAt value n * w.realAt value) := by exact sample_at_one
  deriving Inhabited

end Sys2Proof
end

