-- ==== Sys2Proof/Config.lean ====
section
/-!
DEFINITION. The configuration record `CFG` of FJS-CORE (00_scope.md R8) and its well-formedness (R10).

Field names are the spec's. A configuration is fixed before reset and never changes: the machine's state carries it
(notes/assumptions/1) and no operation writes it. What the spec leaves open stands here as parameters, and as two constants
without a value: the open reals (notes/assumptions/20) and the physical number formats (notes/assumptions/16).
-/
namespace Sys2Proof

/-- `SIGN0`, the value of `sign(0)` in the square shaper: -1, 0 or +1 (R8, R126). -/
inductive SignZero where
  | minusOne
  | zero
  | plusOne
  deriving DecidableEq, Repr

/-- The number that `SIGN0` names. -/
def SignZero.value : SignZero → ℚ
  | .minusOne => -1
  | .zero => 0
  | .plusOne => 1

/-- `REPRIME`: which notes an advance re-primes (R8, R168). -/
inductive Reprime where
  | all
  | consumed
  deriving DecidableEq, Repr

/-- `NUM`, the number format: the reals of the reference value domain, or the physical format numbered `k` (R8, R11). -/
inductive NumFormat where
  | reals
  | format (k : Nat)
  deriving DecidableEq, Repr

/-- The open reals and what is known of them: a choice that the spec leaves free (R8 "OPEN parameter"). -/
opaque Config.openReals : OpenReals

/-! ### The real number that exact data stands for -/

/-- The real that a parameter is (R8). -/
noncomputable def RealParam.toReal (p : RealParam) : ℝ := p.realAt Config.openReals.value

/-- An angle in turns. -/
noncomputable def Angle.turns (a : Angle) : ℝ := a.turnsAt Config.openReals.value

/-- An angle in radians. -/
noncomputable def Angle.toReal (a : Angle) : ℝ := a.realAt Config.openReals.value

/-- The real that a wave is. -/
noncomputable def Wave.toReal (w : Wave) : ℝ := w.realAt Config.openReals.value

/-- A real number that a physical format has to hold. -/
inductive RealDatum where
  | param (p : RealParam)
  | angle (a : Angle)
  | wave (w : Wave)
  deriving DecidableEq, Repr

/-- The real number. -/
noncomputable def RealDatum.toReal : RealDatum → ℝ
  | .param p => p.toReal
  | .angle a => a.toReal
  | .wave w => w.toReal

/-- A physical number format `(V, ofReal, add, sub, mul, divNat, sin, sign, gt, toI16)` (R11, 93_implementation_defined.md U1).
`V` is numbered by natural numbers; `sign` is given `SIGN0` (R126); a sample is 16 bits, two's complement (R146). -/
structure FormatOps where
  ofReal : RealDatum → Nat := fun _ => 0
  /-- `ofReal` is a function of the real number, not of how it is given -/
  ofReal_congr : ∀ a b : RealDatum, a.toReal = b.toReal → ofReal a = ofReal b := by exact fun _ _ _ => rfl
  add    : Nat → Nat → Nat
  sub    : Nat → Nat → Nat
  mul    : Nat → Nat → Nat
  divNat : Nat → Nat → Nat
  sin    : Nat → Nat
  sign   : SignZero → Nat → Nat
  gt     : Nat → Nat → Bool
  toI16  : Nat → BitVec 16
  deriving Inhabited

/-- The physical number formats: "the spec fixes no such format" (R11). -/
opaque Config.formatOps : Nat → FormatOps

/-- The configuration record (R8). -/
structure Config where
  /-- number of notes -/
  N : Nat
  /-- number of sequencer columns -/
  COLUMNS : Nat
  /-- stereo sample pairs per output buffer -/
  B : Nat
  /-- output sample rate in Hz -/
  FS : RealParam
  /-- target frequency of each note in Hz -/
  FREQ : List RealParam
  /-- the mixer's headroom constant -/
  HEADROOM : RealParam
  /-- width in bits of the millisecond time counter -/
  TW : Nat
  /-- `sign(0)` -/
  SIGN0 : SignZero
  /-- scope of the re-prime -/
  REPRIME : Reprime
  /-- `HL`: for each column the display rows lit to highlight it -/
  HL : List (List Nat)
  /-- the number format -/
  NUM : NumFormat
  deriving DecidableEq, Repr

namespace Config

/-- `0 < q`, on the numerator, so that it evaluates by unfolding. -/
def ratPos (q : ℚ) : Bool := decide (0 < q.num)

/-- `4 * f ≤ fs`, cross-multiplied, so that it evaluates by unfolding. -/
def ratQuarterLe (f fs : ℚ) : Bool := decide (4 * f.num * (fs.den : Int) ≤ fs.num * (f.den : Int))

/-- `f ≤ fs / 4` (R10(e)) for positive parameters: on the rationals where the same open real, or none, stands in both, else
whether four times the quotient does not exceed 1. -/
def quarterLe (f fs : RealParam) : Bool :=
  if f.name = fs.name then ratQuarterLe f.scale fs.scale
  else !openReals.exceedsTurn (Angle.scale 4 (f.ratio fs))

/-- R10: the configurations the spec gives a meaning to, clauses (a) to (h). An open real is positive, so a parameter has the sign of
its rational. -/
def wf (c : Config) : Bool :=
  decide (1 ≤ c.N) && decide (c.N ≤ 16)
  && decide (1 ≤ c.COLUMNS)
  && decide (1 ≤ c.B)
  && ratPos c.FS.scale
  && (decide (c.FREQ.length = c.N) && c.FREQ.all fun f => ratPos f.scale && quarterLe f c.FS)
  && decide (0 ≤ c.HEADROOM.scale.num)
  && (decide (1 ≤ c.TW) && decide (c.TW ≤ 32))
  && (decide (c.HL.length = c.COLUMNS) && c.HL.all fun rows => !rows.isEmpty && rows.all fun r => decide (r < c.N))

/-- The highlight rows of a column (R8 `HL`). -/
def highlight (c : Config) (col : Nat) : List Nat := c.HL.getD col []

/-- The frequency of a note (R22). -/
def freq (c : Config) (n : Nat) : RealParam := c.FREQ.getD n (RealParam.rat 0)

/-- `2π * FREQ[n] / FS` (R121), an angle. -/
def stepAngle (c : Config) (n : Nat) : Angle := (c.freq n).ratio c.FS

/-- The configuration that `State.reset` carries: the spec's defaults for `N`, `COLUMNS`, `TW`, `SIGN0`, `REPRIME` and the reference value
domain for `NUM` (R8), and an illustration for the open parameters (notes/assumptions/3). Statements hold for every well-formed configuration. -/
def default : Config where
  N := 8
  COLUMNS := 8
  B := 4
  FS := .rat 8000
  FREQ := [250, 500, 750, 1000, 1250, 1500, 1750, 2000].map RealParam.rat
  HEADROOM := .rat 16384
  TW := 32
  SIGN0 := .zero
  REPRIME := .all
  HL := [[0], [0], [0], [0], [0], [0], [0], [0]]
  NUM := .reals

end Config

end Sys2Proof
end

