-- ==== Sys2Proof/Syntax.lean ====
section
/-!
DEFINITION. The 15 atomic operations of FJS-CORE (30_encoding.md R96), one constructor per row of the opcode table.
-/
namespace Sys2Proof

/-- The control registers that CWR can name: CR0 to CR3 (10_state.md R30, 43_edge_control.md R190). -/
inductive CtrlReg where
  | vol
  | beat
  | sqmix
  | pmult
  deriving DecidableEq, Repr

/-- The register number, the value of the `idx` field (R30). -/
def CtrlReg.number : CtrlReg → Nat
  | .vol => 0
  | .beat => 1
  | .sqmix => 2
  | .pmult => 3

/-- An operation with its operands (R96). `n` is a note index, `now` a time in milliseconds, `value` the operand of CWR as
it stands in `data` (a code or milliseconds, R95), `levels` the line mask of RST (R94). -/
inductive Instr where
  | rst (levels : BitVec 32)
  | cwr (p : CtrlReg) (value : Nat)
  | pchk (now : Nat)
  | abeg
  | rchk (n : Nat)
  | rlvl (n : Nat)
  | rprm (n : Nat)
  | aend
  | lhi (n : Nat)
  | llo (n : Nat)
  | edge (n : Nat)
  | tbeg
  | voice (n : Nat)
  | tend
  | submit
  deriving DecidableEq, Repr

/-- The execution contexts (60_exceptions.md R205): control loop, edge handler, production loop, and the two outside agents. -/
inductive Context where
  | cl
  | eh
  | pl
  | env
  | host
  deriving DecidableEq, Repr

/-- The context that performs an operation; the opcode identifies it (R97). -/
def Instr.context : Instr → Context
  | .rst _ => .host
  | .cwr _ _ => .cl
  | .pchk _ => .cl
  | .abeg => .cl
  | .rchk _ => .cl
  | .rlvl _ => .cl
  | .rprm _ => .cl
  | .aend => .cl
  | .lhi _ => .env
  | .llo _ => .env
  | .edge _ => .eh
  | .tbeg => .pl
  | .voice _ => .pl
  | .tend => .pl
  | .submit => .pl

end Sys2Proof
end

