-- ==== Sys2Proof/WellFormed.lean ====
section
/-!
DEFINITION. Which operations with which operands exist under a configuration: the field constraints of 30_encoding.md R93 to
R96. An operation that is not well-formed has no word; its word would be a reserved encoding (R101).
-/
namespace Sys2Proof

/-- The operand range of CWR (R95): milliseconds below `2 ^ TW` for BEAT, a code up to 65536 for the others. -/
def CtrlReg.valueOk (c : Config) : CtrlReg → Nat → Bool
  | .beat, v => decide (v < 2 ^ c.TW)
  | .vol, v => decide (v ≤ 65536)
  | .sqmix, v => decide (v ≤ 65536)
  | .pmult, v => decide (v ≤ 65536)

/-- The operands satisfy the row's field constraints (R96). -/
def Instr.wf (c : Config) : Instr → Bool
  | .rst levels => decide (levels.toNat < 2 ^ c.N)
  | .cwr p v => p.valueOk c v
  | .pchk now => decide (now < 2 ^ c.TW)
  | .abeg => true
  | .rchk n => decide (n < c.N)
  | .rlvl n => decide (n < c.N)
  | .rprm n => decide (n < c.N)
  | .aend => true
  | .lhi n => decide (n < c.N)
  | .llo n => decide (n < c.N)
  | .edge n => decide (n < c.N)
  | .tbeg => true
  | .voice n => decide (n < c.N)
  | .tend => true
  | .submit => true

end Sys2Proof
end

