-- ==== Sys2Proof/Decode.lean ====
section
/-!
DEFINITION. Decoding and encoding of the 40-bit operation word (30_encoding.md R90 to R103).

The decoder is total on all `2 ^ 40` words and rejects a reserved word by the name of the constraint it breaks (R98, R100,
R101). Which words are reserved depends on `N` and `TW`, so it takes the configuration.
-/
namespace Sys2Proof

/-- Why a word is reserved (R100, R101). -/
inductive Reserved where
  /-- `op = 0xF` (R100). -/
  | opcode
  /-- formats Z, T, R with `idx` other than 0. -/
  | idxNotZero
  /-- formats Z, N with `data` other than 0. -/
  | dataNotZero
  /-- format N with `idx >= N`. -/
  | noteRange
  /-- format T, or format P with `p = 1`, with a set bit in `data[31:TW]`. -/
  | timeRange
  /-- format R with a set bit in `data[31:N]`. -/
  | levelsRange
  /-- format P with `idx >= 4`. -/
  | registerRange
  /-- format P with `p` in 0, 2, 3 and `data[31:17]` set or `data[16:0] > 65536`. -/
  | codeRange
  deriving DecidableEq, Repr

/-- `OW[39:36]` (R91). -/
def OpWord.op (w : OpWord) : Nat := (w.extractLsb' 36 4).toNat

/-- `OW[35:32]` (R91, R92). -/
def OpWord.idx (w : OpWord) : Nat := (w.extractLsb' 32 4).toNat

/-- `OW[31:0]` (R91). -/
def OpWord.data (w : OpWord) : Nat := (w.extractLsb' 0 32).toNat

/-- `{op, idx, data}` (R91, R13). -/
def packWord (op idx data : Nat) : OpWord := BitVec.ofNat 4 op ++ BitVec.ofNat 4 idx ++ BitVec.ofNat 32 data

/-- Format Z: no operand (R93). -/
def decodeZ (i : Instr) (idx data : Nat) : Except Reserved Instr :=
  if idx ≠ 0 then .error .idxNotZero else if data ≠ 0 then .error .dataNotZero else .ok i

/-- Format N: a note index below `N` (R93). -/
def decodeN (c : Config) (mk : Nat → Instr) (idx data : Nat) : Except Reserved Instr :=
  if c.N ≤ idx then .error .noteRange else if data ≠ 0 then .error .dataNotZero else .ok (mk idx)

/-- Format T: a time below `2 ^ TW` (R94). -/
def decodeT (c : Config) (mk : Nat → Instr) (idx data : Nat) : Except Reserved Instr :=
  if idx ≠ 0 then .error .idxNotZero else if 2 ^ c.TW ≤ data then .error .timeRange else .ok (mk data)

/-- Format R: a line mask with no bit at or above `N` (R94). -/
def decodeR (c : Config) (mk : BitVec 32 → Instr) (idx data : Nat) : Except Reserved Instr :=
  if idx ≠ 0 then .error .idxNotZero
  else if 2 ^ c.N ≤ data then .error .levelsRange else .ok (mk (BitVec.ofNat 32 data))

/-- The control register of a number (R30); numbers from 4 on are reserved (R101). -/
def ctrlRegOf : Nat → Option CtrlReg
  | 0 => some .vol
  | 1 => some .beat
  | 2 => some .sqmix
  | 3 => some .pmult
  | _ => none

/-- Format P: a register number and its value (R95). -/
def decodeP (c : Config) (mk : CtrlReg → Nat → Instr) (idx data : Nat) : Except Reserved Instr :=
  match ctrlRegOf idx with
  | none => .error .registerRange
  | some .beat => if 2 ^ c.TW ≤ data then .error .timeRange else .ok (mk .beat data)
  | some p => if 65536 < data then .error .codeRange else .ok (mk p data)

/-- The decoder (R98). -/
def decode (c : Config) (w : OpWord) : Except Reserved Instr :=
  let idx := w.idx
  let data := w.data
  match w.op with
  | 0 => decodeR c Instr.rst idx data
  | 1 => decodeP c Instr.cwr idx data
  | 2 => decodeT c Instr.pchk idx data
  | 3 => decodeZ Instr.abeg idx data
  | 4 => decodeN c Instr.rchk idx data
  | 5 => decodeN c Instr.rlvl idx data
  | 6 => decodeN c Instr.rprm idx data
  | 7 => decodeZ Instr.aend idx data
  | 8 => decodeN c Instr.lhi idx data
  | 9 => decodeN c Instr.llo idx data
  | 10 => decodeN c Instr.edge idx data
  | 11 => decodeZ Instr.tbeg idx data
  | 12 => decodeN c Instr.voice idx data
  | 13 => decodeZ Instr.tend idx data
  | 14 => decodeZ Instr.submit idx data
  | _ => .error .opcode

/-- The opcode of an operation (R96). -/
def Instr.opcode : Instr → Nat
  | .rst _ => 0
  | .cwr _ _ => 1
  | .pchk _ => 2
  | .abeg => 3
  | .rchk _ => 4
  | .rlvl _ => 5
  | .rprm _ => 6
  | .aend => 7
  | .lhi _ => 8
  | .llo _ => 9
  | .edge _ => 10
  | .tbeg => 11
  | .voice _ => 12
  | .tend => 13
  | .submit => 14

/-- The `idx` field of an operation (R93). -/
def Instr.idxField : Instr → Nat
  | .rst _ => 0
  | .cwr p _ => p.number
  | .pchk _ => 0
  | .abeg => 0
  | .rchk n => n
  | .rlvl n => n
  | .rprm n => n
  | .aend => 0
  | .lhi n => n
  | .llo n => n
  | .edge n => n
  | .tbeg => 0
  | .voice n => n
  | .tend => 0
  | .submit => 0

/-- The `data` field of an operation (R93 to R95). -/
def Instr.dataField : Instr → Nat
  | .rst levels => levels.toNat
  | .cwr _ v => v
  | .pchk now => now
  | .abeg => 0
  | .rchk _ => 0
  | .rlvl _ => 0
  | .rprm _ => 0
  | .aend => 0
  | .lhi _ => 0
  | .llo _ => 0
  | .edge _ => 0
  | .tbeg => 0
  | .voice _ => 0
  | .tend => 0
  | .submit => 0

/-- The word of an operation (R91 to R96). -/
def encode (i : Instr) : OpWord := packWord i.opcode i.idxField i.dataField

/-- A row of the opcode table: the fixed bits of an operation's words (R96). -/
structure TableRow where
  fixed : OpWord
  mask  : OpWord
  deriving DecidableEq, Repr

/-- `match` and `mask` of an operation's row, as R96 prints them. -/
def Instr.row : Instr → TableRow
  | .rst _ => { fixed := 0x0000000000, mask := 0xFF00000000 }
  | .cwr _ _ => { fixed := 0x1000000000, mask := 0xF000000000 }
  | .pchk _ => { fixed := 0x2000000000, mask := 0xFF00000000 }
  | .abeg => { fixed := 0x3000000000, mask := 0xFFFFFFFFFF }
  | .rchk _ => { fixed := 0x4000000000, mask := 0xF0FFFFFFFF }
  | .rlvl _ => { fixed := 0x5000000000, mask := 0xF0FFFFFFFF }
  | .rprm _ => { fixed := 0x6000000000, mask := 0xF0FFFFFFFF }
  | .aend => { fixed := 0x7000000000, mask := 0xFFFFFFFFFF }
  | .lhi _ => { fixed := 0x8000000000, mask := 0xF0FFFFFFFF }
  | .llo _ => { fixed := 0x9000000000, mask := 0xF0FFFFFFFF }
  | .edge _ => { fixed := 0xA000000000, mask := 0xF0FFFFFFFF }
  | .tbeg => { fixed := 0xB000000000, mask := 0xFFFFFFFFFF }
  | .voice _ => { fixed := 0xC000000000, mask := 0xF0FFFFFFFF }
  | .tend => { fixed := 0xD000000000, mask := 0xFFFFFFFFFF }
  | .submit => { fixed := 0xE000000000, mask := 0xFFFFFFFFFF }

/-- The operation that the decoder reads from a word of the opcode table, under the configuration of `State.reset`. The
block has one word length, 40 bits (R90); bits from `nbits` on are 0. -/
def decodeTableWord (nbits w : Nat) : Option Instr :=
  match decode Config.default (BitVec.ofNat 40 (w % 2 ^ nbits)) with
  | .ok i => some i
  | .error _ => none

end Sys2Proof
end

