-- ==== Sys2Proof/Machine/Num.lean ====
section
/-!
DEFINITION. The numbers of the machine under its number format `NUM` (00_scope.md R11): how a real is held, and the
questions that the machine asks about reals.

Where no open real occurs, every question about reals is decided by computation on rationals; where one occurs it is what
`Config.openReals` answers (notes/assumptions/20).
-/
namespace Sys2Proof

/-! ### Questions about reals -/

/-- `angle > 2π` (R124). -/
def Angle.exceedsTurn (a : Angle) : Bool :=
  match a.opens with
  | [] => decide (1 < a.turn)
  | _ :: _ => Config.openReals.exceedsTurn a

/-- `sgn (sin angle)`, with `sign0` at a zero of the sine (R126). -/
def Angle.sgnSine (sign0 : ℚ) (a : Angle) : ℚ :=
  match a.opens with
  | [] => Sys2Proof.sgnSine sign0 a.turn
  | _ :: _ => Config.openReals.sgnSine sign0 a

/-- `toI16 (wave * gain)` (R146). -/
def Wave.toI16 (w : Wave) (gain : RealParam) : ℤ :=
  let r := w.scale gain.scale
  match gain.name, r.opens with
  | none, [] => r.amp.toI16
  | n, _ => Config.openReals.sample n r

/-! ### How a real is held -/

/-- The angle that a datum holds; a format's code is none. -/
def Datum.toAngle : Datum Angle → Angle
  | .real a => a
  | .code _ => Angle.ofTurn 0

/-- The wave that a datum holds; a format's code is none. -/
def Datum.toWave : Datum Wave → Wave
  | .real w => w
  | .code _ => Wave.zero

/-- The code of a datum in a physical format. -/
def Datum.angleCode (o : FormatOps) : Datum Angle → Nat
  | .real a => o.ofReal (.angle a)
  | .code c => c

/-- The code of a datum in a physical format. -/
def Datum.waveCode (o : FormatOps) : Datum Wave → Nat
  | .real w => o.ofReal (.wave w)
  | .code c => c

/-- A datum is of the machine's number format: exact in the reals, a code in a physical format. -/
def Datum.fits {α : Type} (f : NumFormat) (d : Datum α) : Bool :=
  match f, d with
  | .reals, .real _ => true
  | .reals, .code _ => false
  | .format _, .real _ => false
  | .format _, .code _ => true

namespace NumFormat

/-- How the format holds an angle. -/
def ofAngle (f : NumFormat) (a : Angle) : Datum Angle :=
  match f with
  | .reals => .real a
  | .format k => .code ((Config.formatOps k).ofReal (.angle a))

/-- How the format holds a wave. -/
def ofWave (f : NumFormat) (w : Wave) : Datum Wave :=
  match f with
  | .reals => .real w
  | .format k => .code ((Config.formatOps k).ofReal (.wave w))

end NumFormat

/-- `ofReal` of a rational. -/
def FormatOps.ofRat (o : FormatOps) (q : ℚ) : Nat := o.ofReal (.param (RealParam.rat q))

/-- `ofReal` of `2π`. -/
def FormatOps.twoPi (o : FormatOps) : Nat := o.ofReal (.angle (Angle.ofTurn 1))

/-- `STEP[n]` as RST computes it (R121): `2π * FREQ[n] / FS` in the number format. -/
def Config.stepValue (c : Config) (n : Nat) : Datum Angle := c.NUM.ofAngle (c.stepAngle n)

end Sys2Proof
end

