-- ==== Sys2Proof/Machine/State.lean ====
section
/-!
DEFINITION. The state of FJS-CORE (10_state.md R20 to R45, R52), the reasons a step can stop, and the state after reset (R53).

Fields in capitals carry the spec's names. Numbers of the value domain are exact data or codes of the
number format (Word.lean). Three fields are not
among R20's: `cfg` (the machine's configuration, notes/assumptions/1), `trace` (the observer's output trace, R52) and `input`
(the operation words presented to the block and not yet taken, notes/assumptions/4).
-/
namespace Sys2Proof.Machine

/-- `PPH`, the production phase (R40). -/
inductive ProdPhase where
  | begin
  | voices
  | finish
  deriving DecidableEq, Repr

/-- `CPH`, the control phase (R43). -/
inductive CtrlPhase where
  | idle
  | chk
  | lvl
  | prm
  | finish
  deriving DecidableEq, Repr

/-- An entry of the output trace (R52). The `DispSetPixel` events of one redraw happen "once each, in any order" (R169): they
are one entry that lists the pixels, and an entry says nothing about their order (notes/assumptions/6). -/
inductive Event where
  /-- `SinkSubmit(bytes)`, emitted by SUBMIT. -/
  | sinkSubmit (bytes : List Byte)
  /-- `DispClear`, emitted by AEND. -/
  | dispClear
  /-- one `DispSetPixel(column, row)` for each listed pixel, in no stated order, emitted by AEND. -/
  | dispSetPixels (pixels : List (Nat × Nat))
  /-- `DispCommit`, emitted by AEND. -/
  | dispCommit
  deriving DecidableEq, Repr

/-- The state of the machine (R20): plain data. -/
structure State where
  /-- the configuration record of this machine (00_scope.md R8); no operation writes it -/
  cfg   : Config
  /-- `STEP[n]`, an angle per output sample (R23) -/
  STEP  : List (Datum Angle)
  /-- `PHASE[n]`, an angle (R24) -/
  PHASE : List (Datum Angle)
  /-- `GRID[c][n]` (R25) -/
  GRID  : List (List Bool)
  /-- the current column, CR4 (R26) -/
  COL   : Nat
  /-- `PEND[n]`, the pending-press flags (R27) -/
  PEND  : List Bool
  /-- `IRQ[n]`, the edge detector's latches (R41) -/
  IRQ   : List Bool
  /-- `LINE[n]`, the levels of the input lines (R45) -/
  LINE  : List Bool
  /-- CR0 (R31); `none` is the spec's marker ⊥, unwritten (R37) -/
  VOL   : Option ℚ
  /-- CR1, milliseconds (R32); `none` is ⊥ -/
  BEAT  : Option Nat
  /-- CR2 (R33); `none` is ⊥ -/
  SQMIX : Option ℚ
  /-- CR3 (R33); `none` is ⊥ -/
  PMULT : Option ℚ
  /-- CR5, the time of the last beat trigger (R35) -/
  LAST  : Nat
  /-- CR6, the outcome of the last beat test (R28) -/
  DUE   : Bool
  /-- `BUF[i]`, the output sample buffer (R38) -/
  BUF   : List Int
  /-- the tick index (R39) -/
  T     : Nat
  /-- the production phase (R40) -/
  PPH   : ProdPhase
  /-- the production voice index (R40) -/
  PV    : Nat
  /-- the column latch (R42) -/
  CLAT  : Nat
  /-- the running sum of the tick (R42) -/
  SUM   : Datum Wave
  /-- the number of active notes of the tick (R42) -/
  CNT   : Nat
  /-- the control phase (R43) -/
  CPH   : CtrlPhase
  /-- the control note index (R43) -/
  CN    : Nat
  /-- whether RCHK consumed a flag (R44) -/
  HIT   : Bool
  /-- the latched line level (R44) -/
  LLAT  : Bool
  /-- the output trace, oldest event first (R52) -/
  trace : List Event
  /-- the operation words presented and not yet taken, next one first -/
  input : List OpWord
  deriving DecidableEq, Repr

/-- Why a well-formed operation has no step in the present state: the *stuck* outcome of 30_encoding.md R103 ("a well-formed word
that is merely not yet enabled"). The hardware raises nothing (R200, R203): a fault here is the model's word for "no step", the
state is left as it was, and each of these is safe. -/
inductive Fault where
  /-- CWR, PCHK, ABEG inside an advance: `CPH` is not `IDLE` (R107). Safe. -/
  | advanceInProgress
  /-- CWR, PCHK with `DUE = true`: only ABEG is enabled (R107). Safe. -/
  | beatDue
  /-- RCHK, RLVL, RPRM, AEND where `CPH` and `CN` do not stand at them (R107). Safe. -/
  | notNextInAdvance
  /-- TBEG, VOICE, TEND, SUBMIT where `PPH` and `PV` do not stand at them (R108). Safe. -/
  | notNextInTick
  /-- TBEG with `T = B`: only SUBMIT is enabled (R108, R141). Safe. -/
  | bufferFull
  /-- SUBMIT with `T < B` (R108, R148). Safe. -/
  | bufferNotFull
  /-- PCHK, VOICE of an active note, TEND where the control parameter they read is ⊥ (R37). Safe. -/
  | unwritten (p : CtrlReg)
  /-- EDGE with `IRQ[n] = false` (R109). Safe. -/
  | noRequest
  deriving DecidableEq, Repr

/-- Why the model gives a step no meaning. Each is safe. -/
inductive Refusal where
  /-- An instruction whose meaning is not written yet, by mnemonic. Raised by no arm of `exec`. Safe. -/
  | notModelled (mnemonic : String)
  /-- `step` met a reserved operation word (30_encoding.md R100, R101, R103). Safe. -/
  | reservedWord (why : Reserved)
  /-- `step` of a machine whose configuration is not well-formed (00_scope.md R10). Safe. -/
  | illFormedConfig
  /-- `step` with no operation word presented: no context performs an operation. Safe. -/
  | noWord
  deriving DecidableEq, Repr

/-- The fields after reset under a configuration and line levels (R53, 70_reset_and_hazards.md R230), the trace and the input
empty. -/
def State.initial (c : Config) (levels : BitVec 32) : State where
  cfg := c
  STEP := (List.range c.N).map c.stepValue
  PHASE := List.replicate c.N (c.NUM.ofAngle (Angle.ofTurn 0))
  GRID := List.replicate c.COLUMNS (List.replicate c.N false)
  COL := 0
  PEND := List.replicate c.N false
  IRQ := List.replicate c.N false
  LINE := (List.range c.N).map fun n => levels.getLsbD n
  VOL := none
  BEAT := none
  SQMIX := none
  PMULT := none
  LAST := 0
  DUE := false
  BUF := List.replicate (2 * c.B) 0
  T := 0
  PPH := .begin
  PV := 0
  CLAT := 0
  SUM := c.NUM.ofWave Wave.zero
  CNT := 0
  CPH := .idle
  CN := 0
  HIT := false
  LLAT := false
  trace := []
  input := []

/-- The machine right after reset (R53), every line low, under the configuration `Config.default`. -/
def State.reset : State := State.initial Config.default 0

end Sys2Proof.Machine
end

