-- ==== Sys2Proof/Machine/Ops.lean ====
section
/-!
DEFINITION. The named operations over the storage spaces of FJS-CORE (20_memory.md R60): one read and one write per space, the
sequencing moves shared by several operations, the edge interrupt, and the output trace.

There is no byte-addressed memory (R60) and no synchronous exception (60_exceptions.md R200); what other machines do by
taking an exception is here the edge interrupt: `requestEdge` and `serveEdge` (R207 to R210).
-/
namespace Sys2Proof.Machine.State

/-! ### FLAG space -/

/-- A read of one Boolean of the FLAG space (R60). -/
def flagAt (fs : List Bool) (n : Nat) : Bool := fs.getD n false

/-- `PEND[n]` (R27). -/
def pendAt (s : State) (n : Nat) : Bool := flagAt s.PEND n

/-- `IRQ[n]` (R41). -/
def irqAt (s : State) (n : Nat) : Bool := flagAt s.IRQ n

/-- `LINE[n]` (R45). -/
def lineAt (s : State) (n : Nat) : Bool := flagAt s.LINE n

/-- `PEND[n] <- v`. -/
def setPend (s : State) (n : Nat) (v : Bool) : State := { s with PEND := s.PEND.set n v }

/-- `IRQ[n] <- v`. -/
def setIrq (s : State) (n : Nat) (v : Bool) : State := { s with IRQ := s.IRQ.set n v }

/-- `LINE[n] <- v`. -/
def setLine (s : State) (n : Nat) (v : Bool) : State := { s with LINE := s.LINE.set n v }

/-! ### GRID space -/

/-- `GRID[c][n]` (R25). -/
def cell (s : State) (c n : Nat) : Bool := flagAt (s.GRID.getD c []) n

/-- `GRID[c][n] <- v`. -/
def setCell (s : State) (c n : Nat) (v : Bool) : State :=
  { s with GRID := s.GRID.set c ((s.GRID.getD c []).set n v) }

/-! ### NOTE space -/

/-- `STEP[n]` (R23). -/
def stepAt (s : State) (n : Nat) : Datum Angle := s.STEP.getD n (s.cfg.NUM.ofAngle (Angle.ofTurn 0))

/-- `PHASE[n]` (R24). -/
def phaseAt (s : State) (n : Nat) : Datum Angle := s.PHASE.getD n (s.cfg.NUM.ofAngle (Angle.ofTurn 0))

/-- `PHASE[n] <- p`. -/
def setPhase (s : State) (n : Nat) (p : Datum Angle) : State := { s with PHASE := s.PHASE.set n p }

/-! ### BUF space -/

/-- `BUF[i]` (R38). -/
def bufAt (s : State) (i : Nat) : Int := s.BUF.getD i 0

/-- `BUF[2*T] <- y ; BUF[2*T + 1] <- y` (R154): the identical value on both channels. -/
def setPair (s : State) (y : Int) : State := { s with BUF := (s.BUF.set (2 * s.T) y).set (2 * s.T + 1) y }

/-! ### The sequencing fields -/

/-- The voice index moves on, or the tick is ready to end: `if n = N-1 then PPH <- END else PV <- n + 1` (R130). -/
def afterVoice (s : State) (n : Nat) : State :=
  if n + 1 = s.cfg.N then { s with PPH := .finish } else { s with PV := n + 1 }

/-- The control index moves on, or the advance is ready to end:
`if n = N-1 then CPH <- END else (CPH <- CHK ; CN <- n + 1)` (R168). -/
def afterPrime (s : State) (n : Nat) : State :=
  if n + 1 = s.cfg.N then { s with CPH := .finish } else { s with CPH := .chk, CN := n + 1 }

/-! ### The edge interrupt -/

/-- Source `n` requests the edge handler: its latch is set; nothing is saved, masked or transferred (R207, R209). -/
def requestEdge (s : State) (n : Nat) : State := s.setIrq n true

/-- The edge handler serves source `n`, entry, body and return in one atomic step: the flag is set and the latch cleared; there
is nothing to restore (R186, R209, R210). -/
def serveEdge (s : State) (n : Nat) : State := (s.setPend n true).setIrq n false

/-! ### The output trace -/

/-- `Emit` of several events, in order (R14, R52). -/
def emit (s : State) (es : List Event) : State := { s with trace := s.trace ++ es }

end Sys2Proof.Machine.State
end

