-- ==== Sys2Proof/Machine/Operands.lean ====
section
/-!
DEFINITION. Operand forms: what the `data` field of an operation denotes (30_encoding.md R94, R95; 43_edge_control.md R191), and
how samples become bytes (20_memory.md R63, R64).
-/
namespace Sys2Proof.Machine

/-- `code / 65536`, exactly: the value of VOL and SQMIX (R191). -/
def codeFraction (code : Nat) : ℚ := (code : ℚ) / 65536

/-- `1 + code / 65536`, exactly: the value of PMULT (R191). -/
def codeMultiplier (code : Nat) : ℚ := 1 + (code : ℚ) / 65536

/-- `CR[p] <- value` with the value decoded from the operand of CWR (R190, R191). -/
def State.writeCtrl (s : State) (p : CtrlReg) (v : Nat) : State :=
  match p with
  | .vol => { s with VOL := some (codeFraction v) }
  | .beat => { s with BEAT := some v }
  | .sqmix => { s with SQMIX := some (codeFraction v) }
  | .pmult => { s with PMULT := some (codeMultiplier v) }

/-- `levels[n] = data[n]`: the level of line `n` at reset (R94, R230). -/
def levelAt (levels : BitVec 32) (n : Nat) : Bool := levels.getLsbD n

/-- `le16(y)`: the two bytes of the 16-bit two's-complement form of `y`, low byte first (R64). -/
def le16 (y : Int) : List Byte :=
  let u := (if 0 ≤ y then y else y + 65536).toNat
  [BitVec.ofNat 8 (u % 256), BitVec.ofNat 8 (u / 256)]

/-- The bytes of a buffer, in buffer order (R63). -/
def sinkBytes (buf : List Int) : List Byte := buf.flatMap le16

end Sys2Proof.Machine
end

