-- ==== Sys2Proof/Machine/Flags.lean ====
section
/-!
DEFINITION. The flag computations of FJS-CORE (10_state.md R27 to R29): the beat test that decides DUE, and the writes of the
pending-press flags by the control loop. There are no other flags (R29).
-/
namespace Sys2Proof.Machine

/-- `due(now, LAST, BEAT) = (now < LAST) or (now - LAST >= BEAT)` (42_sequencer.md R161). -/
def isDue (now last beat : Nat) : Bool := decide (now < last) || decide (beat ≤ now - last)

/-- RCHK's part of the flags and the grid: a set flag toggles the note's cell of the current column and is cleared (R166). -/
def State.consume (s : State) (n : Nat) : State :=
  if s.pendAt n then (s.setCell s.COL n (!s.cell s.COL n)).setPend n false else s

/-- Whether RPRM writes the flag: `REPRIME = ALL or HIT` (R168). -/
def State.primes (s : State) : Bool := decide (s.cfg.REPRIME = .all) || s.HIT

/-- RPRM's part of the flags: `if REPRIME = ALL or HIT then PEND[n] <- LLAT` (R168). -/
def State.reprime (s : State) (n : Nat) : State := if s.primes then s.setPend n s.LLAT else s

end Sys2Proof.Machine
end

