-- ==== Sys2Proof/Machine/EdgeControl.lean ====
section
/-!
DEFINITION. The input lines, the edge handler and the control parameter writes: LHI, LLO, EDGE, CWR (43_edge_control.md).
-/
namespace Sys2Proof.Machine

/-- `LHI n` (R182): always enabled. A rising transition requests the edge handler. -/
def execLhi (n : Nat) (s : State) : Host.Outcome State Fault Refusal :=
  .next ((if s.lineAt n then s else s.requestEdge n).setLine n true)

/-- `LLO n` (R183): always enabled. -/
def execLlo (n : Nat) (s : State) : Host.Outcome State Fault Refusal := .next (s.setLine n false)

/-- `EDGE n` (R186): enabled when `IRQ[n] = true` (R109). -/
def execEdge (n : Nat) (s : State) : Host.Outcome State Fault Refusal :=
  if s.irqAt n then .next (s.serveEdge n) else .fault .noRequest

/-- `CWR p, value` (R190): enabled when `CPH = IDLE` and `DUE = false` (R107). -/
def execCwr (p : CtrlReg) (v : Nat) (s : State) : Host.Outcome State Fault Refusal :=
  if s.CPH ≠ .idle then .fault .advanceInProgress
  else if s.DUE then .fault .beatDue
  else .next (s.writeCtrl p v)

end Sys2Proof.Machine
end

