-- ==== Sys2Proof/Machine/Mixer.lean ====
section
/-!
DEFINITION. The sample mixer: TBEG, TEND, SUBMIT (41_mixer.md).
-/
namespace Sys2Proof.Machine

/-- `TBEG` (R141): enabled when `PPH = BEGIN` and `T < B`. -/
def execTbeg (s : State) : Host.Outcome State Fault Refusal :=
  if s.PPH ≠ .begin then .fault .notNextInTick
  else if s.T < s.cfg.B then .next { s with CLAT := s.COL, SUM := s.cfg.NUM.ofWave Wave.zero, CNT := 0, PPH := .voices, PV := 0 }
  else .fault .bufferFull

/-- `mixed = SUM / CNT` if `CNT > 1`, else `SUM` (R144), over the reals. -/
def mixedWave (sum : Wave) (cnt : Nat) : Wave := if 1 < cnt then Wave.scale (1 / (cnt : ℚ)) sum else sum

/-- The sample `toI16(mixed * (HEADROOM * VOL))` (R144 to R147) in a physical number format; the gain is formed first. -/
def sampleCode (o : FormatOps) (headroom v sum cnt : Nat) : Int :=
  let mixed := if 1 < cnt then o.divNat sum cnt else sum
  (o.toI16 (o.mul mixed (o.mul headroom v))).toInt

/-- `toI16(mixed * (HEADROOM * v))` (R144 to R147) in the machine's number format. -/
def State.sample (s : State) (v : ℚ) : Int :=
  match s.cfg.NUM with
  | .reals => (mixedWave s.SUM.toWave s.CNT).toI16 (s.cfg.HEADROOM.times v)
  | .format k =>
    let o := Config.formatOps k
    sampleCode o (o.ofReal (.param s.cfg.HEADROOM)) (o.ofRat v) (s.SUM.waveCode o) s.CNT

/-- `TEND` (R145): enabled when `PPH = END` and VOL is written. -/
def execTend (s : State) : Host.Outcome State Fault Refusal :=
  if s.PPH ≠ .finish then .fault .notNextInTick
  else
    match s.VOL with
    | none => .fault (.unwritten .vol)
    | some v => .next { s.setPair (s.sample v) with T := s.T + 1, PPH := .begin }

/-- `SUBMIT` (R148): enabled when `PPH = BEGIN` and `T = B`. The sink's readiness is not state of the block: the word is presented
when the sink has room (notes/assumptions/5). The accepted count is ignored. -/
def execSubmit (s : State) : Host.Outcome State Fault Refusal :=
  if s.PPH ≠ .begin then .fault .notNextInTick
  else if s.T = s.cfg.B then .next { s.emit [.sinkSubmit (sinkBytes s.BUF)] with T := 0 }
  else .fault .bufferNotFull

end Sys2Proof.Machine
end

