-- ==== Sys2Proof/Machine/Oscillator.lean ====
section
/-!
DEFINITION. The oscillator bank: the function OSC and the operation VOICE (40_oscillator.md).
-/
namespace Sys2Proof.Machine

/-- Advance and wrap (R123, R124) over the reals: `p1 = PHASE + STEP * PMULT`, then `p1 - 2π` if `p1 > 2π`. -/
def advanceAngle (phase step : Angle) (pm : ℚ) : Angle :=
  let p1 := phase.add (step.scale pm)
  if p1.exceedsTurn then p1.subTurn else p1

/-- Advance and wrap (R123, R124) in a physical number format. -/
def advanceCode (o : FormatOps) (phase step pm : Nat) : Nat :=
  let p1 := o.add phase (o.mul step pm)
  if o.gt p1 o.twoPi then o.sub p1 o.twoPi else p1

/-- Advance and wrap (R123, R124) in the machine's number format. -/
def advancePhase (f : NumFormat) (phase step : Datum Angle) (pm : ℚ) : Datum Angle :=
  match f with
  | .reals => .real (advanceAngle phase.toAngle step.toAngle pm)
  | .format k =>
    let o := Config.formatOps k
    .code (advanceCode o (phase.angleCode o) (step.angleCode o) (o.ofRat pm))

/-- `shaped = sgn(sin φ) * q + sin φ * (1 - q)` (R126) over the reals. -/
def shapedWave (sign0 : SignZero) (φ : Angle) (q : ℚ) : Wave :=
  (Wave.ofRat (φ.sgnSine sign0.value * q)).add (Wave.scale (1 - q) (Wave.sine φ))

/-- `shaped = sgn(sin φ) * q + sin φ * (1 - q)` (R126) in a physical number format. -/
def shapedCode (o : FormatOps) (sign0 : SignZero) (φ q : Nat) : Nat :=
  let s := o.sin φ
  o.add (o.mul (o.sign sign0 s) q) (o.mul s (o.sub (o.ofRat 1) q))

/-- `SUM + shaped` (R126, R130) in the machine's number format. -/
def addShaped (f : NumFormat) (sum : Datum Wave) (sign0 : SignZero) (φ : Datum Angle) (q : ℚ) : Datum Wave :=
  match f with
  | .reals => .real (sum.toWave.add (shapedWave sign0 φ.toAngle q))
  | .format k =>
    let o := Config.formatOps k
    .code (o.add (sum.waveCode o) (shapedCode o sign0 (φ.angleCode o) (o.ofRat q)))

/-- `OSC(n)` and the accumulation around it (R129, R130): the phase is advanced, wrapped and stored, and the sample rendered
from the stored phase is added to SUM. -/
def State.renderVoice (s : State) (n : Nat) (pm q : ℚ) : State :=
  let p2 := advancePhase s.cfg.NUM (s.phaseAt n) (s.stepAt n) pm
  { s.setPhase n p2 with SUM := addShaped s.cfg.NUM s.SUM s.cfg.SIGN0 p2 q, CNT := s.CNT + 1 }

/-- `VOICE n` (R130): enabled when `PPH = VOICES` and `PV = n` and, if the note is active, PMULT and SQMIX are written. A silent
note's phase, SUM and CNT stay (R128). -/
def execVoice (n : Nat) (s : State) : Host.Outcome State Fault Refusal :=
  if s.PPH = .voices ∧ s.PV = n then
    if s.cell s.CLAT n then
      match s.PMULT with
      | none => .fault (.unwritten .pmult)
      | some pm =>
        match s.SQMIX with
        | none => .fault (.unwritten .sqmix)
        | some q => .next ((s.renderVoice n pm q).afterVoice n)
    else .next (s.afterVoice n)
  else .fault .notNextInTick

end Sys2Proof.Machine
end

