-- ==== Sys2Proof/Machine/Reset.lean ====
section
/-!
DEFINITION. Reset: the operation RST (70_reset_and_hazards.md R230).
-/
namespace Sys2Proof.Machine

/-- `RST levels` (R230): always enabled, in any state. Every field takes its reset value; the configuration is not state, the
output trace keeps its events (R52), and words presented to the block and not yet taken stay presented. -/
def execRst (levels : BitVec 32) (s : State) : Host.Outcome State Fault Refusal :=
  .next
    { s with
      STEP := (List.range s.cfg.N).map s.cfg.stepValue
      PHASE := List.replicate s.cfg.N (s.cfg.NUM.ofAngle (Angle.ofTurn 0))
      PEND := List.replicate s.cfg.N false
      IRQ := List.replicate s.cfg.N false
      LINE := (List.range s.cfg.N).map (levelAt levels)
      GRID := List.replicate s.cfg.COLUMNS (List.replicate s.cfg.N false)
      COL := 0
      LAST := 0
      DUE := false
      VOL := none
      BEAT := none
      SQMIX := none
      PMULT := none
      BUF := List.replicate (2 * s.cfg.B) 0
      T := 0
      PPH := .begin
      PV := 0
      CLAT := 0
      SUM := s.cfg.NUM.ofWave Wave.zero
      CNT := 0
      CPH := .idle
      CN := 0
      HIT := false
      LLAT := false }

end Sys2Proof.Machine
end

