-- ==== Sys2Proof/Machine/Sequencer.lean ====
section
/-!
DEFINITION. The sequencer state machine: PCHK, ABEG, RCHK, RLVL, RPRM, AEND (42_sequencer.md).
-/
namespace Sys2Proof.Machine

/-- `PCHK now` (R162): enabled when `CPH = IDLE`, `DUE = false` and `BEAT` is written. -/
def execPchk (now : Nat) (s : State) : Host.Outcome State Fault Refusal :=
  if s.CPH ≠ .idle then .fault .advanceInProgress
  else if s.DUE then .fault .beatDue
  else
    match s.BEAT with
    | none => .fault (.unwritten .beat)
    | some beat =>
      if isDue now s.LAST beat then .next { s with DUE := true, LAST := now } else .next { s with DUE := false }

/-- `ABEG` (R164): enabled when `CPH = IDLE`, whatever `DUE` is. -/
def execAbeg (s : State) : Host.Outcome State Fault Refusal :=
  if s.CPH ≠ .idle then .fault .advanceInProgress
  else .next { s with COL := (s.COL + 1) % s.cfg.COLUMNS, DUE := false, CPH := .chk, CN := 0 }

/-- `RCHK n` (R166): enabled when `CPH = CHK` and `CN = n`. -/
def execRchk (n : Nat) (s : State) : Host.Outcome State Fault Refusal :=
  if s.CPH = .chk ∧ s.CN = n then .next { s.consume n with HIT := s.pendAt n, CPH := .lvl }
  else .fault .notNextInAdvance

/-- `RLVL n` (R167): enabled when `CPH = LVL` and `CN = n`. -/
def execRlvl (n : Nat) (s : State) : Host.Outcome State Fault Refusal :=
  if s.CPH = .lvl ∧ s.CN = n then .next { s with LLAT := s.lineAt n, CPH := .prm }
  else .fault .notNextInAdvance

/-- `RPRM n` (R168): enabled when `CPH = PRM` and `CN = n`. -/
def execRprm (n : Nat) (s : State) : Host.Outcome State Fault Refusal :=
  if s.CPH = .prm ∧ s.CN = n then .next ((s.reprime n).afterPrime n)
  else .fault .notNextInAdvance

/-- `(c, r)` is a pixel of the redraw: a cell that is set, or a highlight row of the current column (R169). -/
def State.pixelLit (s : State) (c r : Nat) : Bool :=
  s.cell c r || (decide (c = s.COL) && decide (r ∈ s.cfg.highlight s.COL))

/-- The pixels of the redraw, each once, listed by column and row (R169). -/
def State.pixels (s : State) : List (Nat × Nat) :=
  (List.range s.cfg.COLUMNS).flatMap fun c => ((List.range s.cfg.N).filter (s.pixelLit c)).map fun r => (c, r)

/-- `AEND` (R169): enabled when `CPH = END`. -/
def execAend (s : State) : Host.Outcome State Fault Refusal :=
  if s.CPH = .finish then .next { s.emit [.dispClear, .dispSetPixels s.pixels, .dispCommit] with CPH := .idle }
  else .fault .notNextInAdvance

end Sys2Proof.Machine
end

