-- ==== Sys2Proof/Machine/Dispatch.lean ====
section
/-! DEFINITION. exec: one arm per operation of 30_encoding.md R96. -/

namespace Sys2Proof.Machine

def exec (i : Instr) (s : State) : Host.Outcome State Fault Refusal :=
  match i with
  | .rst levels => Sys2Proof.Machine.execRst levels s
  | .cwr p v => Sys2Proof.Machine.execCwr p v s
  | .pchk now => Sys2Proof.Machine.execPchk now s
  | .abeg => Sys2Proof.Machine.execAbeg s
  | .rchk n => Sys2Proof.Machine.execRchk n s
  | .rlvl n => Sys2Proof.Machine.execRlvl n s
  | .rprm n => Sys2Proof.Machine.execRprm n s
  | .aend => Sys2Proof.Machine.execAend s
  | .lhi n => Sys2Proof.Machine.execLhi n s
  | .llo n => Sys2Proof.Machine.execLlo n s
  | .edge n => Sys2Proof.Machine.execEdge n s
  | .tbeg => Sys2Proof.Machine.execTbeg s
  | .voice n => Sys2Proof.Machine.execVoice n s
  | .tend => Sys2Proof.Machine.execTend s
  | .submit => Sys2Proof.Machine.execSubmit s

end Sys2Proof.Machine
end

