-- ==== Sys2Proof/Machine/Step.lean ====
section
/-!
DEFINITION. One step of the machine (20_memory.md R71): the next presented operation word is decoded and performed as one atomic
step. There is no program counter and no fetch (10_state.md R46): the words come from the contexts, outside the block, already
interleaved in the order of the execution.
-/
namespace Sys2Proof.Machine

/-- One step: a configuration that is not well-formed has no meaning (00_scope.md R10); a reserved word has no step (R103). -/
def step (s : State) : Host.Outcome State Fault Refusal :=
  if s.cfg.wf then
    match s.input with
    | [] => .refused .noWord
    | w :: rest =>
      match decode s.cfg w with
      | .error why => .refused (.reservedWord why)
      | .ok i => exec i { s with input := rest }
  else .refused .illFormedConfig

/-- Presents a word of the opcode table as the next operation word (R90: one length, 40 bits; bits from `nbits` on are 0). -/
def State.withFetchWord (s : State) (nbits w : Nat) : State :=
  { s with input := BitVec.ofNat 40 (w % 2 ^ nbits) :: s.input }

end Sys2Proof.Machine
end

