-- ==== Sys2Proof/Machine/Pseudo.lean ====
section
/-!
DEFINITION. The eight pseudo-operations of 30_encoding.md R106 and the running of a sequence of operations.

A pseudo-operation is FJS's name for a contract; it expands to operations issued by one context in order. What is defined
here is the uninterrupted run; an interleaving with other contexts is a longer list of operations (20_memory.md R72).
-/
namespace Sys2Proof.Machine

/-- Performs operations one after another, stopping at the first that has no step (R71, R72). -/
def runOps : List Instr → State → Host.Outcome State Fault Refusal
  | [], s => .next s
  | i :: is, s =>
    match exec i s with
    | .next s' => runOps is s'
    | .fault r => .fault r
    | .refused r => .refused r

/-- The pseudo-operations (R106). The operands of CTRL are the four values in FJS's order. -/
inductive Pseudo where
  | tick
  | fill
  | cycle
  | adv
  | poll (now : Nat)
  | ctrl (v b s m : Nat)
  | press (n : Nat)
  | tap (n : Nat)
  deriving DecidableEq, Repr

/-- `TBEG; VOICE 0; ...; VOICE N-1; TEND`. -/
def tickOps (c : Config) : List Instr := .tbeg :: ((List.range c.N).map Instr.voice ++ [.tend])

/-- `TICK` repeated `k` times. -/
def ticksOps (c : Config) : Nat → List Instr
  | 0 => []
  | k + 1 => tickOps c ++ ticksOps c k

/-- `RCHK n; RLVL n; RPRM n`. -/
def reconcileOps (n : Nat) : List Instr := [.rchk n, .rlvl n, .rprm n]

/-- `ABEG; RCHK 0; RLVL 0; RPRM 0; ...; RCHK N-1; RLVL N-1; RPRM N-1; AEND`. -/
def advOps (c : Config) : List Instr := .abeg :: ((List.range c.N).flatMap reconcileOps ++ [.aend])

/-- The fixed expansion of a pseudo-operation (R106); for `POLL` its first operation, what follows depends on `DUE`. -/
def Pseudo.expand (c : Config) : Pseudo → List Instr
  | .tick => tickOps c
  | .fill => ticksOps c c.B
  | .cycle => ticksOps c c.B ++ [.submit]
  | .adv => advOps c
  | .poll now => [.pchk now]
  | .ctrl v b s m => [.cwr .vol v, .cwr .beat b, .cwr .sqmix s, .cwr .pmult m]
  | .press n => [.lhi n, .edge n]
  | .tap n => [.lhi n, .edge n, .llo n]

/-- The uninterrupted run of a pseudo-operation. `POLL now` is `PCHK now`, then `ADV` if and only if PCHK left `DUE = true`
(R106, R171). -/
def Pseudo.run (p : Pseudo) (s : State) : Host.Outcome State Fault Refusal :=
  match p with
  | .poll now =>
    match exec (.pchk now) s with
    | .next s' => if s'.DUE then runOps (advOps s'.cfg) s' else .next s'
    | .fault r => .fault r
    | .refused r => .refused r
  | p => runOps (p.expand s.cfg) s

end Sys2Proof.Machine
end

