-- ==== Sys2Proof/Safety.lean ====
section
/-!
DEFINITION. What counts as a safe run of FJS-CORE, in the terms the statements use: the invariant of 10_state.md R48, the
enabling conditions of 30_encoding.md R107 to R109, and the event sequences that an output trace admits (10_state.md R52,
20_memory.md R81).
-/
namespace Sys2Proof.Machine

/-- An event has the shape the spec gives it: a hand-over of `4B` bytes (R63), pixels of the display's space, each once (R61,
R169). -/
def Event.ok (c : Config) : Event → Bool
  | .sinkSubmit bytes => decide (bytes.length = 4 * c.B)
  | .dispClear => true
  | .dispSetPixels pixels => decide pixels.Nodup && pixels.all fun p => decide (p.1 < c.COLUMNS) && decide (p.2 < c.N)
  | .dispCommit => true

/-- The invariant of R48, clauses (a) to (g), with the sizes of the storage spaces (R60), the ranges of the control registers
(R30) and of the samples (R38), the number format of PHASE and SUM, the canonical form of SUM, and what the sequencing fields
keep. Clauses (a) and (e), the ranges of PHASE and SUM, are about real arithmetic: a physical format keeps them only under the
laws of 93_implementation_defined.md U1. -/
structure State.Inv (s : State) : Prop where
  cfg_wf      : s.cfg.wf = true
  step_eq     : s.STEP = (List.range s.cfg.N).map s.cfg.stepValue
  phase_len   : s.PHASE.length = s.cfg.N
  phase_fits  : ∀ d ∈ s.PHASE, d.fits s.cfg.NUM = true
  phase_range : s.cfg.NUM = .reals → ∀ d ∈ s.PHASE, 0 ≤ d.toAngle.turns ∧ d.toAngle.turns ≤ 1
  grid_len    : s.GRID.length = s.cfg.COLUMNS
  grid_rows   : ∀ row ∈ s.GRID, row.length = s.cfg.N
  col_lt      : s.COL < s.cfg.COLUMNS
  clat_lt     : s.CLAT < s.cfg.COLUMNS
  pend_len    : s.PEND.length = s.cfg.N
  irq_len     : s.IRQ.length = s.cfg.N
  line_len    : s.LINE.length = s.cfg.N
  vol_range   : ∀ v ∈ s.VOL, 0 ≤ v ∧ v ≤ 1
  beat_range  : ∀ b ∈ s.BEAT, b < 2 ^ s.cfg.TW
  sqmix_range : ∀ q ∈ s.SQMIX, 0 ≤ q ∧ q ≤ 1
  pmult_range : ∀ m ∈ s.PMULT, 1 ≤ m ∧ m ≤ 2
  last_lt     : s.LAST < 2 ^ s.cfg.TW
  due_idle    : s.DUE = true → s.CPH = .idle
  buf_len     : s.BUF.length = 2 * s.cfg.B
  buf_range   : ∀ y ∈ s.BUF, -32768 ≤ y ∧ y ≤ 32767
  t_le        : s.T ≤ s.cfg.B
  t_lt        : s.PPH ≠ .begin → s.T < s.cfg.B
  pv_lt       : s.PV < s.cfg.N
  cnt_le      : s.CNT ≤ s.cfg.N
  cnt_le_pv   : s.PPH = .voices → s.CNT ≤ s.PV
  cnt_zero    : s.CNT = 0 → s.SUM = s.cfg.NUM.ofWave Wave.zero
  sum_fits    : s.SUM.fits s.cfg.NUM = true
  sum_wf      : s.SUM.toWave.amp.wf = true
  sum_le      : s.cfg.NUM = .reals → |s.SUM.toWave.toReal| ≤ s.CNT
  cn_lt       : s.CN < s.cfg.N
  trace_ok    : ∀ e ∈ s.trace, e.ok s.cfg = true

/-- The enabling conditions, written from the tables of R107 (control loop), R108 (production loop) and R109 (the others). -/
def Enabled (s : State) : Instr → Prop
  | .rst _ => True
  | .cwr _ _ => s.CPH = .idle ∧ s.DUE = false
  | .pchk _ => s.CPH = .idle ∧ s.DUE = false ∧ s.BEAT ≠ none
  | .abeg => s.CPH = .idle
  | .rchk n => s.CPH = .chk ∧ s.CN = n
  | .rlvl n => s.CPH = .lvl ∧ s.CN = n
  | .rprm n => s.CPH = .prm ∧ s.CN = n
  | .aend => s.CPH = .finish
  | .lhi _ => True
  | .llo _ => True
  | .edge n => s.irqAt n = true
  | .tbeg => s.PPH = .begin ∧ s.T < s.cfg.B
  | .voice n => s.PPH = .voices ∧ s.PV = n ∧ (s.cell s.CLAT n = true → s.PMULT ≠ none ∧ s.SQMIX ≠ none)
  | .tend => s.PPH = .finish ∧ s.VOL ≠ none
  | .submit => s.PPH = .begin ∧ s.T = s.cfg.B

/-- An output event, one by one (R52). -/
inductive OutEvent where
  | sinkSubmit (bytes : List Byte)
  | dispClear
  | dispSetPixel (column row : Nat)
  | dispCommit
  deriving DecidableEq, Repr

/-- The sequences of single events that a trace stands for: the pixels of a redraw "once each, in any order" (R169), everything
else in the order of the trace (R81). -/
inductive Realises : List Event → List OutEvent → Prop where
  | nil : Realises [] []
  | sinkSubmit (bytes : List Byte) {es : List Event} {os : List OutEvent} :
      Realises es os → Realises (.sinkSubmit bytes :: es) (.sinkSubmit bytes :: os)
  | dispClear {es : List Event} {os : List OutEvent} :
      Realises es os → Realises (.dispClear :: es) (.dispClear :: os)
  | dispSetPixels (pixels order : List (Nat × Nat)) {es : List Event} {os : List OutEvent} :
      order.Perm pixels → Realises es os →
      Realises (.dispSetPixels pixels :: es) (order.map (fun p => OutEvent.dispSetPixel p.1 p.2) ++ os)
  | dispCommit {es : List Event} {os : List OutEvent} :
      Realises es os → Realises (.dispCommit :: es) (.dispCommit :: os)

/-- The stored phase after `k` calls of OSC at one multiplier (R123, R124). -/
def phaseAfter (f : NumFormat) (stp : Datum Angle) (pm : ℚ) : Nat → Datum Angle → Datum Angle
  | 0, p => p
  | k + 1, p => advancePhase f (phaseAfter f stp pm k p) stp pm

/-- The active notes of a column, ascending (R150). -/
def State.activeNotes (s : State) (c : Nat) : List Nat := (List.range s.cfg.N).filter fun n => s.cell c n

/-- `PHASE[n]` in radians (R24), where the number format is the reals. -/
noncomputable def State.phaseRad (s : State) (n : Nat) : ℝ := (s.phaseAt n).toAngle.toReal

/-- `STEP[n]` in radians per output sample (R23), where the number format is the reals. -/
noncomputable def State.stepRad (s : State) (n : Nat) : ℝ := (s.stepAt n).toAngle.toReal

/-- SUM as a real (R42), where the number format is the reals. -/
noncomputable def State.sumReal (s : State) : ℝ := s.SUM.toWave.toReal

/-- `SIGN0` as a real. -/
noncomputable def State.sign0 (s : State) : ℝ := (s.cfg.SIGN0.value : ℝ)

end Sys2Proof.Machine
end

