-- ==== Sys2Proof/Certificates/Slice0/Obligations.lean ====
section
/-!
DEFINITION. The statements about FJS-CORE for the provers, in the order of the spec's files. Each docstring names the rule it
formalises. A configuration is quantified over everywhere: it is a field of the state.
-/
open Sys2Proof Sys2Proof.Machine

/-! ### 30_encoding.md -/

/-- R99: the worked encodings, both ways, under the default configuration (`N = 8`, `TW = 32`). -/
def Obligations.WorkedWordsDecode : Prop :=
  ∀ p ∈ ([(0x0000000000, .rst 0), (0x0000000008, .rst 8), (0x1000010000, .cwr .vol 65536), (0x1000008000, .cwr .vol 32768),
      (0x11000000FA, .cwr .beat 250), (0x1200000000, .cwr .sqmix 0), (0x1300010000, .cwr .pmult 65536)] ++
    [(0x20000003E8, .pchk 1000), (0x3000000000, .abeg), (0x4300000000, .rchk 3), (0x5300000000, .rlvl 3),
      (0x6300000000, .rprm 3), (0x7000000000, .aend), (0x8300000000, .lhi 3), (0x9300000000, .llo 3)] ++
    [(0xA300000000, .edge 3), (0xB000000000, .tbeg), (0xC300000000, .voice 3), (0xD000000000, .tend),
      (0xE000000000, .submit)] : List (OpWord × Instr)),
    decode Config.default p.1 = .ok p.2 ∧ encode p.2 = p.1

/-- R98: the word of a well-formed operation decodes to it, with every operand at every value the encoding admits. -/
def Obligations.EncodedOperationDecodesBack : Prop :=
  ∀ (c : Config) (i : Instr), c.wf = true → i.wf c = true → decode c (encode i) = .ok i

/-- R98: a word that decodes has the one word of its operation, whose operands satisfy the constraints. -/
def Obligations.DecodedWordEncodesBack : Prop :=
  ∀ (c : Config) (w : OpWord) (i : Instr), decode c w = .ok i → i.wf c = true ∧ encode i = w

/-- R100, R101: the reserved words, by the bits of the word. -/
def Obligations.ReservedWordsExactly : Prop :=
  ∀ (c : Config) (w : OpWord),
    let op := w.toNat / 2 ^ 36
    let idx := w.toNat / 2 ^ 32 % 16
    let data := w.toNat % 2 ^ 32
    (∃ why, decode c w = .error why) ↔
      op = 15 ∨
      (op ∈ [3, 7, 11, 13, 14] ∧ (idx ≠ 0 ∨ data ≠ 0)) ∨
      (op ∈ [4, 5, 6, 8, 9, 10, 12] ∧ (c.N ≤ idx ∨ data ≠ 0)) ∨
      (op = 2 ∧ (idx ≠ 0 ∨ data / 2 ^ c.TW ≠ 0)) ∨
      (op = 0 ∧ (idx ≠ 0 ∨ data / 2 ^ c.N ≠ 0)) ∨
      (op = 1 ∧ (4 ≤ idx ∨ (idx = 1 ∧ data / 2 ^ c.TW ≠ 0) ∨
        (idx ∈ [0, 2, 3] ∧ (data / 2 ^ 17 ≠ 0 ∨ 65536 < data % 2 ^ 17))))

/-- R96: a word that decodes selects its operation's row of the opcode map. -/
def Obligations.DecodedWordMatchesItsRow : Prop :=
  ∀ (c : Config) (w : OpWord) (i : Instr), decode c w = .ok i → w &&& i.row.mask = i.row.fixed

/-- R71: a step takes the next presented word and performs the operation it decodes to. -/
def Obligations.StepPerformsDecodedOperation : Prop :=
  ∀ (s : State) (w : OpWord) (rest : List OpWord) (i : Instr),
    s.cfg.wf = true → s.input = w :: rest → decode s.cfg w = .ok i → step s = exec i { s with input := rest }

/-- R10, R103: an ill-formed configuration has no step, and neither has a reserved word. -/
def Obligations.ReservedWordHasNoStep : Prop :=
  (∀ s : State, s.cfg.wf = false → step s = .refused .illFormedConfig) ∧
  (∀ (s : State) (w : OpWord) (rest : List OpWord) (why : Reserved),
    s.cfg.wf = true → s.input = w :: rest → decode s.cfg w = .error why → step s = .refused (.reservedWord why))

/-- R90, R71: the word of a well-formed operation, presented, is performed as that operation. -/
def Obligations.PresentedOperationRuns : Prop :=
  ∀ (s : State) (i : Instr), s.cfg.wf = true → i.wf s.cfg = true →
    step (s.withFetchWord 40 (encode i).toNat) = exec i s

/-- R103, R107, R108, R109: an operation has a step exactly where its enabling condition holds; elsewhere it is stuck. The sink's
readiness, part of R108's condition of SUBMIT, is not state: that SUBMIT is presented says it (notes/assumptions/5). -/
def Obligations.EnabledExactly : Prop :=
  ∀ (s : State) (i : Instr),
    (Enabled s i → ∃ t, exec i s = .next t) ∧ (¬ Enabled s i → ∃ r, exec i s = .fault r)

/-- R107: while a beat is due the only control-loop operation with a step is ABEG. -/
def Obligations.DueBeatForcesAdvance : Prop :=
  ∀ s : State, s.CPH = .idle → s.DUE = true →
    (∃ t, exec .abeg s = .next t) ∧
    ∀ (i : Instr) (t : State), i.context = .cl → exec i s = .next t → i = .abeg

/-- R107: inside an advance the control-loop operation that has a step is the next one of the advance, by CPH and CN, and no
other: advances never overlap. -/
def Obligations.AdvancesNeverOverlap : Prop :=
  ∀ (s : State) (i : Instr), s.CPH ≠ .idle → i.context = .cl →
    ((∃ t, exec i s = .next t) ↔
      (s.CPH = .chk ∧ i = .rchk s.CN) ∨ (s.CPH = .lvl ∧ i = .rlvl s.CN) ∨ (s.CPH = .prm ∧ i = .rprm s.CN) ∨
      (s.CPH = .finish ∧ i = .aend))

/-- R108: the production loop has at most one operation with a step. -/
def Obligations.ProductionLoopHasOneNext : Prop :=
  ∀ (s a b : State) (i j : Instr), i.context = .pl → j.context = .pl →
    exec i s = .next a → exec j s = .next b → i = j

/-! ### 10_state.md -/

/-- R48: `State.reset` (of the model's configuration, notes/assumptions/3), and every initial state of a well-formed configuration,
meets the invariant. -/
def Obligations.InitialStateMeetsInvariant : Prop :=
  State.reset.Inv ∧ ∀ (c : Config) (levels : BitVec 32), c.wf = true → (State.initial c levels).Inv

/-- R48: every step keeps the invariant, from every state that meets it. -/
def Obligations.StepKeepsInvariant : Prop := ∀ s t : State, s.Inv → step s = .next t → t.Inv

/-- R48: every state that a run from reset reaches, for every listing of operation words and every configuration, meets the
invariant. -/
def Obligations.EveryRunMeetsInvariant : Prop :=
  ∀ (c : Config) (levels : BitVec 32) (words : List OpWord) (k : Nat) (t : State), c.wf = true →
    core.run k ({ State.initial c levels with input := words } : State) = .next t → t.Inv

/-- R47: each context writes only its own fields (the output trace is the observer's). That RST also leaves the presented words,
`t.input = s.input`, is no clause of R47 but the model's choice, notes/assumptions/8. -/
def Obligations.ContextsWriteOnlyTheirFields : Prop :=
  ∀ (i : Instr) (s t : State), exec i s = .next t →
    (i.context = .pl → t = { s with
      PHASE := t.PHASE, BUF := t.BUF, T := t.T, PPH := t.PPH, PV := t.PV, CLAT := t.CLAT, SUM := t.SUM, CNT := t.CNT,
      trace := t.trace }) ∧
    (i.context = .cl → t = { s with
      GRID := t.GRID, COL := t.COL, PEND := t.PEND, VOL := t.VOL, BEAT := t.BEAT, SQMIX := t.SQMIX, PMULT := t.PMULT,
      LAST := t.LAST, DUE := t.DUE, CPH := t.CPH, CN := t.CN, HIT := t.HIT, LLAT := t.LLAT, trace := t.trace }) ∧
    (i.context = .eh → t = { s with PEND := t.PEND, IRQ := t.IRQ }) ∧
    (i.context = .env → t = { s with IRQ := t.IRQ, LINE := t.LINE }) ∧
    (i.context = .host → t.cfg = s.cfg ∧ t.trace = s.trace ∧ t.input = s.input)

/-- R25, R166: a cell changes only where RCHK finds its note's flag set, in the current column, or at reset. -/
def Obligations.CellsChangeOnlyByReconciling : Prop :=
  ∀ (i : Instr) (s t : State) (c n : Nat), exec i s = .next t → t.cell c n ≠ s.cell c n →
    (i = .rchk n ∧ c = s.COL ∧ s.pendAt n = true) ∨ ∃ levels, i = .rst levels

/-- R24, R128, R134: a note's phase changes only at the VOICE of that note, the note being active in the latched column, or at
reset. -/
def Obligations.SilentNotesFreeze : Prop :=
  ∀ (i : Instr) (s t : State) (n : Nat), exec i s = .next t → t.phaseAt n ≠ s.phaseAt n →
    (i = .voice n ∧ s.cell s.CLAT n = true) ∨ ∃ levels, i = .rst levels

/-- R37: once written, a control parameter never returns to ⊥ except by RST. -/
def Obligations.WrittenParametersStayWritten : Prop :=
  ∀ (i : Instr) (s t : State), exec i s = .next t → (∀ levels, i ≠ .rst levels) →
    (s.VOL ≠ none → t.VOL ≠ none) ∧ (s.BEAT ≠ none → t.BEAT ≠ none) ∧
    (s.SQMIX ≠ none → t.SQMIX ≠ none) ∧ (s.PMULT ≠ none → t.PMULT ≠ none)

/-- R52, R8: a step only appends to the output trace, and never changes the configuration. -/
def Obligations.TraceOnlyGrows : Prop :=
  ∀ s t : State, step s = .next t → (∃ es, t.trace = s.trace ++ es) ∧ t.cfg = s.cfg

/-- R54: what has a step right after reset, and what has not. -/
def Obligations.OperationsAfterReset : Prop :=
  ∀ (s t : State) (levels : BitVec 32), s.cfg.wf = true → exec (.rst levels) s = .next t →
    (∃ u, exec .abeg t = .next u) ∧ (∃ u, exec .tbeg t = .next u) ∧
    (∀ p v, ∃ u, exec (.cwr p v) t = .next u) ∧
    (∀ now, exec (.pchk now) t = .fault (.unwritten .beat)) ∧
    (∀ n, exec (.edge n) t = .fault .noRequest) ∧
    (∃ u, runOps (.tbeg :: (List.range s.cfg.N).map Instr.voice) t = .next u ∧
      exec .tend u = .fault (.unwritten .vol))

/-! ### 40_oscillator.md -/

/-- R130, R123, R124, R126, R11: VOICE of an active note advances and wraps the phase and adds the sample rendered from the new
phase, in the reals and in every physical number format; nothing else changes but the sequencing fields. That a format converts PMULT
and SQMIX by `ofReal` where VOICE reads them is the model's choice, notes/assumptions/21. -/
def Obligations.VoiceOfActiveNote : Prop :=
  ∀ (s : State) (n : Nat) (pm q : ℚ), s.PPH = .voices → s.PV = n → n < s.PHASE.length → s.cell s.CLAT n = true →
    s.PMULT = some pm → s.SQMIX = some q →
    ∃ t, exec (.voice n) s = .next t ∧
      (s.cfg.NUM = .reals →
        (let p1 := s.phaseRad n + s.stepRad n * pm
         t.phaseRad n = if 2 * Real.pi < p1 then p1 - 2 * Real.pi else p1) ∧
        t.sumReal = s.sumReal + realRender s.sign0 (t.phaseRad n) q) ∧
      (∀ k, s.cfg.NUM = .format k →
        let o := Config.formatOps k
        let p1 := o.add ((s.phaseAt n).angleCode o) (o.mul ((s.stepAt n).angleCode o) (o.ofRat pm))
        let p2 := if o.gt p1 o.twoPi then o.sub p1 o.twoPi else p1
        let x := o.sin p2
        t.phaseAt n = .code p2 ∧
        t.SUM = .code (o.add (s.SUM.waveCode o)
          (o.add (o.mul (o.sign s.cfg.SIGN0 x) (o.ofRat q)) (o.mul x (o.sub (o.ofRat 1) (o.ofRat q)))))) ∧
      (∀ m, m ≠ n → t.phaseAt m = s.phaseAt m) ∧ t.PHASE.length = s.PHASE.length ∧ t.CNT = s.CNT + 1 ∧
      (n + 1 = s.cfg.N → t.PPH = .finish ∧ t.PV = s.PV) ∧ (n + 1 ≠ s.cfg.N → t.PPH = .voices ∧ t.PV = n + 1) ∧
      t = { s with PHASE := t.PHASE, SUM := t.SUM, CNT := t.CNT, PPH := t.PPH, PV := t.PV }

/-- R128, R130: VOICE of a silent note changes nothing but the sequencing fields, whatever PMULT and SQMIX hold. -/
def Obligations.VoiceOfSilentNote : Prop :=
  ∀ (s : State) (n : Nat), s.PPH = .voices → s.PV = n → s.cell s.CLAT n = false →
    exec (.voice n) s =
      .next (if n + 1 = s.cfg.N then { s with PPH := .finish } else { s with PV := n + 1 })

/-- R37, R108: VOICE of an active note has no step while PMULT or SQMIX is ⊥. -/
def Obligations.VoiceWaitsForParameters : Prop :=
  ∀ (s : State) (n : Nat), s.PPH = .voices → s.PV = n → s.cell s.CLAT n = true →
    s.PMULT = none ∨ s.SQMIX = none → ∃ p, exec (.voice n) s = .fault (.unwritten p)

/-- R131: the rendered waveform is that of an accumulator that is never wrapped, over the reals. -/
def Obligations.WrapKeepsTheWaveform : Prop :=
  (∀ sign0 φ q : ℝ, realRender sign0 (φ - 2 * Real.pi) q = realRender sign0 φ q) ∧
  ∀ (z : SignZero) (φ stp : Angle) (pms : List ℚ) (q : ℚ),
    (shapedWave z (pms.foldl (fun p pm => advanceAngle p stp pm) φ) q).toReal =
      realRender z.value (φ.toReal + stp.toReal * (pms.sum : ℚ)) q

/-- R127: the blend stays in `[-1, 1]`, and has the sign of the sine when `SIGN0 = 0` or the sine is not 0, over the reals. -/
def Obligations.BlendStaysInRange : Prop :=
  ∀ (z : SignZero) (φ : Angle) (q : ℚ), 0 ≤ q → q ≤ 1 →
    |(shapedWave z φ q).toReal| ≤ 1 ∧
    (z = .zero ∨ Real.sin φ.toReal ≠ 0 →
      SignType.sign (shapedWave z φ q).toReal = SignType.sign (Real.sin φ.toReal))

/-- R132: pure sine at mix 0, pure square at mix 1, affine in the mix between them, over the reals. -/
def Obligations.BlendEndpoints : Prop :=
  ∀ (z : SignZero) (φ : Angle) (q : ℚ),
    (shapedWave z φ 0).toReal = Real.sin φ.toReal ∧
    (shapedWave z φ 1).toReal = realSgn z.value (Real.sin φ.toReal) ∧
    (shapedWave z φ q).toReal = (1 - q) * (shapedWave z φ 0).toReal + q * (shapedWave z φ 1).toReal

/-- R133: after `k` calls the phase is the start phase plus `k` increments, less whole turns; twice the multiplier, twice the
accumulated phase. Angles in turns, over the reals. -/
def Obligations.PitchMultiplierScalesPhase : Prop :=
  ∀ (φ stp : Angle) (pm : ℚ) (k : Nat), 0 ≤ φ.turns → φ.turns ≤ 1 → 0 < stp.turns → stp.turns ≤ 1 / 4 → 1 ≤ pm → pm ≤ 2 →
    let after (m : ℚ) : ℝ := (phaseAfter .reals (.real stp) m k (.real φ)).toAngle.turns
    (0 ≤ after pm ∧ after pm ≤ 1) ∧
    (∃ j : Nat, after pm = φ.turns + k * (stp.turns * pm) - j) ∧
    (∃ j1 j2 : Nat, after 2 + j2 - φ.turns = 2 * (after 1 + j1 - φ.turns))

/-! ### 41_mixer.md -/

/-- R141: TBEG latches the column and clears the accumulators. That a physical number format's 0 is its `ofReal` of 0 is the model's
choice, notes/assumptions/21. -/
def Obligations.TickBegins : Prop :=
  ∀ s : State, s.PPH = .begin → s.T < s.cfg.B →
    ∃ t, exec .tbeg s = .next t ∧ (s.cfg.NUM = .reals → t.sumReal = 0) ∧
      (∀ k, s.cfg.NUM = .format k → t.SUM = .code ((Config.formatOps k).ofRat 0)) ∧
      t = { s with CLAT := s.COL, SUM := t.SUM, CNT := 0, PPH := .voices, PV := 0 }

/-- R145, R144, R146, R147: TEND averages, scales, converts and writes the identical sample on both channels, in the reals and, in
the order of R147, in every physical number format. That a format converts HEADROOM and VOL by `ofReal` where TEND reads them is the
model's choice, notes/assumptions/21. -/
def Obligations.TickEnds : Prop :=
  ∀ (s : State) (v : ℚ), s.PPH = .finish → s.VOL = some v → 2 * s.T + 1 < s.BUF.length →
    ∃ t y, exec .tend s = .next t ∧
      (s.cfg.NUM = .reals →
        let mixed : ℝ := if 1 < s.CNT then s.sumReal / s.CNT else s.sumReal
        y = realToI16 (mixed * (s.cfg.HEADROOM.toReal * v))) ∧
      (∀ k, s.cfg.NUM = .format k →
        let o := Config.formatOps k
        let mixed := if 1 < s.CNT then o.divNat (s.SUM.waveCode o) s.CNT else s.SUM.waveCode o
        y = (o.toI16 (o.mul mixed (o.mul (o.ofReal (.param s.cfg.HEADROOM)) (o.ofRat v)))).toInt) ∧
      t.bufAt (2 * s.T) = y ∧ t.bufAt (2 * s.T + 1) = y ∧
      (∀ i, i ≠ 2 * s.T → i ≠ 2 * s.T + 1 → t.bufAt i = s.bufAt i) ∧ t.BUF.length = s.BUF.length ∧
      t = { s with BUF := t.BUF, T := s.T + 1, PPH := .begin }

/-- R146: the sample computed from exact data is the real product of the mixed value and the gain, clamped to 16 bits and cut
toward zero. -/
def Obligations.SampleConversionIsExact : Prop :=
  ∀ (w : Wave) (gain : RealParam),
    let r := w.toReal * gain.toReal
    let c : ℝ := if r < -32768 then -32768 else if 32767 < r then 32767 else r
    let y := w.toI16 gain
    (0 ≤ c → (y : ℝ) ≤ c ∧ c < y + 1) ∧ (c ≤ 0 → c ≤ y ∧ (y : ℝ) - 1 < c) ∧ -32768 ≤ y ∧ y ≤ 32767

/-- R152: at volume 0 the sample is 0 whatever the notes, over the reals (a physical format needs the laws of
93_implementation_defined.md U1 for it); no phase is moved by it in any format. -/
def Obligations.VolumeZeroIsSilence : Prop :=
  ∀ s : State, s.PPH = .finish → s.VOL = some 0 → 2 * s.T + 1 < s.BUF.length →
    ∃ t, exec .tend s = .next t ∧ (s.cfg.NUM = .reals → t.bufAt (2 * s.T) = 0 ∧ t.bufAt (2 * s.T + 1) = 0) ∧
      t.PHASE = s.PHASE

/-- R148, R63: SUBMIT hands over exactly `4B` bytes, each sample low byte first, and restarts the tick index. That it completes
whenever `PPH = BEGIN` and `T = B` is the model's choice, notes/assumptions/5: the sink's readiness is not represented, a presented
SUBMIT finds room. -/
def Obligations.BufferHandedOver : Prop :=
  ∀ s : State, s.PPH = .begin → s.T = s.cfg.B → s.BUF.length = 2 * s.cfg.B →
    (∀ y ∈ s.BUF, -32768 ≤ y ∧ y ≤ 32767) →
    ∃ t bytes, exec .submit s = .next t ∧ bytes.length = 4 * s.cfg.B ∧
      (∀ i, i < 2 * s.cfg.B →
        ((bytes.getD (2 * i) 0).toNat + 256 * (bytes.getD (2 * i + 1) 0).toNat : Int) =
          if 0 ≤ s.bufAt i then s.bufAt i else s.bufAt i + 65536) ∧
      t = { s with T := 0, trace := s.trace ++ [.sinkSubmit bytes] }

/-- R64: `le16` is the 16-bit two's-complement form, low byte first. -/
def Obligations.SampleBytesAreTwosComplement : Prop :=
  ∀ y : Int, -32768 ≤ y → y ≤ 32767 →
    let u := if 0 ≤ y then y else y + 65536
    ∃ lo hi : Byte, le16 y = [lo, hi] ∧ (lo.toNat : Int) = u % 256 ∧ (hi.toNat : Int) = u / 256 ∧ (hi ++ lo).toInt = y

/-- R150: an uninterrupted TICK as one function of the state: in every number format by the shared operations of the model in
ascending note order, and over the reals by the rule's own arithmetic. -/
def Obligations.UninterruptedTick : Prop :=
  ∀ (s : State) (v : ℚ), s.Inv → s.PPH = .begin → s.T < s.cfg.B → s.VOL = some v →
    (s.activeNotes s.COL ≠ [] → s.PMULT ≠ none ∧ s.SQMIX ≠ none) →
    let active := s.activeNotes s.COL
    let pm := s.PMULT.getD 1
    let q := s.SQMIX.getD 0
    ∃ t, Pseudo.tick.run s = .next t ∧
      (∀ n ∈ active, t.phaseAt n = advancePhase s.cfg.NUM (s.phaseAt n) (s.stepAt n) pm) ∧
      (∀ n, n ∉ active → t.phaseAt n = s.phaseAt n) ∧ t.PHASE.length = s.PHASE.length ∧
      t.SUM = active.foldl (fun sum n => addShaped s.cfg.NUM sum s.cfg.SIGN0 (t.phaseAt n) q) (s.cfg.NUM.ofWave Wave.zero) ∧
      t.CNT = active.length ∧
      (s.cfg.NUM = .reals →
        (∀ n ∈ active,
          let p1 := s.phaseRad n + s.stepRad n * pm
          t.phaseRad n = if 2 * Real.pi < p1 then p1 - 2 * Real.pi else p1) ∧
        t.sumReal = (active.map fun n => realRender s.sign0 (t.phaseRad n) q).sum ∧
        (let mixed : ℝ := if 1 < t.CNT then t.sumReal / t.CNT else t.sumReal
         t.sample v = realToI16 (mixed * (s.cfg.HEADROOM.toReal * v)))) ∧
      t = { s with
        PHASE := t.PHASE, CLAT := s.COL, SUM := t.SUM, CNT := t.CNT, T := s.T + 1, PPH := .begin, PV := s.cfg.N - 1,
        BUF := (s.BUF.set (2 * s.T) (t.sample v)).set (2 * s.T + 1) (t.sample v) }

/-- R151: an uninterrupted FILL from `T = 0` takes `T` to `B`; CYCLE is that and SUBMIT: it advances each active phase `B` times and
hands over one buffer of `4B` bytes. PMULT and SQMIX have to be written only where a note of the column is active (R150). That
SUBMIT completes as soon as `T = B` is the model's choice, notes/assumptions/5: a presented SUBMIT finds room in the sink. -/
def Obligations.UninterruptedCycle : Prop :=
  ∀ (s : State) (v : ℚ), s.Inv → s.PPH = .begin → s.T = 0 → s.VOL = some v →
    (s.activeNotes s.COL ≠ [] → s.PMULT ≠ none ∧ s.SQMIX ≠ none) →
    ∃ u t bytes, Pseudo.fill.run s = .next u ∧ u.T = s.cfg.B ∧ u.PPH = .begin ∧ exec .submit u = .next t ∧
      Pseudo.cycle.run s = .next t ∧
      t.trace = s.trace ++ [.sinkSubmit bytes] ∧ bytes.length = 4 * s.cfg.B ∧ bytes = sinkBytes t.BUF ∧
      (∀ n ∈ s.activeNotes s.COL,
        t.phaseAt n = phaseAfter s.cfg.NUM (s.stepAt n) (s.PMULT.getD 1) s.cfg.B (s.phaseAt n)) ∧
      (∀ n, n ∉ s.activeNotes s.COL → t.phaseAt n = s.phaseAt n) ∧ t.PHASE.length = s.PHASE.length ∧
      t = { s with
        PHASE := t.PHASE, CLAT := s.COL, SUM := t.SUM, CNT := t.CNT, BUF := t.BUF, T := 0, PPH := .begin,
        PV := s.cfg.N - 1, trace := t.trace }

/-- R233: with no cell of the current column set, a tick writes silence whatever the volume (over the reals), and moves no phase. -/
def Obligations.EmptyColumnIsSilent : Prop :=
  ∀ (s : State) (v : ℚ), s.Inv → s.PPH = .begin → s.T < s.cfg.B → s.VOL = some v →
    (∀ n, n < s.cfg.N → s.cell s.COL n = false) →
    ∃ t, Pseudo.tick.run s = .next t ∧ (s.cfg.NUM = .reals → t.bufAt (2 * s.T) = 0 ∧ t.bufAt (2 * s.T + 1) = 0) ∧
      t.PHASE = s.PHASE

/-! ### 42_sequencer.md -/

/-- R161, R162: the beat test. -/
def Obligations.BeatTest : Prop :=
  ∀ (s : State) (now beat : Nat), s.CPH = .idle → s.DUE = false → s.BEAT = some beat →
    (now < s.LAST ∨ (s.LAST ≤ now ∧ beat ≤ now - s.LAST) →
      exec (.pchk now) s = .next { s with DUE := true, LAST := now }) ∧
    (s.LAST ≤ now ∧ now - s.LAST < beat → exec (.pchk now) s = .next s)

/-- R164: ABEG moves the column, clears DUE and opens the advance. -/
def Obligations.AdvanceBegins : Prop :=
  ∀ s : State, s.CPH = .idle →
    exec .abeg s = .next { s with
      COL := (s.COL + 1) % s.cfg.COLUMNS, DUE := false, CPH := .chk, CN := 0 }

/-- R166: RCHK toggles the one cell of the current column and clears the flag, if it was set. -/
def Obligations.NoteReconciled : Prop :=
  ∀ (s : State) (n : Nat), s.CPH = .chk → s.CN = n → s.GRID.length = s.cfg.COLUMNS → s.COL < s.cfg.COLUMNS →
    (∀ row ∈ s.GRID, row.length = s.cfg.N) → n < s.cfg.N → s.PEND.length = s.cfg.N →
    ∃ t, exec (.rchk n) s = .next t ∧ t.HIT = s.pendAt n ∧
      (s.pendAt n = true →
        t.cell s.COL n = (!s.cell s.COL n) ∧ (∀ c m, (c, m) ≠ (s.COL, n) → t.cell c m = s.cell c m) ∧
        t.pendAt n = false ∧ ∀ m, m ≠ n → t.pendAt m = s.pendAt m) ∧
      (s.pendAt n = false → t.GRID = s.GRID ∧ t.PEND = s.PEND) ∧
      t = { s with HIT := t.HIT, GRID := t.GRID, PEND := t.PEND, CPH := .lvl }

/-- R167: RLVL samples the line. -/
def Obligations.LineSampled : Prop :=
  ∀ (s : State) (n : Nat), s.CPH = .lvl → s.CN = n →
    exec (.rlvl n) s = .next { s with LLAT := s.lineAt n, CPH := .prm }

/-- R168: RPRM re-primes the flag from the latched level and moves to the next note. -/
def Obligations.FlagReprimed : Prop :=
  ∀ (s : State) (n : Nat), s.CPH = .prm → s.CN = n → n < s.PEND.length →
    ∃ t, exec (.rprm n) s = .next t ∧
      (s.cfg.REPRIME = .all ∨ s.HIT = true → t.pendAt n = s.LLAT) ∧
      (s.cfg.REPRIME ≠ .all ∧ s.HIT = false → t.pendAt n = s.pendAt n) ∧
      (∀ m, m ≠ n → t.pendAt m = s.pendAt m) ∧
      (n + 1 = s.cfg.N → t.CPH = .finish ∧ t.CN = s.CN) ∧ (n + 1 ≠ s.cfg.N → t.CPH = .chk ∧ t.CN = n + 1) ∧
      t = { s with PEND := t.PEND, CPH := t.CPH, CN := t.CN }

/-- R169: AEND redraws: clear, every set cell and every highlight row of the current column once, commit. -/
def Obligations.RedrawEmitted : Prop :=
  ∀ s : State, s.CPH = .finish → s.cfg.wf = true → s.COL < s.cfg.COLUMNS →
    ∃ pixels, exec .aend s = .next { s with
        trace := s.trace ++ [.dispClear, .dispSetPixels pixels, .dispCommit], CPH := .idle } ∧
      pixels.Nodup ∧
      ∀ c r, (c, r) ∈ pixels ↔
        (c < s.cfg.COLUMNS ∧ r < s.cfg.N ∧ s.cell c r = true) ∨ (c = s.COL ∧ r ∈ s.cfg.highlight s.COL)

/-- R169, R81, for the model's one unordered trace entry per redraw (notes/assumptions/6): the events of a redraw may come in any
order of its pixels, between the clear and the commit, after the events before it. -/
def Obligations.RedrawInAnyOrder : Prop :=
  ∀ (s t : State) (earlier : List OutEvent) (order : List (Nat × Nat)), exec .aend s = .next t →
    Realises s.trace earlier → order.Perm s.pixels →
    Realises t.trace (earlier ++ [.dispClear] ++ order.map (fun p => OutEvent.dispSetPixel p.1 p.2) ++ [.dispCommit])

/-- R163: an uninterrupted advance as one function of the state. -/
def Obligations.UninterruptedAdvance : Prop :=
  ∀ s : State, s.Inv → s.CPH = .idle →
    let col := (s.COL + 1) % s.cfg.COLUMNS
    ∃ t, Pseudo.adv.run s = .next t ∧
      (∀ n, n < s.cfg.N → t.cell col n = (s.cell col n ^^ s.pendAt n)) ∧
      (∀ c n, c ≠ col → t.cell c n = s.cell c n) ∧
      (∀ n, n < s.cfg.N →
        t.pendAt n = if s.cfg.REPRIME = .all ∨ s.pendAt n = true then s.lineAt n else s.pendAt n) ∧
      (∃ pixels, t.trace = s.trace ++ [.dispClear, .dispSetPixels pixels, .dispCommit] ∧ pixels.Nodup ∧
        ∀ c r, (c, r) ∈ pixels ↔
          (c < s.cfg.COLUMNS ∧ r < s.cfg.N ∧ t.cell c r = true) ∨ (c = col ∧ r ∈ s.cfg.highlight col)) ∧
      t = { s with
        COL := col, DUE := false, GRID := t.GRID, PEND := t.PEND, trace := t.trace, CPH := .idle, CN := s.cfg.N - 1,
        HIT := s.pendAt (s.cfg.N - 1), LLAT := s.lineAt (s.cfg.N - 1) }

/-- R172(a): `k` advances move the column pointer `k` places, wrapping; with 8 columns, 8 advances bring it back. -/
def Obligations.AdvancesWrapAroundTheColumns : Prop :=
  ∀ (s : State) (k : Nat), s.Inv → s.CPH = .idle →
    ∃ t, runOps (List.replicate k (advOps s.cfg)).flatten s = .next t ∧ t.COL = (s.COL + k) % s.cfg.COLUMNS

/-- R172(b), (c): from an empty grid with one flag set, one advance sets exactly that note's cell of the next column, and the
redraw lights that cell and the highlight of the new column and nothing else. -/
def Obligations.OnePressSetsOneCell : Prop :=
  ∀ (s : State) (n : Nat), s.Inv → s.CPH = .idle → n < s.cfg.N →
    (∀ c m, s.cell c m = false) → (∀ m, s.pendAt m = decide (m = n)) →
    let col := (s.COL + 1) % s.cfg.COLUMNS
    ∃ t, Pseudo.adv.run s = .next t ∧ (∀ c m, t.cell c m = decide (c = col ∧ m = n)) ∧
      ∃ pixels, t.trace = s.trace ++ [.dispClear, .dispSetPixels pixels, .dispCommit] ∧
        ∀ c r, (c, r) ∈ pixels ↔ (c = col ∧ r = n) ∨ (c = col ∧ r ∈ s.cfg.highlight col)

/-- R243: with `REPRIME = ALL` a line that is high leaves its flag set after the advance, so the next advance toggles the note in
the column after. -/
def Obligations.HeldButtonRepeats : Prop :=
  ∀ (s : State) (n : Nat), s.Inv → s.CPH = .idle → n < s.cfg.N → s.cfg.REPRIME = .all → s.lineAt n = true →
    ∃ t u, Pseudo.adv.run s = .next t ∧ t.pendAt n = true ∧ Pseudo.adv.run t = .next u ∧
      u.cell ((t.COL + 1) % s.cfg.COLUMNS) n = !t.cell ((t.COL + 1) % s.cfg.COLUMNS) n

/-! ### 20_memory.md and 70_reset_and_hazards.md: the race on PEND -/

/-- R242, R76(c): an edge between RLVL and RPRM of its own note, on a line that was low at RLVL, is overwritten whenever RPRM
writes, and survives when it does not. -/
def Obligations.LostPressWindow : Prop :=
  ∀ (s : State) (n : Nat), s.CPH = .lvl → s.CN = n → s.lineAt n = false →
    n < s.PEND.length → n < s.IRQ.length → n < s.LINE.length →
    ∃ t, runOps [.rlvl n, .lhi n, .edge n, .rprm n] s = .next t ∧ t.lineAt n = true ∧
      (s.cfg.REPRIME = .all ∨ s.HIT = true → t.pendAt n = false) ∧
      (s.cfg.REPRIME ≠ .all ∧ s.HIT = false → t.pendAt n = true)

/-- R76(a), (b): an edge before RCHK of its note is consumed by that advance; an edge after RPRM survives it. -/
def Obligations.EdgeOutsideTheWindow : Prop :=
  ∀ (s : State) (n : Nat), s.CN = n → n < s.PEND.length → s.irqAt n = true →
    (s.CPH = .chk → s.COL < s.GRID.length → n < (s.GRID.getD s.COL []).length →
      ∃ t, runOps [.edge n, .rchk n] s = .next t ∧
        t.cell s.COL n = (!s.cell s.COL n) ∧ t.HIT = true ∧ t.pendAt n = false) ∧
    (s.CPH = .prm → ∃ t, runOps [.rprm n, .edge n] s = .next t ∧ t.pendAt n = true)

/-! ### 43_edge_control.md and 60_exceptions.md -/

/-- R182: LHI raises the line; only a rising transition requests the handler. -/
def Obligations.LineRises : Prop :=
  ∀ (s : State) (n : Nat), n < s.IRQ.length → n < s.LINE.length →
    ∃ t, exec (.lhi n) s = .next t ∧ t.lineAt n = true ∧ (∀ m, m ≠ n → t.lineAt m = s.lineAt m) ∧
      (s.lineAt n = false → t.irqAt n = true) ∧ (s.lineAt n = true → t = s) ∧
      (∀ m, m ≠ n → t.irqAt m = s.irqAt m) ∧ t = { s with IRQ := t.IRQ, LINE := t.LINE }

/-- R183: LLO lowers the line and triggers nothing. -/
def Obligations.LineFalls : Prop :=
  ∀ (s : State) (n : Nat), n < s.LINE.length →
    ∃ t, exec (.llo n) s = .next t ∧ t.lineAt n = false ∧ (∀ m, m ≠ n → t.lineAt m = s.lineAt m) ∧
      t = { s with LINE := t.LINE }

/-- R186: the handler sets the flag and clears the latch of its own line; with no request it has no step. -/
def Obligations.HandlerSetsFlag : Prop :=
  ∀ (s : State) (n : Nat), n < s.PEND.length →
    (s.irqAt n = true → ∃ t, exec (.edge n) s = .next t ∧ t.pendAt n = true ∧ t.irqAt n = false ∧
      (∀ m, m ≠ n → t.pendAt m = s.pendAt m ∧ t.irqAt m = s.irqAt m) ∧ t = { s with PEND := t.PEND, IRQ := t.IRQ }) ∧
    (s.irqAt n = false → exec (.edge n) s = .fault .noRequest)

/-- R189: PRESS and TAP from a low line. -/
def Obligations.PressAndTap : Prop :=
  ∀ (s : State) (n : Nat), n < s.PEND.length → n < s.IRQ.length → n < s.LINE.length → s.lineAt n = false →
    (∃ t, (Pseudo.press n).run s = .next t ∧ t.lineAt n = true ∧ t.pendAt n = true ∧ t.irqAt n = false) ∧
    (∃ t, (Pseudo.tap n).run s = .next t ∧ t.lineAt n = false ∧ t.pendAt n = true ∧ t.irqAt n = false)

/-- R208: the handlers of two lines commute. -/
def Obligations.HandlersCommute : Prop :=
  ∀ (s : State) (n m : Nat), n ≠ m → s.irqAt n = true → s.irqAt m = true →
    ∃ t, runOps [.edge n, .edge m] s = .next t ∧ runOps [.edge m, .edge n] s = .next t

/-- R211: the edge handler and the production loop do not interact: in either order they reach the same state. -/
def Obligations.HandlerAndProductionCommute : Prop :=
  ∀ (s a : State) (n : Nat) (i : Instr), i.context = .pl → exec i s = .next a → s.irqAt n = true →
    ∃ t, runOps [i, .edge n] s = .next t ∧ runOps [.edge n, i] s = .next t

/-- R190, R191: CWR writes the decoded value into the one register. -/
def Obligations.ControlRegisterWritten : Prop :=
  ∀ (s : State) (v : Nat), s.CPH = .idle → s.DUE = false →
    exec (.cwr .vol v) s = .next { s with VOL := some ((v : ℚ) / 65536) } ∧
    exec (.cwr .beat v) s = .next { s with BEAT := some v } ∧
    exec (.cwr .sqmix v) s = .next { s with SQMIX := some ((v : ℚ) / 65536) } ∧
    exec (.cwr .pmult v) s = .next { s with PMULT := some (1 + (v : ℚ) / 65536) }

/-! ### 70_reset_and_hazards.md -/

/-- R230, R121, R53: RST, in any state. The clause about a physical number format, that RST leaves in STEP the format's `ofReal` of the
real `2π * FREQ[n] / FS` and in PHASE and SUM its code of 0, is no word of R230 but the model's choice, notes/assumptions/21: R11
gives the format an `ofReal` and no rule says how a format forms the step. -/
def Obligations.ResetOperation : Prop :=
  ∀ (s : State) (levels : BitVec 32), ∃ t, exec (.rst levels) s = .next t ∧
    (s.cfg.NUM = .reals → t.sumReal = 0 ∧ ∀ n, n < s.cfg.N →
      t.stepRad n = 2 * Real.pi * (s.cfg.freq n).toReal / s.cfg.FS.toReal ∧ t.phaseRad n = 0) ∧
    (∀ k, s.cfg.NUM = .format k →
      let o := Config.formatOps k
      t.SUM = .code (o.ofRat 0) ∧ ∀ n, n < s.cfg.N →
        (∀ d : RealDatum, d.toReal = 2 * Real.pi * (s.cfg.freq n).toReal / s.cfg.FS.toReal →
          t.stepAt n = .code (o.ofReal d)) ∧
        t.phaseAt n = .code (o.ofRat 0)) ∧
    (∀ n, n < s.cfg.N →
      t.pendAt n = false ∧ t.irqAt n = false ∧ t.lineAt n = levels.getLsbD n ∧
      ∀ c, c < s.cfg.COLUMNS → t.cell c n = false) ∧
    (t.STEP.length = s.cfg.N ∧ t.PHASE.length = s.cfg.N ∧ t.PEND.length = s.cfg.N ∧ t.IRQ.length = s.cfg.N ∧
      t.LINE.length = s.cfg.N ∧ t.GRID.length = s.cfg.COLUMNS ∧ (∀ row ∈ t.GRID, row.length = s.cfg.N) ∧
      t.BUF.length = 2 * s.cfg.B) ∧
    t.COL = 0 ∧ t.LAST = 0 ∧ t.DUE = false ∧ t.VOL = none ∧ t.BEAT = none ∧ t.SQMIX = none ∧ t.PMULT = none ∧
    (∀ i, i < 2 * s.cfg.B → t.bufAt i = 0) ∧
    t.T = 0 ∧ t.PPH = .begin ∧ t.PV = 0 ∧ t.CLAT = 0 ∧ t.CNT = 0 ∧
    t.CPH = .idle ∧ t.CN = 0 ∧ t.HIT = false ∧ t.LLAT = false ∧
    t.trace = s.trace ∧ t.cfg = s.cfg

/-- The model's `State.initial` is what RST leaves in a machine of that configuration (R53), trace and input empty. -/
def Obligations.InitialStateIsAfterReset : Prop :=
  ∀ (c : Config) (levels : BitVec 32) (s : State), s.cfg = c → s.trace = [] → s.input = [] →
    exec (.rst levels) s = .next (State.initial c levels)
end

