-- ==== Sys2Proof/Laws/Amp.lean ====
section
/-!
SUPPORT. Every operation on amplitudes keeps the canonical form.
-/
namespace Sys2Proof

/-- The canonical form, said with quantifiers. -/
theorem termsWf_iff (ts : List SineTerm) :
    Amp.termsWf ts = true ↔
      (∀ t ∈ ts, Amp.turnOk t.turn = true ∧ t.coeff ≠ 0) ∧ ts.Pairwise (fun t u => t.turn < u.turn) := by
  induction ts with
  | nil => simp [Amp.termsWf]
  | cons t ts ih =>
    cases ts with
    | nil => simp [Amp.termsWf]
    | cons u us =>
      simp only [Amp.termsWf, Bool.and_eq_true, decide_eq_true_eq, ih, List.forall_mem_cons, List.pairwise_cons]
      constructor
      · rintro ⟨⟨⟨h1, h2⟩, h3⟩, ⟨h4, h5⟩, h6, h7⟩
        exact ⟨⟨⟨h1, h2⟩, h4, h5⟩, ⟨h3, fun a ha => h3.trans (h6 a ha)⟩, h6, h7⟩
      · rintro ⟨⟨⟨h1, h2⟩, h4, h5⟩, ⟨h3, _⟩, h6, h7⟩
        exact ⟨⟨⟨h1, h2⟩, h3⟩, ⟨h4, h5⟩, h6, h7⟩

theorem mem_insertTerm_turn {t x : SineTerm} {ts : List SineTerm} (h : x ∈ insertTerm t ts) :
    x.turn = t.turn ∨ ∃ u ∈ ts, x.turn = u.turn := by
  induction ts with
  | nil =>
    rw [insertTerm] at h
    split_ifs at h
    · simp at h
    · simp at h; exact .inl (by rw [h])
  | cons u us ih =>
    rw [insertTerm] at h
    split_ifs at h
    · exact .inr ⟨x, h, rfl⟩
    · rcases List.mem_cons.1 h with h | h
      · exact .inl (by rw [h])
      · exact .inr ⟨x, h, rfl⟩
    · exact .inr ⟨x, List.mem_cons_of_mem _ h, rfl⟩
    · rcases List.mem_cons.1 h with h | h
      · exact .inr ⟨u, by simp, by rw [h]⟩
      · exact .inr ⟨x, List.mem_cons_of_mem _ h, rfl⟩
    · rcases List.mem_cons.1 h with h | h
      · exact .inr ⟨u, by simp, by rw [h]⟩
      · rcases ih h with h | ⟨y, hy, hxy⟩
        · exact .inl h
        · exact .inr ⟨y, List.mem_cons_of_mem _ hy, hxy⟩

theorem insertTerm_wf {t : SineTerm} (ht : Amp.turnOk t.turn = true) {ts : List SineTerm}
    (h : Amp.termsWf ts = true) : Amp.termsWf (insertTerm t ts) = true := by
  induction ts with
  | nil =>
    rw [insertTerm]
    split_ifs with h0
    · rfl
    · simp [Amp.termsWf, ht, h0]
  | cons u us ih =>
    rw [termsWf_iff] at h
    obtain ⟨hall, hpair⟩ := h
    rw [List.pairwise_cons] at hpair
    have hus : Amp.termsWf us = true :=
      (termsWf_iff us).2 ⟨fun x hx => hall x (List.mem_cons_of_mem _ hx), hpair.2⟩
    rw [insertTerm]
    split_ifs with h1 h2 h3 h4
    · exact (termsWf_iff _).2 ⟨hall, List.pairwise_cons.2 hpair⟩
    · rw [termsWf_iff]
      refine ⟨fun x hx => ?_, List.pairwise_cons.2 ⟨fun x hx => ?_, List.pairwise_cons.2 hpair⟩⟩
      · rcases List.mem_cons.1 hx with hx | hx
        · rw [hx]; exact ⟨ht, h2⟩
        · exact hall x hx
      · rcases List.mem_cons.1 hx with hx | hx
        · rw [hx]; exact h1
        · exact h1.trans (hpair.1 x hx)
    · exact hus
    · rw [termsWf_iff]
      refine ⟨fun x hx => ?_, List.pairwise_cons.2 ⟨fun x hx => hpair.1 x hx, hpair.2⟩⟩
      rcases List.mem_cons.1 hx with hx | hx
      · rw [hx]; exact ⟨(hall u (by simp)).1, h4⟩
      · exact hall x (List.mem_cons_of_mem _ hx)
    · have hi := (termsWf_iff _).1 (ih hus)
      rw [termsWf_iff]
      refine ⟨fun x hx => ?_, List.pairwise_cons.2 ⟨fun x hx => ?_, hi.2⟩⟩
      · rcases List.mem_cons.1 hx with hx | hx
        · rw [hx]; exact hall u (by simp)
        · exact hi.1 x hx
      · rcases mem_insertTerm_turn hx with hxt | ⟨y, hy, hxy⟩
        · rw [hxt]; exact lt_of_le_of_ne (not_lt.1 h1) (Ne.symm h3)
        · rw [hxy]; exact hpair.1 y hy

theorem Amp.ofRat_wf (q : ℚ) : (Amp.ofRat q).wf = true := rfl

theorem Amp.zero_wf : Amp.zero.wf = true := rfl

theorem Amp.add_wf {a b : Amp} (ha : a.wf = true) (hb : b.wf = true) : (a.add b).wf = true := by
  unfold Amp.wf Amp.add at *
  dsimp only
  generalize a.sines = ts at ha
  induction ts with
  | nil => exact hb
  | cons t ts ih =>
    rw [termsWf_iff] at ha
    obtain ⟨hall, hpair⟩ := ha
    exact insertTerm_wf (hall t (by simp)).1
      (ih ((termsWf_iff ts).2 ⟨fun x hx => hall x (List.mem_cons_of_mem _ hx), (List.pairwise_cons.1 hpair).2⟩))

theorem Amp.scale_wf (c : ℚ) {a : Amp} (ha : a.wf = true) : (Amp.scale c a).wf = true := by
  unfold Amp.scale
  split_ifs with h
  · rfl
  · unfold Amp.wf at *
    rw [termsWf_iff] at ha ⊢
    refine ⟨fun x hx => ?_, ?_⟩
    · obtain ⟨y, hy, rfl⟩ := List.mem_map.1 hx
      exact ⟨(ha.1 y hy).1, mul_ne_zero h (ha.1 y hy).2⟩
    · rw [List.pairwise_map]; exact ha.2

theorem Amp.sine_wf (r : Turn) : (Amp.sine r).wf = true := by
  obtain ⟨g0, g1⟩ := foldTurn_range r
  unfold Amp.sine
  dsimp only
  split_ifs with h0 h1 h2
  · rfl
  · rfl
  · rfl
  · have hs : foldSign (foldTurn r).1 ≠ 0 := by cases (foldTurn r).1 <;> simp [foldSign]
    have hl : (foldTurn r).2 < 1 / 4 := lt_of_le_of_ne g1 h2
    have hp : 0 < (foldTurn r).2 := lt_of_le_of_ne g0 (Ne.symm h0)
    simp only [Amp.wf, Amp.termsWf, Amp.turnOk, hp, hl, h1, hs, ne_eq, not_false_eq_true, decide_true, Bool.and_self]

end Sys2Proof
end

