-- ==== Sys2Proof/Laws/Sample.lean ====
section
/-!
SUPPORT. The sample conversion of the reals stays in the range of a sample (10_state.md R38).
-/
namespace Sys2Proof

theorem realToI16_range (x : ℝ) : -32768 ≤ realToI16 x ∧ realToI16 x ≤ 32767 := by
  have h1 := realToI16_mono (min_le_left x (-32768))
  have h2 := realToI16_mono (le_max_left x 32767)
  have e1 : realToI16 (min x (-32768)) = -32768 := by
    unfold realToI16 realTrunc
    rcases le_or_gt x (-32768) with h | h
    · rw [min_eq_left h]
      rcases eq_or_lt_of_le h with h | h
      · rw [h]; norm_num
      · rw [if_pos h]; norm_num
    · rw [min_eq_right h.le]; norm_num
  have e2 : realToI16 (max x 32767) = 32767 := by
    unfold realToI16 realTrunc
    rcases le_or_gt x 32767 with h | h
    · rw [max_eq_right h]; norm_num
    · rw [max_eq_left h.le, if_neg (by linarith : ¬ x < -32768), if_pos h]; norm_num
  rw [e1] at h1; rw [e2] at h2
  exact ⟨h1, h2⟩

end Sys2Proof
end

