-- ==== Sys2Proof/Laws/Num.lean ====
section
/-!
SUPPORT. The numbers of the machine: what real number each operation on real parameters, angles and waves stands for, and that
every question the machine asks about reals is answered rightly (00_scope.md R11).
-/
namespace Sys2Proof

/-! ### Open reals -/

theorem openAt_pos (n : Option Nat) : 0 < openAt Config.openReals.value n := by
  cases n with
  | none => exact one_pos
  | some k => exact one_pos.trans_le (Config.openReals.value_range k).1

theorem opensTurns_insertOpen (x : Nat → ℝ) (p : OpenTurn) (ps : List OpenTurn) :
    opensTurns x (insertOpen p ps) = p.realAt x + opensTurns x ps := by
  induction ps with
  | nil => by_cases h : p.coeff = 0 <;> simp [insertOpen, opensTurns, OpenTurn.realAt, h]
  | cons u us ih =>
    rw [insertOpen]
    split_ifs with h1 h2
    · have hc : (p.coeff : ℝ) + (u.coeff : ℝ) = 0 := by exact_mod_cast h2
      rw [opensTurns, OpenTurn.realAt, OpenTurn.realAt, h1.1, h1.2, ← add_assoc, ← add_mul, hc]
      ring
    · simp only [opensTurns, OpenTurn.realAt, h1.1, h1.2]; push_cast; ring
    · simp only [opensTurns, ih]; ring

/-! ### Real parameters -/

@[simp] theorem RealParam.rat_toReal (q : ℚ) : (RealParam.rat q).toReal = q := by
  simp [RealParam.toReal, RealParam.realAt, RealParam.rat, openAt]

@[simp] theorem RealParam.times_toReal (p : RealParam) (q : ℚ) : (p.times q).toReal = p.toReal * q := by
  unfold RealParam.times
  split_ifs with h
  · simp [h]
  · simp only [RealParam.toReal, RealParam.realAt]; push_cast; ring

/-- The quotient of two real parameters (R121). -/
@[simp] theorem RealParam.ratio_turns (p q : RealParam) : (p.ratio q).turns = p.toReal / q.toReal := by
  have hq := (openAt_pos q.name).ne'
  unfold RealParam.ratio
  split_ifs with h
  · simp only [Angle.turns, Angle.turnsAt, opensTurns, RealParam.toReal, RealParam.realAt, h]
    rw [mul_div_mul_right _ _ hq]; push_cast; ring
  · simp only [Angle.turns, Angle.turnsAt, opensTurns, OpenTurn.realAt, RealParam.toReal, RealParam.realAt]
    push_cast
    rw [div_mul_div_comm]; ring

/-! ### Angles -/

theorem Angle.toReal_eq (a : Angle) : a.toReal = 2 * Real.pi * a.turns := rfl

@[simp] theorem Angle.ofTurn_turns (r : Turn) : (Angle.ofTurn r).turns = r := by
  simp [Angle.turns, Angle.turnsAt, Angle.ofTurn, opensTurns]

@[simp] theorem Angle.add_turns (a b : Angle) : (a.add b).turns = a.turns + b.turns := by
  have h : ∀ ps : List OpenTurn, opensTurns Config.openReals.value (ps.foldr insertOpen a.opens) =
      opensTurns Config.openReals.value ps + opensTurns Config.openReals.value a.opens := by
    intro ps
    induction ps with
    | nil => simp [opensTurns]
    | cons p ps ih => simp only [List.foldr, opensTurns_insertOpen, ih, opensTurns]; ring
  simp only [Angle.turns, Angle.turnsAt, Angle.add, h]; push_cast; ring

@[simp] theorem Angle.scale_turns (c : ℚ) (a : Angle) : (Angle.scale c a).turns = c * a.turns := by
  have h : ∀ ps : List OpenTurn, opensTurns Config.openReals.value (ps.map fun p => { p with coeff := c * p.coeff }) =
      c * opensTurns Config.openReals.value ps := by
    intro ps
    induction ps with
    | nil => simp [opensTurns]
    | cons p ps ih => simp only [List.map, opensTurns, OpenTurn.realAt, ih]; push_cast; ring
  unfold Angle.scale
  split_ifs with hc
  · simp [hc]
  · simp only [Angle.turns, Angle.turnsAt, h]; push_cast; ring

@[simp] theorem Angle.subTurn_turns (a : Angle) : a.subTurn.turns = a.turns - 1 := by
  simp only [Angle.turns, Angle.turnsAt, Angle.subTurn]; push_cast; ring

/-- The comparison with `2π` is that of the reals (R124). -/
theorem Angle.exceedsTurn_iff (a : Angle) : a.exceedsTurn = true ↔ 1 < a.turns := by
  unfold Angle.exceedsTurn
  split
  · rename_i h
    simp only [Angle.turns, Angle.turnsAt, h, opensTurns, add_zero, decide_eq_true_eq]
    exact ⟨fun h => by exact_mod_cast h, fun h => by exact_mod_cast h⟩
  · exact Config.openReals.exceedsTurn_iff a

/-- The sign of the sine is that of the reals (R126). -/
theorem Angle.sgnSine_real (sign0 : ℚ) (a : Angle) :
    ((a.sgnSine sign0 : ℚ) : ℝ) = realSgn sign0 (Real.sin a.toReal) := by
  unfold Angle.sgnSine
  split
  · rename_i h
    rw [Sys2Proof.sgnSine_real]
    simp [Angle.toReal, Angle.realAt, Angle.turnsAt, h, opensTurns, radians]
  · exact Config.openReals.sgnSine_eq sign0 a

/-! ### Waves -/

@[simp] theorem Wave.ofRat_toReal (q : ℚ) : (Wave.ofRat q).toReal = q := by
  simp [Wave.toReal, Wave.realAt, Wave.ofRat, opensReal]

@[simp] theorem Wave.zero_toReal : Wave.zero.toReal = 0 := by simp [Wave.zero]

/-- `Wave.sine φ` stands for `sin φ` (R126). -/
@[simp] theorem Wave.sine_toReal (a : Angle) : (Wave.sine a).toReal = Real.sin a.toReal := by
  unfold Wave.sine
  split
  · rename_i h
    simp [Wave.toReal, Wave.realAt, opensReal, Angle.toReal, Angle.realAt, Angle.turnsAt, h, opensTurns, radians]
  · simp [Wave.toReal, Wave.realAt, opensReal, Angle.toReal]

@[simp] theorem Wave.add_toReal (v w : Wave) : (v.add w).toReal = v.toReal + w.toReal := by
  have h : ∀ os ps : List OpenSine, opensReal Config.openReals.value (os ++ ps) =
      opensReal Config.openReals.value os + opensReal Config.openReals.value ps := by
    intro os ps
    induction os with
    | nil => simp [opensReal]
    | cons o os ih => simp only [List.cons_append, opensReal, ih]; ring
  simp only [Wave.toReal, Wave.realAt, Wave.add, h, Amp.add_toReal]; ring

@[simp] theorem Wave.scale_toReal (c : ℚ) (w : Wave) : (Wave.scale c w).toReal = c * w.toReal := by
  have h : ∀ os : List OpenSine, opensReal Config.openReals.value (os.map fun o => { o with coeff := c * o.coeff }) =
      c * opensReal Config.openReals.value os := by
    intro os
    induction os with
    | nil => simp [opensReal]
    | cons o os ih => simp only [List.map, opensReal, ih]; push_cast; ring
  unfold Wave.scale
  split_ifs with hc
  · simp [hc]
  · simp only [Wave.toReal, Wave.realAt, h, Amp.scale_toReal]; ring

/-- The sample is that of the product of the reals (R146). -/
theorem Wave.toI16_real (w : Wave) (gain : RealParam) : w.toI16 gain = realToI16 (w.toReal * gain.toReal) := by
  have key : realToI16 (openAt Config.openReals.value gain.name * (w.scale gain.scale).realAt Config.openReals.value) =
      realToI16 (w.toReal * gain.toReal) := by
    have h := Wave.scale_toReal gain.scale w
    simp only [Wave.toReal] at h
    rw [h]
    congr 1
    simp only [Wave.toReal, RealParam.toReal, RealParam.realAt]; ring
  rw [← key]
  unfold Wave.toI16
  dsimp only
  split
  · rename_i hn ho
    rw [Amp.toI16_real, hn]
    simp [Wave.realAt, ho, opensReal, openAt]
  · rw [Config.openReals.sample_eq]

theorem Wave.toI16_range (w : Wave) (gain : RealParam) : -32768 ≤ w.toI16 gain ∧ w.toI16 gain ≤ 32767 := by
  rw [Wave.toI16_real]; exact realToI16_range _

/-! ### Data -/

@[simp] theorem Datum.fits_ofAngle (f : NumFormat) (a : Angle) : (f.ofAngle a).fits f = true := by cases f <;> rfl

@[simp] theorem Datum.fits_ofWave (f : NumFormat) (w : Wave) : (f.ofWave w).fits f = true := by cases f <;> rfl

/-! ### The oscillator and the mixer -/

namespace Machine

/-- The wrap of the phase: one subtraction of a turn when the sum exceeds it (R124). -/
theorem advanceAngle_cases (r st : Angle) (pm : ℚ) :
    (1 < r.turns + st.turns * pm ∧ (advanceAngle r st pm).turns = r.turns + st.turns * pm - 1) ∨
    (r.turns + st.turns * pm ≤ 1 ∧ (advanceAngle r st pm).turns = r.turns + st.turns * pm) := by
  have e : (r.add (st.scale pm)).turns = r.turns + st.turns * pm := by simp; ring
  unfold advanceAngle
  dsimp only
  split_ifs with h
  · rw [Angle.exceedsTurn_iff, e] at h
    exact .inl ⟨h, by rw [Angle.subTurn_turns, e]⟩
  · rw [Angle.exceedsTurn_iff, e, not_lt] at h
    exact .inr ⟨h, e⟩

/-- Advance and wrap, in radians (R123, R124). -/
theorem advanceAngle_toReal (r st : Angle) (pm : ℚ) :
    (advanceAngle r st pm).toReal =
      if 2 * Real.pi < r.toReal + st.toReal * pm then r.toReal + st.toReal * pm - 2 * Real.pi
      else r.toReal + st.toReal * pm := by
  have hpi := Real.pi_pos
  have e : r.toReal + st.toReal * pm = 2 * Real.pi * (r.turns + st.turns * pm) := by simp only [Angle.toReal_eq]; ring
  rw [e]
  rcases advanceAngle_cases r st pm with ⟨h, e'⟩ | ⟨h, e'⟩ <;> rw [Angle.toReal_eq, e']
  · rw [if_pos (by nlinarith)]; ring
  · rw [if_neg (by nlinarith)]

/-- A stored phase stays in `[0, 2π]` (R48(a), R125). -/
theorem advanceAngle_range {r st : Angle} {pm : ℚ} (hr : 0 ≤ r.turns ∧ r.turns ≤ 1) (hst : 0 < st.turns ∧ st.turns ≤ 1 / 4)
    (hpm : 1 ≤ pm ∧ pm ≤ 2) : 0 ≤ (advanceAngle r st pm).turns ∧ (advanceAngle r st pm).turns ≤ 1 := by
  have hp1 : (1 : ℝ) ≤ pm := by exact_mod_cast hpm.1
  have hp2 : (pm : ℝ) ≤ 2 := by exact_mod_cast hpm.2
  have h0 : 0 < st.turns * pm := mul_pos hst.1 (by linarith)
  have h1 : st.turns * pm ≤ 1 / 2 := by nlinarith
  rcases advanceAngle_cases r st pm with ⟨h, e⟩ | ⟨h, e⟩ <;> rw [e] <;> constructor <;> linarith

/-- The shaped value is the blend of the sine and its sign (R126). -/
@[simp] theorem shapedWave_toReal (z : SignZero) (φ : Angle) (q : ℚ) :
    (shapedWave z φ q).toReal = realRender z.value φ.toReal q := by
  simp only [shapedWave, realRender, Wave.add_toReal, Wave.ofRat_toReal, Wave.scale_toReal, Wave.sine_toReal]
  push_cast
  rw [Angle.sgnSine_real]
  ring

theorem mixedWave_toReal (sum : Wave) (cnt : Nat) :
    (mixedWave sum cnt).toReal = if 1 < cnt then sum.toReal / cnt else sum.toReal := by
  unfold mixedWave
  split_ifs
  · simp [Wave.scale_toReal]; ring
  · rfl

theorem sample_reals (s : State) (v : ℚ) (h : s.cfg.NUM = .reals) :
    s.sample v = realToI16 ((if 1 < s.CNT then s.SUM.toWave.toReal / s.CNT else s.SUM.toWave.toReal) *
      (s.cfg.HEADROOM.toReal * v)) := by
  unfold State.sample
  rw [h]
  dsimp only
  rw [Wave.toI16_real, mixedWave_toReal, RealParam.times_toReal]

/-- A sample is a 16-bit signed integer in every number format (R38). -/
theorem sample_range (s : State) (v : ℚ) : -32768 ≤ s.sample v ∧ s.sample v ≤ 32767 := by
  unfold State.sample
  split
  · exact Wave.toI16_range _ _
  · exact ⟨BitVec.le_toInt _, Int.le_of_lt_add_one (BitVec.toInt_lt (w := 16))⟩

theorem advancePhase_fits (f : NumFormat) (r st : Datum Angle) (pm : ℚ) : (advancePhase f r st pm).fits f = true := by
  cases f <;> rfl

/-- Every addition keeps the canonical form of the amplitude (R11). -/
theorem addShaped_wf (f : NumFormat) (sum : Datum Wave) (z : SignZero) (φ : Datum Angle) (q : ℚ)
    (h : sum.toWave.amp.wf = true) : (addShaped f sum z φ q).toWave.amp.wf = true := by
  cases f with
  | reals =>
    have hs : (Wave.sine φ.toAngle).amp.wf = true := by
      unfold Wave.sine
      split
      · exact Amp.sine_wf _
      · rfl
    have hc : (Wave.scale (1 - q) (Wave.sine φ.toAngle)).amp.wf = true := by
      unfold Wave.scale
      split_ifs
      · rfl
      · exact Amp.scale_wf _ hs
    exact Amp.add_wf h (Amp.add_wf (Amp.ofRat_wf _) hc)
  | format k => rfl

theorem addShaped_fits (f : NumFormat) (sum : Datum Wave) (z : SignZero) (φ : Datum Angle) (q : ℚ) :
    (addShaped f sum z φ q).fits f = true := by
  cases f <;> rfl

end Machine

end Sys2Proof
end

