-- ==== Sys2Proof/Laws/Config.lean ====
section
/-!
SUPPORT. What a well-formed configuration gives (00_scope.md R10), in the terms later proofs use.
-/
namespace Sys2Proof.Config

theorem ratPos_iff (q : ℚ) : ratPos q = true ↔ 0 < q := by simp [ratPos, Rat.num_pos]

theorem ratQuarterLe_iff (f fs : ℚ) : ratQuarterLe f fs = true ↔ 4 * f ≤ fs := by
  simp only [ratQuarterLe, decide_eq_true_eq]
  have hf : (0 : ℚ) < f.den := by exact_mod_cast f.den_pos
  have hs : (0 : ℚ) < fs.den := by exact_mod_cast fs.den_pos
  have ef : f = f.num / f.den := (Rat.num_div_den f).symm
  have es : fs = fs.num / fs.den := (Rat.num_div_den fs).symm
  have key : (4 * f ≤ fs) ↔ (4 * (f.num : ℚ) * fs.den ≤ fs.num * f.den) := by
    conv_lhs => rw [ef, es, ← mul_div_assoc, div_le_div_iff₀ hf hs]
  rw [key]
  constructor <;> intro h <;> exact_mod_cast h

/-- A real parameter has the sign of its rational. -/
theorem toReal_pos_iff (p : RealParam) : 0 < p.toReal ↔ 0 < p.scale := by
  unfold RealParam.toReal RealParam.realAt
  rw [mul_pos_iff_of_pos_right (openAt_pos p.name)]
  exact Rat.cast_pos

theorem toReal_nonneg_iff (p : RealParam) : 0 ≤ p.toReal ↔ 0 ≤ p.scale := by
  unfold RealParam.toReal RealParam.realAt
  rw [mul_nonneg_iff_of_pos_right (openAt_pos p.name)]
  exact Rat.cast_nonneg

/-- `quarterLe` is the comparison of the reals (R10(e)). -/
theorem quarterLe_iff {f fs : RealParam} (h : 0 < fs.toReal) : quarterLe f fs = true ↔ f.toReal ≤ fs.toReal / 4 := by
  unfold quarterLe
  split_ifs with hn
  · rw [ratQuarterLe_iff]
    have ho := openAt_pos fs.name
    simp only [RealParam.toReal, RealParam.realAt, hn]
    rw [mul_div_right_comm, mul_le_mul_iff_left₀ ho, le_div_iff₀ (by norm_num : (0 : ℝ) < 4)]
    constructor
    · intro h; have : ((4 * f.scale : ℚ) : ℝ) ≤ fs.scale := by exact_mod_cast h
      push_cast at this; linarith
    · intro h; have : ((4 * f.scale : ℚ) : ℝ) ≤ fs.scale := by push_cast; linarith
      exact_mod_cast this
  · have e : (Angle.scale 4 (f.ratio fs)).turnsAt openReals.value = 4 * (f.toReal / fs.toReal) := by
      have := Angle.scale_turns 4 (f.ratio fs)
      rw [RealParam.ratio_turns] at this
      exact_mod_cast this
    rw [Bool.not_eq_true', ← Bool.not_eq_true, openReals.exceedsTurn_iff, e, not_lt, ← mul_div_assoc, div_le_one h,
      le_div_iff₀ (by norm_num : (0 : ℝ) < 4), mul_comm]

/-- The clauses (a) to (h) of R10. -/
theorem wf_iff (c : Config) : c.wf = true ↔
    1 ≤ c.N ∧ c.N ≤ 16 ∧ 1 ≤ c.COLUMNS ∧ 1 ≤ c.B ∧ 0 < c.FS.toReal ∧
    (c.FREQ.length = c.N ∧ ∀ f ∈ c.FREQ, 0 < f.toReal ∧ f.toReal ≤ c.FS.toReal / 4) ∧ 0 ≤ c.HEADROOM.toReal ∧
    1 ≤ c.TW ∧ c.TW ≤ 32 ∧
    (c.HL.length = c.COLUMNS ∧ ∀ rows ∈ c.HL, rows ≠ [] ∧ ∀ r ∈ rows, r < c.N) := by
  by_cases hFS : 0 < c.FS.toReal
  · simp only [wf, Bool.and_eq_true, decide_eq_true_eq, List.all_eq_true, ratPos_iff, quarterLe_iff hFS, ← toReal_pos_iff,
      Rat.num_nonneg, ← toReal_nonneg_iff, Bool.not_eq_true', List.isEmpty_eq_false_iff, ne_eq]
    tauto
  · have hf : ratPos c.FS.scale = false := by
      rw [← Bool.not_eq_true, ratPos_iff, ← toReal_pos_iff]; exact hFS
    simp only [wf, hf]
    simp [hFS]

theorem N_pos {c : Config} (h : c.wf = true) : 0 < c.N := ((wf_iff c).1 h).1

theorem N_le {c : Config} (h : c.wf = true) : c.N ≤ 16 := ((wf_iff c).1 h).2.1

theorem COLUMNS_pos {c : Config} (h : c.wf = true) : 0 < c.COLUMNS := ((wf_iff c).1 h).2.2.1

theorem B_pos {c : Config} (h : c.wf = true) : 0 < c.B := ((wf_iff c).1 h).2.2.2.1

theorem TW_le {c : Config} (h : c.wf = true) : c.TW ≤ 32 := ((wf_iff c).1 h).2.2.2.2.2.2.2.2.1

theorem HEADROOM_nonneg {c : Config} (h : c.wf = true) : 0 ≤ c.HEADROOM.toReal := ((wf_iff c).1 h).2.2.2.2.2.2.1

/-- A step is positive and at most a quarter turn, which is what makes one subtraction enough (R10(e), R124). -/
theorem stepAngle_range {c : Config} (h : c.wf = true) {n : Nat} (hn : n < c.N) :
    0 < (c.stepAngle n).turns ∧ (c.stepAngle n).turns ≤ 1 / 4 := by
  obtain ⟨-, -, -, -, hFS, ⟨hlen, hf⟩, -⟩ := (wf_iff c).1 h
  have hmem : c.freq n ∈ c.FREQ := by
    have hl : n < c.FREQ.length := by omega
    unfold freq
    rw [List.getD_eq_getElem _ _ hl]
    exact List.getElem_mem hl
  obtain ⟨h0, h1⟩ := hf _ hmem
  unfold stepAngle
  rw [RealParam.ratio_turns]
  refine ⟨div_pos h0 hFS, ?_⟩
  rw [div_le_iff₀ hFS]
  linarith

/-- The highlight rows of a column are display rows (R10(h)). -/
theorem highlight_lt {c : Config} (h : c.wf = true) {col r : Nat} (hr : r ∈ c.highlight col) : r < c.N := by
  obtain ⟨hlen, hrows⟩ := ((wf_iff c).1 h).2.2.2.2.2.2.2.2.2
  unfold highlight at hr
  by_cases hc : col < c.HL.length
  · rw [List.getD_eq_getElem _ _ hc] at hr
    exact (hrows _ (List.getElem_mem hc)).2 r hr
  · rw [List.getD_eq_default _ _ (by omega)] at hr
    simp at hr

end Sys2Proof.Config
end

