-- ==== Sys2Proof/Laws/Decode.lean ====
section
/-!
SUPPORT. The fields of an operation word as quotients and remainders, and the fields of a packed word.
-/
namespace Sys2Proof

theorem OpWord.op_eq (w : OpWord) : OpWord.op w = w.toNat / 2 ^ 36 := by
  have h := w.isLt
  simp only [OpWord.op, BitVec.extractLsb'_toNat, Nat.shiftRight_eq_div_pow]
  omega

theorem OpWord.idx_eq (w : OpWord) : OpWord.idx w = w.toNat / 2 ^ 32 % 16 := by
  simp only [OpWord.idx, BitVec.extractLsb'_toNat, Nat.shiftRight_eq_div_pow]

theorem OpWord.data_eq (w : OpWord) : OpWord.data w = w.toNat % 2 ^ 32 := by
  simp only [OpWord.data, BitVec.extractLsb'_toNat, Nat.shiftRight_eq_div_pow]
  omega

theorem OpWord.op_lt (w : OpWord) : OpWord.op w < 16 := by
  have h := w.isLt
  rw [OpWord.op_eq]; omega

theorem OpWord.idx_lt (w : OpWord) : OpWord.idx w < 16 := by rw [OpWord.idx_eq]; omega

theorem OpWord.data_lt (w : OpWord) : OpWord.data w < 2 ^ 32 := by rw [OpWord.data_eq]; omega

theorem packWord_toNat (op idx data : Nat) :
    (packWord op idx data).toNat = (op % 16) * 2 ^ 36 + (idx % 16) * 2 ^ 32 + data % 2 ^ 32 := by
  unfold packWord
  rw [BitVec.toNat_append, BitVec.toNat_append, BitVec.toNat_ofNat, BitVec.toNat_ofNat, BitVec.toNat_ofNat,
    ← Nat.shiftLeft_add_eq_or_of_lt (Nat.mod_lt _ (by norm_num)), ← Nat.shiftLeft_add_eq_or_of_lt (Nat.mod_lt _ (by norm_num)),
    Nat.shiftLeft_eq, Nat.shiftLeft_eq]
  omega

/-- The opcode of a packed word. -/
theorem op_packWord {op idx data : Nat} (h : op < 16) : OpWord.op (packWord op idx data) = op := by
  rw [OpWord.op_eq, packWord_toNat]; omega

/-- The index of a packed word. -/
theorem idx_packWord {op idx data : Nat} (h : idx < 16) : OpWord.idx (packWord op idx data) = idx := by
  rw [OpWord.idx_eq, packWord_toNat]; omega

/-- The data of a packed word. -/
theorem data_packWord {op idx data : Nat} (h : data < 2 ^ 32) : OpWord.data (packWord op idx data) = data := by
  rw [OpWord.data_eq, packWord_toNat]; omega

/-- A word is the packing of its three fields (R91). -/
theorem packWord_fields (w : OpWord) : packWord (OpWord.op w) (OpWord.idx w) (OpWord.data w) = w := by
  have h := w.isLt
  apply BitVec.eq_of_toNat_eq
  rw [packWord_toNat, OpWord.op_eq, OpWord.idx_eq, OpWord.data_eq]
  omega

/-- A register number reads back as its register (R30). -/
theorem ctrlRegOf_number (p : CtrlReg) : ctrlRegOf p.number = some p := by cases p <;> rfl

theorem number_of_ctrlRegOf {k : Nat} {p : CtrlReg} (h : ctrlRegOf k = some p) : p.number = k := by
  unfold ctrlRegOf at h
  split at h <;> simp at h <;> subst h <;> rfl

theorem pow_tw_le {c : Config} (h : c.TW ≤ 32) : 2 ^ c.TW ≤ 2 ^ 32 := Nat.pow_le_pow_right (by norm_num) h

end Sys2Proof
end

