-- ==== Sys2Proof/Laws/State.lean ====
section
/-!
SUPPORT. What every named update of the state leaves in every field: one lemma per field per update, so that later proofs never
unfold an update.
-/
namespace Sys2Proof.Machine.State

/-! ### setPend -/

@[simp] theorem setPend_cfg (s : State) (n : Nat) (v : Bool) : (s.setPend n v).cfg = s.cfg := rfl
@[simp] theorem setPend_STEP (s : State) (n : Nat) (v : Bool) : (s.setPend n v).STEP = s.STEP := rfl
@[simp] theorem setPend_PHASE (s : State) (n : Nat) (v : Bool) : (s.setPend n v).PHASE = s.PHASE := rfl
@[simp] theorem setPend_GRID (s : State) (n : Nat) (v : Bool) : (s.setPend n v).GRID = s.GRID := rfl
@[simp] theorem setPend_COL (s : State) (n : Nat) (v : Bool) : (s.setPend n v).COL = s.COL := rfl
@[simp] theorem setPend_PEND (s : State) (n : Nat) (v : Bool) : (s.setPend n v).PEND = s.PEND.set n v := rfl
@[simp] theorem setPend_IRQ (s : State) (n : Nat) (v : Bool) : (s.setPend n v).IRQ = s.IRQ := rfl
@[simp] theorem setPend_LINE (s : State) (n : Nat) (v : Bool) : (s.setPend n v).LINE = s.LINE := rfl
@[simp] theorem setPend_VOL (s : State) (n : Nat) (v : Bool) : (s.setPend n v).VOL = s.VOL := rfl
@[simp] theorem setPend_BEAT (s : State) (n : Nat) (v : Bool) : (s.setPend n v).BEAT = s.BEAT := rfl
@[simp] theorem setPend_SQMIX (s : State) (n : Nat) (v : Bool) : (s.setPend n v).SQMIX = s.SQMIX := rfl
@[simp] theorem setPend_PMULT (s : State) (n : Nat) (v : Bool) : (s.setPend n v).PMULT = s.PMULT := rfl
@[simp] theorem setPend_LAST (s : State) (n : Nat) (v : Bool) : (s.setPend n v).LAST = s.LAST := rfl
@[simp] theorem setPend_DUE (s : State) (n : Nat) (v : Bool) : (s.setPend n v).DUE = s.DUE := rfl
@[simp] theorem setPend_BUF (s : State) (n : Nat) (v : Bool) : (s.setPend n v).BUF = s.BUF := rfl
@[simp] theorem setPend_T (s : State) (n : Nat) (v : Bool) : (s.setPend n v).T = s.T := rfl
@[simp] theorem setPend_PPH (s : State) (n : Nat) (v : Bool) : (s.setPend n v).PPH = s.PPH := rfl
@[simp] theorem setPend_PV (s : State) (n : Nat) (v : Bool) : (s.setPend n v).PV = s.PV := rfl
@[simp] theorem setPend_CLAT (s : State) (n : Nat) (v : Bool) : (s.setPend n v).CLAT = s.CLAT := rfl
@[simp] theorem setPend_SUM (s : State) (n : Nat) (v : Bool) : (s.setPend n v).SUM = s.SUM := rfl
@[simp] theorem setPend_CNT (s : State) (n : Nat) (v : Bool) : (s.setPend n v).CNT = s.CNT := rfl
@[simp] theorem setPend_CPH (s : State) (n : Nat) (v : Bool) : (s.setPend n v).CPH = s.CPH := rfl
@[simp] theorem setPend_CN (s : State) (n : Nat) (v : Bool) : (s.setPend n v).CN = s.CN := rfl
@[simp] theorem setPend_HIT (s : State) (n : Nat) (v : Bool) : (s.setPend n v).HIT = s.HIT := rfl
@[simp] theorem setPend_LLAT (s : State) (n : Nat) (v : Bool) : (s.setPend n v).LLAT = s.LLAT := rfl
@[simp] theorem setPend_trace (s : State) (n : Nat) (v : Bool) : (s.setPend n v).trace = s.trace := rfl
@[simp] theorem setPend_input (s : State) (n : Nat) (v : Bool) : (s.setPend n v).input = s.input := rfl

/-! ### setIrq -/

@[simp] theorem setIrq_cfg (s : State) (n : Nat) (v : Bool) : (s.setIrq n v).cfg = s.cfg := rfl
@[simp] theorem setIrq_STEP (s : State) (n : Nat) (v : Bool) : (s.setIrq n v).STEP = s.STEP := rfl
@[simp] theorem setIrq_PHASE (s : State) (n : Nat) (v : Bool) : (s.setIrq n v).PHASE = s.PHASE := rfl
@[simp] theorem setIrq_GRID (s : State) (n : Nat) (v : Bool) : (s.setIrq n v).GRID = s.GRID := rfl
@[simp] theorem setIrq_COL (s : State) (n : Nat) (v : Bool) : (s.setIrq n v).COL = s.COL := rfl
@[simp] theorem setIrq_PEND (s : State) (n : Nat) (v : Bool) : (s.setIrq n v).PEND = s.PEND := rfl
@[simp] theorem setIrq_IRQ (s : State) (n : Nat) (v : Bool) : (s.setIrq n v).IRQ = s.IRQ.set n v := rfl
@[simp] theorem setIrq_LINE (s : State) (n : Nat) (v : Bool) : (s.setIrq n v).LINE = s.LINE := rfl
@[simp] theorem setIrq_VOL (s : State) (n : Nat) (v : Bool) : (s.setIrq n v).VOL = s.VOL := rfl
@[simp] theorem setIrq_BEAT (s : State) (n : Nat) (v : Bool) : (s.setIrq n v).BEAT = s.BEAT := rfl
@[simp] theorem setIrq_SQMIX (s : State) (n : Nat) (v : Bool) : (s.setIrq n v).SQMIX = s.SQMIX := rfl
@[simp] theorem setIrq_PMULT (s : State) (n : Nat) (v : Bool) : (s.setIrq n v).PMULT = s.PMULT := rfl
@[simp] theorem setIrq_LAST (s : State) (n : Nat) (v : Bool) : (s.setIrq n v).LAST = s.LAST := rfl
@[simp] theorem setIrq_DUE (s : State) (n : Nat) (v : Bool) : (s.setIrq n v).DUE = s.DUE := rfl
@[simp] theorem setIrq_BUF (s : State) (n : Nat) (v : Bool) : (s.setIrq n v).BUF = s.BUF := rfl
@[simp] theorem setIrq_T (s : State) (n : Nat) (v : Bool) : (s.setIrq n v).T = s.T := rfl
@[simp] theorem setIrq_PPH (s : State) (n : Nat) (v : Bool) : (s.setIrq n v).PPH = s.PPH := rfl
@[simp] theorem setIrq_PV (s : State) (n : Nat) (v : Bool) : (s.setIrq n v).PV = s.PV := rfl
@[simp] theorem setIrq_CLAT (s : State) (n : Nat) (v : Bool) : (s.setIrq n v).CLAT = s.CLAT := rfl
@[simp] theorem setIrq_SUM (s : State) (n : Nat) (v : Bool) : (s.setIrq n v).SUM = s.SUM := rfl
@[simp] theorem setIrq_CNT (s : State) (n : Nat) (v : Bool) : (s.setIrq n v).CNT = s.CNT := rfl
@[simp] theorem setIrq_CPH (s : State) (n : Nat) (v : Bool) : (s.setIrq n v).CPH = s.CPH := rfl
@[simp] theorem setIrq_CN (s : State) (n : Nat) (v : Bool) : (s.setIrq n v).CN = s.CN := rfl
@[simp] theorem setIrq_HIT (s : State) (n : Nat) (v : Bool) : (s.setIrq n v).HIT = s.HIT := rfl
@[simp] theorem setIrq_LLAT (s : State) (n : Nat) (v : Bool) : (s.setIrq n v).LLAT = s.LLAT := rfl
@[simp] theorem setIrq_trace (s : State) (n : Nat) (v : Bool) : (s.setIrq n v).trace = s.trace := rfl
@[simp] theorem setIrq_input (s : State) (n : Nat) (v : Bool) : (s.setIrq n v).input = s.input := rfl

/-! ### setLine -/

@[simp] theorem setLine_cfg (s : State) (n : Nat) (v : Bool) : (s.setLine n v).cfg = s.cfg := rfl
@[simp] theorem setLine_STEP (s : State) (n : Nat) (v : Bool) : (s.setLine n v).STEP = s.STEP := rfl
@[simp] theorem setLine_PHASE (s : State) (n : Nat) (v : Bool) : (s.setLine n v).PHASE = s.PHASE := rfl
@[simp] theorem setLine_GRID (s : State) (n : Nat) (v : Bool) : (s.setLine n v).GRID = s.GRID := rfl
@[simp] theorem setLine_COL (s : State) (n : Nat) (v : Bool) : (s.setLine n v).COL = s.COL := rfl
@[simp] theorem setLine_PEND (s : State) (n : Nat) (v : Bool) : (s.setLine n v).PEND = s.PEND := rfl
@[simp] theorem setLine_IRQ (s : State) (n : Nat) (v : Bool) : (s.setLine n v).IRQ = s.IRQ := rfl
@[simp] theorem setLine_LINE (s : State) (n : Nat) (v : Bool) : (s.setLine n v).LINE = s.LINE.set n v := rfl
@[simp] theorem setLine_VOL (s : State) (n : Nat) (v : Bool) : (s.setLine n v).VOL = s.VOL := rfl
@[simp] theorem setLine_BEAT (s : State) (n : Nat) (v : Bool) : (s.setLine n v).BEAT = s.BEAT := rfl
@[simp] theorem setLine_SQMIX (s : State) (n : Nat) (v : Bool) : (s.setLine n v).SQMIX = s.SQMIX := rfl
@[simp] theorem setLine_PMULT (s : State) (n : Nat) (v : Bool) : (s.setLine n v).PMULT = s.PMULT := rfl
@[simp] theorem setLine_LAST (s : State) (n : Nat) (v : Bool) : (s.setLine n v).LAST = s.LAST := rfl
@[simp] theorem setLine_DUE (s : State) (n : Nat) (v : Bool) : (s.setLine n v).DUE = s.DUE := rfl
@[simp] theorem setLine_BUF (s : State) (n : Nat) (v : Bool) : (s.setLine n v).BUF = s.BUF := rfl
@[simp] theorem setLine_T (s : State) (n : Nat) (v : Bool) : (s.setLine n v).T = s.T := rfl
@[simp] theorem setLine_PPH (s : State) (n : Nat) (v : Bool) : (s.setLine n v).PPH = s.PPH := rfl
@[simp] theorem setLine_PV (s : State) (n : Nat) (v : Bool) : (s.setLine n v).PV = s.PV := rfl
@[simp] theorem setLine_CLAT (s : State) (n : Nat) (v : Bool) : (s.setLine n v).CLAT = s.CLAT := rfl
@[simp] theorem setLine_SUM (s : State) (n : Nat) (v : Bool) : (s.setLine n v).SUM = s.SUM := rfl
@[simp] theorem setLine_CNT (s : State) (n : Nat) (v : Bool) : (s.setLine n v).CNT = s.CNT := rfl
@[simp] theorem setLine_CPH (s : State) (n : Nat) (v : Bool) : (s.setLine n v).CPH = s.CPH := rfl
@[simp] theorem setLine_CN (s : State) (n : Nat) (v : Bool) : (s.setLine n v).CN = s.CN := rfl
@[simp] theorem setLine_HIT (s : State) (n : Nat) (v : Bool) : (s.setLine n v).HIT = s.HIT := rfl
@[simp] theorem setLine_LLAT (s : State) (n : Nat) (v : Bool) : (s.setLine n v).LLAT = s.LLAT := rfl
@[simp] theorem setLine_trace (s : State) (n : Nat) (v : Bool) : (s.setLine n v).trace = s.trace := rfl
@[simp] theorem setLine_input (s : State) (n : Nat) (v : Bool) : (s.setLine n v).input = s.input := rfl

/-! ### setCell -/

@[simp] theorem setCell_cfg (s : State) (c n : Nat) (v : Bool) : (s.setCell c n v).cfg = s.cfg := rfl
@[simp] theorem setCell_STEP (s : State) (c n : Nat) (v : Bool) : (s.setCell c n v).STEP = s.STEP := rfl
@[simp] theorem setCell_PHASE (s : State) (c n : Nat) (v : Bool) : (s.setCell c n v).PHASE = s.PHASE := rfl
@[simp] theorem setCell_GRID (s : State) (c n : Nat) (v : Bool) : (s.setCell c n v).GRID = s.GRID.set c ((s.GRID.getD c []).set n v) :=
  rfl
@[simp] theorem setCell_COL (s : State) (c n : Nat) (v : Bool) : (s.setCell c n v).COL = s.COL := rfl
@[simp] theorem setCell_PEND (s : State) (c n : Nat) (v : Bool) : (s.setCell c n v).PEND = s.PEND := rfl
@[simp] theorem setCell_IRQ (s : State) (c n : Nat) (v : Bool) : (s.setCell c n v).IRQ = s.IRQ := rfl
@[simp] theorem setCell_LINE (s : State) (c n : Nat) (v : Bool) : (s.setCell c n v).LINE = s.LINE := rfl
@[simp] theorem setCell_VOL (s : State) (c n : Nat) (v : Bool) : (s.setCell c n v).VOL = s.VOL := rfl
@[simp] theorem setCell_BEAT (s : State) (c n : Nat) (v : Bool) : (s.setCell c n v).BEAT = s.BEAT := rfl
@[simp] theorem setCell_SQMIX (s : State) (c n : Nat) (v : Bool) : (s.setCell c n v).SQMIX = s.SQMIX := rfl
@[simp] theorem setCell_PMULT (s : State) (c n : Nat) (v : Bool) : (s.setCell c n v).PMULT = s.PMULT := rfl
@[simp] theorem setCell_LAST (s : State) (c n : Nat) (v : Bool) : (s.setCell c n v).LAST = s.LAST := rfl
@[simp] theorem setCell_DUE (s : State) (c n : Nat) (v : Bool) : (s.setCell c n v).DUE = s.DUE := rfl
@[simp] theorem setCell_BUF (s : State) (c n : Nat) (v : Bool) : (s.setCell c n v).BUF = s.BUF := rfl
@[simp] theorem setCell_T (s : State) (c n : Nat) (v : Bool) : (s.setCell c n v).T = s.T := rfl
@[simp] theorem setCell_PPH (s : State) (c n : Nat) (v : Bool) : (s.setCell c n v).PPH = s.PPH := rfl
@[simp] theorem setCell_PV (s : State) (c n : Nat) (v : Bool) : (s.setCell c n v).PV = s.PV := rfl
@[simp] theorem setCell_CLAT (s : State) (c n : Nat) (v : Bool) : (s.setCell c n v).CLAT = s.CLAT := rfl
@[simp] theorem setCell_SUM (s : State) (c n : Nat) (v : Bool) : (s.setCell c n v).SUM = s.SUM := rfl
@[simp] theorem setCell_CNT (s : State) (c n : Nat) (v : Bool) : (s.setCell c n v).CNT = s.CNT := rfl
@[simp] theorem setCell_CPH (s : State) (c n : Nat) (v : Bool) : (s.setCell c n v).CPH = s.CPH := rfl
@[simp] theorem setCell_CN (s : State) (c n : Nat) (v : Bool) : (s.setCell c n v).CN = s.CN := rfl
@[simp] theorem setCell_HIT (s : State) (c n : Nat) (v : Bool) : (s.setCell c n v).HIT = s.HIT := rfl
@[simp] theorem setCell_LLAT (s : State) (c n : Nat) (v : Bool) : (s.setCell c n v).LLAT = s.LLAT := rfl
@[simp] theorem setCell_trace (s : State) (c n : Nat) (v : Bool) : (s.setCell c n v).trace = s.trace := rfl
@[simp] theorem setCell_input (s : State) (c n : Nat) (v : Bool) : (s.setCell c n v).input = s.input := rfl

/-! ### setPhase -/

@[simp] theorem setPhase_cfg (s : State) (n : Nat) (r : Datum Angle) : (s.setPhase n r).cfg = s.cfg := rfl
@[simp] theorem setPhase_STEP (s : State) (n : Nat) (r : Datum Angle) : (s.setPhase n r).STEP = s.STEP := rfl
@[simp] theorem setPhase_PHASE (s : State) (n : Nat) (r : Datum Angle) : (s.setPhase n r).PHASE = s.PHASE.set n r := rfl
@[simp] theorem setPhase_GRID (s : State) (n : Nat) (r : Datum Angle) : (s.setPhase n r).GRID = s.GRID := rfl
@[simp] theorem setPhase_COL (s : State) (n : Nat) (r : Datum Angle) : (s.setPhase n r).COL = s.COL := rfl
@[simp] theorem setPhase_PEND (s : State) (n : Nat) (r : Datum Angle) : (s.setPhase n r).PEND = s.PEND := rfl
@[simp] theorem setPhase_IRQ (s : State) (n : Nat) (r : Datum Angle) : (s.setPhase n r).IRQ = s.IRQ := rfl
@[simp] theorem setPhase_LINE (s : State) (n : Nat) (r : Datum Angle) : (s.setPhase n r).LINE = s.LINE := rfl
@[simp] theorem setPhase_VOL (s : State) (n : Nat) (r : Datum Angle) : (s.setPhase n r).VOL = s.VOL := rfl
@[simp] theorem setPhase_BEAT (s : State) (n : Nat) (r : Datum Angle) : (s.setPhase n r).BEAT = s.BEAT := rfl
@[simp] theorem setPhase_SQMIX (s : State) (n : Nat) (r : Datum Angle) : (s.setPhase n r).SQMIX = s.SQMIX := rfl
@[simp] theorem setPhase_PMULT (s : State) (n : Nat) (r : Datum Angle) : (s.setPhase n r).PMULT = s.PMULT := rfl
@[simp] theorem setPhase_LAST (s : State) (n : Nat) (r : Datum Angle) : (s.setPhase n r).LAST = s.LAST := rfl
@[simp] theorem setPhase_DUE (s : State) (n : Nat) (r : Datum Angle) : (s.setPhase n r).DUE = s.DUE := rfl
@[simp] theorem setPhase_BUF (s : State) (n : Nat) (r : Datum Angle) : (s.setPhase n r).BUF = s.BUF := rfl
@[simp] theorem setPhase_T (s : State) (n : Nat) (r : Datum Angle) : (s.setPhase n r).T = s.T := rfl
@[simp] theorem setPhase_PPH (s : State) (n : Nat) (r : Datum Angle) : (s.setPhase n r).PPH = s.PPH := rfl
@[simp] theorem setPhase_PV (s : State) (n : Nat) (r : Datum Angle) : (s.setPhase n r).PV = s.PV := rfl
@[simp] theorem setPhase_CLAT (s : State) (n : Nat) (r : Datum Angle) : (s.setPhase n r).CLAT = s.CLAT := rfl
@[simp] theorem setPhase_SUM (s : State) (n : Nat) (r : Datum Angle) : (s.setPhase n r).SUM = s.SUM := rfl
@[simp] theorem setPhase_CNT (s : State) (n : Nat) (r : Datum Angle) : (s.setPhase n r).CNT = s.CNT := rfl
@[simp] theorem setPhase_CPH (s : State) (n : Nat) (r : Datum Angle) : (s.setPhase n r).CPH = s.CPH := rfl
@[simp] theorem setPhase_CN (s : State) (n : Nat) (r : Datum Angle) : (s.setPhase n r).CN = s.CN := rfl
@[simp] theorem setPhase_HIT (s : State) (n : Nat) (r : Datum Angle) : (s.setPhase n r).HIT = s.HIT := rfl
@[simp] theorem setPhase_LLAT (s : State) (n : Nat) (r : Datum Angle) : (s.setPhase n r).LLAT = s.LLAT := rfl
@[simp] theorem setPhase_trace (s : State) (n : Nat) (r : Datum Angle) : (s.setPhase n r).trace = s.trace := rfl
@[simp] theorem setPhase_input (s : State) (n : Nat) (r : Datum Angle) : (s.setPhase n r).input = s.input := rfl

/-! ### setPair -/

@[simp] theorem setPair_cfg (s : State) (y : Int) : (s.setPair y).cfg = s.cfg := rfl
@[simp] theorem setPair_STEP (s : State) (y : Int) : (s.setPair y).STEP = s.STEP := rfl
@[simp] theorem setPair_PHASE (s : State) (y : Int) : (s.setPair y).PHASE = s.PHASE := rfl
@[simp] theorem setPair_GRID (s : State) (y : Int) : (s.setPair y).GRID = s.GRID := rfl
@[simp] theorem setPair_COL (s : State) (y : Int) : (s.setPair y).COL = s.COL := rfl
@[simp] theorem setPair_PEND (s : State) (y : Int) : (s.setPair y).PEND = s.PEND := rfl
@[simp] theorem setPair_IRQ (s : State) (y : Int) : (s.setPair y).IRQ = s.IRQ := rfl
@[simp] theorem setPair_LINE (s : State) (y : Int) : (s.setPair y).LINE = s.LINE := rfl
@[simp] theorem setPair_VOL (s : State) (y : Int) : (s.setPair y).VOL = s.VOL := rfl
@[simp] theorem setPair_BEAT (s : State) (y : Int) : (s.setPair y).BEAT = s.BEAT := rfl
@[simp] theorem setPair_SQMIX (s : State) (y : Int) : (s.setPair y).SQMIX = s.SQMIX := rfl
@[simp] theorem setPair_PMULT (s : State) (y : Int) : (s.setPair y).PMULT = s.PMULT := rfl
@[simp] theorem setPair_LAST (s : State) (y : Int) : (s.setPair y).LAST = s.LAST := rfl
@[simp] theorem setPair_DUE (s : State) (y : Int) : (s.setPair y).DUE = s.DUE := rfl
@[simp] theorem setPair_BUF (s : State) (y : Int) : (s.setPair y).BUF = (s.BUF.set (2 * s.T) y).set (2 * s.T + 1) y :=
  rfl
@[simp] theorem setPair_T (s : State) (y : Int) : (s.setPair y).T = s.T := rfl
@[simp] theorem setPair_PPH (s : State) (y : Int) : (s.setPair y).PPH = s.PPH := rfl
@[simp] theorem setPair_PV (s : State) (y : Int) : (s.setPair y).PV = s.PV := rfl
@[simp] theorem setPair_CLAT (s : State) (y : Int) : (s.setPair y).CLAT = s.CLAT := rfl
@[simp] theorem setPair_SUM (s : State) (y : Int) : (s.setPair y).SUM = s.SUM := rfl
@[simp] theorem setPair_CNT (s : State) (y : Int) : (s.setPair y).CNT = s.CNT := rfl
@[simp] theorem setPair_CPH (s : State) (y : Int) : (s.setPair y).CPH = s.CPH := rfl
@[simp] theorem setPair_CN (s : State) (y : Int) : (s.setPair y).CN = s.CN := rfl
@[simp] theorem setPair_HIT (s : State) (y : Int) : (s.setPair y).HIT = s.HIT := rfl
@[simp] theorem setPair_LLAT (s : State) (y : Int) : (s.setPair y).LLAT = s.LLAT := rfl
@[simp] theorem setPair_trace (s : State) (y : Int) : (s.setPair y).trace = s.trace := rfl
@[simp] theorem setPair_input (s : State) (y : Int) : (s.setPair y).input = s.input := rfl

/-! ### requestEdge -/

@[simp] theorem requestEdge_cfg (s : State) (n : Nat) : (s.requestEdge n).cfg = s.cfg := rfl
@[simp] theorem requestEdge_STEP (s : State) (n : Nat) : (s.requestEdge n).STEP = s.STEP := rfl
@[simp] theorem requestEdge_PHASE (s : State) (n : Nat) : (s.requestEdge n).PHASE = s.PHASE := rfl
@[simp] theorem requestEdge_GRID (s : State) (n : Nat) : (s.requestEdge n).GRID = s.GRID := rfl
@[simp] theorem requestEdge_COL (s : State) (n : Nat) : (s.requestEdge n).COL = s.COL := rfl
@[simp] theorem requestEdge_PEND (s : State) (n : Nat) : (s.requestEdge n).PEND = s.PEND := rfl
@[simp] theorem requestEdge_IRQ (s : State) (n : Nat) : (s.requestEdge n).IRQ = s.IRQ.set n true := rfl
@[simp] theorem requestEdge_LINE (s : State) (n : Nat) : (s.requestEdge n).LINE = s.LINE := rfl
@[simp] theorem requestEdge_VOL (s : State) (n : Nat) : (s.requestEdge n).VOL = s.VOL := rfl
@[simp] theorem requestEdge_BEAT (s : State) (n : Nat) : (s.requestEdge n).BEAT = s.BEAT := rfl
@[simp] theorem requestEdge_SQMIX (s : State) (n : Nat) : (s.requestEdge n).SQMIX = s.SQMIX := rfl
@[simp] theorem requestEdge_PMULT (s : State) (n : Nat) : (s.requestEdge n).PMULT = s.PMULT := rfl
@[simp] theorem requestEdge_LAST (s : State) (n : Nat) : (s.requestEdge n).LAST = s.LAST := rfl
@[simp] theorem requestEdge_DUE (s : State) (n : Nat) : (s.requestEdge n).DUE = s.DUE := rfl
@[simp] theorem requestEdge_BUF (s : State) (n : Nat) : (s.requestEdge n).BUF = s.BUF := rfl
@[simp] theorem requestEdge_T (s : State) (n : Nat) : (s.requestEdge n).T = s.T := rfl
@[simp] theorem requestEdge_PPH (s : State) (n : Nat) : (s.requestEdge n).PPH = s.PPH := rfl
@[simp] theorem requestEdge_PV (s : State) (n : Nat) : (s.requestEdge n).PV = s.PV := rfl
@[simp] theorem requestEdge_CLAT (s : State) (n : Nat) : (s.requestEdge n).CLAT = s.CLAT := rfl
@[simp] theorem requestEdge_SUM (s : State) (n : Nat) : (s.requestEdge n).SUM = s.SUM := rfl
@[simp] theorem requestEdge_CNT (s : State) (n : Nat) : (s.requestEdge n).CNT = s.CNT := rfl
@[simp] theorem requestEdge_CPH (s : State) (n : Nat) : (s.requestEdge n).CPH = s.CPH := rfl
@[simp] theorem requestEdge_CN (s : State) (n : Nat) : (s.requestEdge n).CN = s.CN := rfl
@[simp] theorem requestEdge_HIT (s : State) (n : Nat) : (s.requestEdge n).HIT = s.HIT := rfl
@[simp] theorem requestEdge_LLAT (s : State) (n : Nat) : (s.requestEdge n).LLAT = s.LLAT := rfl
@[simp] theorem requestEdge_trace (s : State) (n : Nat) : (s.requestEdge n).trace = s.trace := rfl
@[simp] theorem requestEdge_input (s : State) (n : Nat) : (s.requestEdge n).input = s.input := rfl

/-! ### serveEdge -/

@[simp] theorem serveEdge_cfg (s : State) (n : Nat) : (s.serveEdge n).cfg = s.cfg := rfl
@[simp] theorem serveEdge_STEP (s : State) (n : Nat) : (s.serveEdge n).STEP = s.STEP := rfl
@[simp] theorem serveEdge_PHASE (s : State) (n : Nat) : (s.serveEdge n).PHASE = s.PHASE := rfl
@[simp] theorem serveEdge_GRID (s : State) (n : Nat) : (s.serveEdge n).GRID = s.GRID := rfl
@[simp] theorem serveEdge_COL (s : State) (n : Nat) : (s.serveEdge n).COL = s.COL := rfl
@[simp] theorem serveEdge_PEND (s : State) (n : Nat) : (s.serveEdge n).PEND = s.PEND.set n true := rfl
@[simp] theorem serveEdge_IRQ (s : State) (n : Nat) : (s.serveEdge n).IRQ = s.IRQ.set n false := rfl
@[simp] theorem serveEdge_LINE (s : State) (n : Nat) : (s.serveEdge n).LINE = s.LINE := rfl
@[simp] theorem serveEdge_VOL (s : State) (n : Nat) : (s.serveEdge n).VOL = s.VOL := rfl
@[simp] theorem serveEdge_BEAT (s : State) (n : Nat) : (s.serveEdge n).BEAT = s.BEAT := rfl
@[simp] theorem serveEdge_SQMIX (s : State) (n : Nat) : (s.serveEdge n).SQMIX = s.SQMIX := rfl
@[simp] theorem serveEdge_PMULT (s : State) (n : Nat) : (s.serveEdge n).PMULT = s.PMULT := rfl
@[simp] theorem serveEdge_LAST (s : State) (n : Nat) : (s.serveEdge n).LAST = s.LAST := rfl
@[simp] theorem serveEdge_DUE (s : State) (n : Nat) : (s.serveEdge n).DUE = s.DUE := rfl
@[simp] theorem serveEdge_BUF (s : State) (n : Nat) : (s.serveEdge n).BUF = s.BUF := rfl
@[simp] theorem serveEdge_T (s : State) (n : Nat) : (s.serveEdge n).T = s.T := rfl
@[simp] theorem serveEdge_PPH (s : State) (n : Nat) : (s.serveEdge n).PPH = s.PPH := rfl
@[simp] theorem serveEdge_PV (s : State) (n : Nat) : (s.serveEdge n).PV = s.PV := rfl
@[simp] theorem serveEdge_CLAT (s : State) (n : Nat) : (s.serveEdge n).CLAT = s.CLAT := rfl
@[simp] theorem serveEdge_SUM (s : State) (n : Nat) : (s.serveEdge n).SUM = s.SUM := rfl
@[simp] theorem serveEdge_CNT (s : State) (n : Nat) : (s.serveEdge n).CNT = s.CNT := rfl
@[simp] theorem serveEdge_CPH (s : State) (n : Nat) : (s.serveEdge n).CPH = s.CPH := rfl
@[simp] theorem serveEdge_CN (s : State) (n : Nat) : (s.serveEdge n).CN = s.CN := rfl
@[simp] theorem serveEdge_HIT (s : State) (n : Nat) : (s.serveEdge n).HIT = s.HIT := rfl
@[simp] theorem serveEdge_LLAT (s : State) (n : Nat) : (s.serveEdge n).LLAT = s.LLAT := rfl
@[simp] theorem serveEdge_trace (s : State) (n : Nat) : (s.serveEdge n).trace = s.trace := rfl
@[simp] theorem serveEdge_input (s : State) (n : Nat) : (s.serveEdge n).input = s.input := rfl

/-! ### emit -/

@[simp] theorem emit_cfg (s : State) (es : List Event) : (s.emit es).cfg = s.cfg := rfl
@[simp] theorem emit_STEP (s : State) (es : List Event) : (s.emit es).STEP = s.STEP := rfl
@[simp] theorem emit_PHASE (s : State) (es : List Event) : (s.emit es).PHASE = s.PHASE := rfl
@[simp] theorem emit_GRID (s : State) (es : List Event) : (s.emit es).GRID = s.GRID := rfl
@[simp] theorem emit_COL (s : State) (es : List Event) : (s.emit es).COL = s.COL := rfl
@[simp] theorem emit_PEND (s : State) (es : List Event) : (s.emit es).PEND = s.PEND := rfl
@[simp] theorem emit_IRQ (s : State) (es : List Event) : (s.emit es).IRQ = s.IRQ := rfl
@[simp] theorem emit_LINE (s : State) (es : List Event) : (s.emit es).LINE = s.LINE := rfl
@[simp] theorem emit_VOL (s : State) (es : List Event) : (s.emit es).VOL = s.VOL := rfl
@[simp] theorem emit_BEAT (s : State) (es : List Event) : (s.emit es).BEAT = s.BEAT := rfl
@[simp] theorem emit_SQMIX (s : State) (es : List Event) : (s.emit es).SQMIX = s.SQMIX := rfl
@[simp] theorem emit_PMULT (s : State) (es : List Event) : (s.emit es).PMULT = s.PMULT := rfl
@[simp] theorem emit_LAST (s : State) (es : List Event) : (s.emit es).LAST = s.LAST := rfl
@[simp] theorem emit_DUE (s : State) (es : List Event) : (s.emit es).DUE = s.DUE := rfl
@[simp] theorem emit_BUF (s : State) (es : List Event) : (s.emit es).BUF = s.BUF := rfl
@[simp] theorem emit_T (s : State) (es : List Event) : (s.emit es).T = s.T := rfl
@[simp] theorem emit_PPH (s : State) (es : List Event) : (s.emit es).PPH = s.PPH := rfl
@[simp] theorem emit_PV (s : State) (es : List Event) : (s.emit es).PV = s.PV := rfl
@[simp] theorem emit_CLAT (s : State) (es : List Event) : (s.emit es).CLAT = s.CLAT := rfl
@[simp] theorem emit_SUM (s : State) (es : List Event) : (s.emit es).SUM = s.SUM := rfl
@[simp] theorem emit_CNT (s : State) (es : List Event) : (s.emit es).CNT = s.CNT := rfl
@[simp] theorem emit_CPH (s : State) (es : List Event) : (s.emit es).CPH = s.CPH := rfl
@[simp] theorem emit_CN (s : State) (es : List Event) : (s.emit es).CN = s.CN := rfl
@[simp] theorem emit_HIT (s : State) (es : List Event) : (s.emit es).HIT = s.HIT := rfl
@[simp] theorem emit_LLAT (s : State) (es : List Event) : (s.emit es).LLAT = s.LLAT := rfl
@[simp] theorem emit_trace (s : State) (es : List Event) : (s.emit es).trace = s.trace ++ es := rfl
@[simp] theorem emit_input (s : State) (es : List Event) : (s.emit es).input = s.input := rfl

/-! ### renderVoice -/

@[simp] theorem renderVoice_cfg (s : State) (n : Nat) (pm q : ℚ) : (s.renderVoice n pm q).cfg = s.cfg := rfl
@[simp] theorem renderVoice_STEP (s : State) (n : Nat) (pm q : ℚ) : (s.renderVoice n pm q).STEP = s.STEP := rfl
@[simp] theorem renderVoice_PHASE (s : State) (n : Nat) (pm q : ℚ) : (s.renderVoice n pm q).PHASE = s.PHASE.set n (advancePhase s.cfg.NUM (s.phaseAt n) (s.stepAt n) pm) :=
  rfl
@[simp] theorem renderVoice_GRID (s : State) (n : Nat) (pm q : ℚ) : (s.renderVoice n pm q).GRID = s.GRID := rfl
@[simp] theorem renderVoice_COL (s : State) (n : Nat) (pm q : ℚ) : (s.renderVoice n pm q).COL = s.COL := rfl
@[simp] theorem renderVoice_PEND (s : State) (n : Nat) (pm q : ℚ) : (s.renderVoice n pm q).PEND = s.PEND := rfl
@[simp] theorem renderVoice_IRQ (s : State) (n : Nat) (pm q : ℚ) : (s.renderVoice n pm q).IRQ = s.IRQ := rfl
@[simp] theorem renderVoice_LINE (s : State) (n : Nat) (pm q : ℚ) : (s.renderVoice n pm q).LINE = s.LINE := rfl
@[simp] theorem renderVoice_VOL (s : State) (n : Nat) (pm q : ℚ) : (s.renderVoice n pm q).VOL = s.VOL := rfl
@[simp] theorem renderVoice_BEAT (s : State) (n : Nat) (pm q : ℚ) : (s.renderVoice n pm q).BEAT = s.BEAT := rfl
@[simp] theorem renderVoice_SQMIX (s : State) (n : Nat) (pm q : ℚ) : (s.renderVoice n pm q).SQMIX = s.SQMIX := rfl
@[simp] theorem renderVoice_PMULT (s : State) (n : Nat) (pm q : ℚ) : (s.renderVoice n pm q).PMULT = s.PMULT := rfl
@[simp] theorem renderVoice_LAST (s : State) (n : Nat) (pm q : ℚ) : (s.renderVoice n pm q).LAST = s.LAST := rfl
@[simp] theorem renderVoice_DUE (s : State) (n : Nat) (pm q : ℚ) : (s.renderVoice n pm q).DUE = s.DUE := rfl
@[simp] theorem renderVoice_BUF (s : State) (n : Nat) (pm q : ℚ) : (s.renderVoice n pm q).BUF = s.BUF := rfl
@[simp] theorem renderVoice_T (s : State) (n : Nat) (pm q : ℚ) : (s.renderVoice n pm q).T = s.T := rfl
@[simp] theorem renderVoice_PPH (s : State) (n : Nat) (pm q : ℚ) : (s.renderVoice n pm q).PPH = s.PPH := rfl
@[simp] theorem renderVoice_PV (s : State) (n : Nat) (pm q : ℚ) : (s.renderVoice n pm q).PV = s.PV := rfl
@[simp] theorem renderVoice_CLAT (s : State) (n : Nat) (pm q : ℚ) : (s.renderVoice n pm q).CLAT = s.CLAT := rfl
@[simp] theorem renderVoice_SUM (s : State) (n : Nat) (pm q : ℚ) : (s.renderVoice n pm q).SUM = addShaped s.cfg.NUM s.SUM s.cfg.SIGN0 (advancePhase s.cfg.NUM (s.phaseAt n) (s.stepAt n) pm) q :=
  rfl
@[simp] theorem renderVoice_CNT (s : State) (n : Nat) (pm q : ℚ) : (s.renderVoice n pm q).CNT = s.CNT + 1 := rfl
@[simp] theorem renderVoice_CPH (s : State) (n : Nat) (pm q : ℚ) : (s.renderVoice n pm q).CPH = s.CPH := rfl
@[simp] theorem renderVoice_CN (s : State) (n : Nat) (pm q : ℚ) : (s.renderVoice n pm q).CN = s.CN := rfl
@[simp] theorem renderVoice_HIT (s : State) (n : Nat) (pm q : ℚ) : (s.renderVoice n pm q).HIT = s.HIT := rfl
@[simp] theorem renderVoice_LLAT (s : State) (n : Nat) (pm q : ℚ) : (s.renderVoice n pm q).LLAT = s.LLAT := rfl
@[simp] theorem renderVoice_trace (s : State) (n : Nat) (pm q : ℚ) : (s.renderVoice n pm q).trace = s.trace := rfl
@[simp] theorem renderVoice_input (s : State) (n : Nat) (pm q : ℚ) : (s.renderVoice n pm q).input = s.input := rfl

/-! ### afterVoice -/

@[simp] theorem afterVoice_cfg (s : State) (n : Nat) : (s.afterVoice n).cfg = s.cfg := by unfold afterVoice; split <;> rfl
@[simp] theorem afterVoice_STEP (s : State) (n : Nat) : (s.afterVoice n).STEP = s.STEP := by unfold afterVoice; split <;> rfl
@[simp] theorem afterVoice_PHASE (s : State) (n : Nat) : (s.afterVoice n).PHASE = s.PHASE := by unfold afterVoice; split <;> rfl
@[simp] theorem afterVoice_GRID (s : State) (n : Nat) : (s.afterVoice n).GRID = s.GRID := by unfold afterVoice; split <;> rfl
@[simp] theorem afterVoice_COL (s : State) (n : Nat) : (s.afterVoice n).COL = s.COL := by unfold afterVoice; split <;> rfl
@[simp] theorem afterVoice_PEND (s : State) (n : Nat) : (s.afterVoice n).PEND = s.PEND := by unfold afterVoice; split <;> rfl
@[simp] theorem afterVoice_IRQ (s : State) (n : Nat) : (s.afterVoice n).IRQ = s.IRQ := by unfold afterVoice; split <;> rfl
@[simp] theorem afterVoice_LINE (s : State) (n : Nat) : (s.afterVoice n).LINE = s.LINE := by unfold afterVoice; split <;> rfl
@[simp] theorem afterVoice_VOL (s : State) (n : Nat) : (s.afterVoice n).VOL = s.VOL := by unfold afterVoice; split <;> rfl
@[simp] theorem afterVoice_BEAT (s : State) (n : Nat) : (s.afterVoice n).BEAT = s.BEAT := by unfold afterVoice; split <;> rfl
@[simp] theorem afterVoice_SQMIX (s : State) (n : Nat) : (s.afterVoice n).SQMIX = s.SQMIX := by unfold afterVoice; split <;> rfl
@[simp] theorem afterVoice_PMULT (s : State) (n : Nat) : (s.afterVoice n).PMULT = s.PMULT := by unfold afterVoice; split <;> rfl
@[simp] theorem afterVoice_LAST (s : State) (n : Nat) : (s.afterVoice n).LAST = s.LAST := by unfold afterVoice; split <;> rfl
@[simp] theorem afterVoice_DUE (s : State) (n : Nat) : (s.afterVoice n).DUE = s.DUE := by unfold afterVoice; split <;> rfl
@[simp] theorem afterVoice_BUF (s : State) (n : Nat) : (s.afterVoice n).BUF = s.BUF := by unfold afterVoice; split <;> rfl
@[simp] theorem afterVoice_T (s : State) (n : Nat) : (s.afterVoice n).T = s.T := by unfold afterVoice; split <;> rfl
@[simp] theorem afterVoice_PPH (s : State) (n : Nat) : (s.afterVoice n).PPH = if n + 1 = s.cfg.N then .finish else s.PPH :=
  by unfold afterVoice; split <;> rfl
@[simp] theorem afterVoice_PV (s : State) (n : Nat) : (s.afterVoice n).PV = if n + 1 = s.cfg.N then s.PV else n + 1 :=
  by unfold afterVoice; split <;> rfl
@[simp] theorem afterVoice_CLAT (s : State) (n : Nat) : (s.afterVoice n).CLAT = s.CLAT := by unfold afterVoice; split <;> rfl
@[simp] theorem afterVoice_SUM (s : State) (n : Nat) : (s.afterVoice n).SUM = s.SUM := by unfold afterVoice; split <;> rfl
@[simp] theorem afterVoice_CNT (s : State) (n : Nat) : (s.afterVoice n).CNT = s.CNT := by unfold afterVoice; split <;> rfl
@[simp] theorem afterVoice_CPH (s : State) (n : Nat) : (s.afterVoice n).CPH = s.CPH := by unfold afterVoice; split <;> rfl
@[simp] theorem afterVoice_CN (s : State) (n : Nat) : (s.afterVoice n).CN = s.CN := by unfold afterVoice; split <;> rfl
@[simp] theorem afterVoice_HIT (s : State) (n : Nat) : (s.afterVoice n).HIT = s.HIT := by unfold afterVoice; split <;> rfl
@[simp] theorem afterVoice_LLAT (s : State) (n : Nat) : (s.afterVoice n).LLAT = s.LLAT := by unfold afterVoice; split <;> rfl
@[simp] theorem afterVoice_trace (s : State) (n : Nat) : (s.afterVoice n).trace = s.trace := by unfold afterVoice; split <;> rfl
@[simp] theorem afterVoice_input (s : State) (n : Nat) : (s.afterVoice n).input = s.input := by unfold afterVoice; split <;> rfl

/-! ### afterPrime -/

@[simp] theorem afterPrime_cfg (s : State) (n : Nat) : (s.afterPrime n).cfg = s.cfg := by unfold afterPrime; split <;> rfl
@[simp] theorem afterPrime_STEP (s : State) (n : Nat) : (s.afterPrime n).STEP = s.STEP := by unfold afterPrime; split <;> rfl
@[simp] theorem afterPrime_PHASE (s : State) (n : Nat) : (s.afterPrime n).PHASE = s.PHASE := by unfold afterPrime; split <;> rfl
@[simp] theorem afterPrime_GRID (s : State) (n : Nat) : (s.afterPrime n).GRID = s.GRID := by unfold afterPrime; split <;> rfl
@[simp] theorem afterPrime_COL (s : State) (n : Nat) : (s.afterPrime n).COL = s.COL := by unfold afterPrime; split <;> rfl
@[simp] theorem afterPrime_PEND (s : State) (n : Nat) : (s.afterPrime n).PEND = s.PEND := by unfold afterPrime; split <;> rfl
@[simp] theorem afterPrime_IRQ (s : State) (n : Nat) : (s.afterPrime n).IRQ = s.IRQ := by unfold afterPrime; split <;> rfl
@[simp] theorem afterPrime_LINE (s : State) (n : Nat) : (s.afterPrime n).LINE = s.LINE := by unfold afterPrime; split <;> rfl
@[simp] theorem afterPrime_VOL (s : State) (n : Nat) : (s.afterPrime n).VOL = s.VOL := by unfold afterPrime; split <;> rfl
@[simp] theorem afterPrime_BEAT (s : State) (n : Nat) : (s.afterPrime n).BEAT = s.BEAT := by unfold afterPrime; split <;> rfl
@[simp] theorem afterPrime_SQMIX (s : State) (n : Nat) : (s.afterPrime n).SQMIX = s.SQMIX := by unfold afterPrime; split <;> rfl
@[simp] theorem afterPrime_PMULT (s : State) (n : Nat) : (s.afterPrime n).PMULT = s.PMULT := by unfold afterPrime; split <;> rfl
@[simp] theorem afterPrime_LAST (s : State) (n : Nat) : (s.afterPrime n).LAST = s.LAST := by unfold afterPrime; split <;> rfl
@[simp] theorem afterPrime_DUE (s : State) (n : Nat) : (s.afterPrime n).DUE = s.DUE := by unfold afterPrime; split <;> rfl
@[simp] theorem afterPrime_BUF (s : State) (n : Nat) : (s.afterPrime n).BUF = s.BUF := by unfold afterPrime; split <;> rfl
@[simp] theorem afterPrime_T (s : State) (n : Nat) : (s.afterPrime n).T = s.T := by unfold afterPrime; split <;> rfl
@[simp] theorem afterPrime_PPH (s : State) (n : Nat) : (s.afterPrime n).PPH = s.PPH := by unfold afterPrime; split <;> rfl
@[simp] theorem afterPrime_PV (s : State) (n : Nat) : (s.afterPrime n).PV = s.PV := by unfold afterPrime; split <;> rfl
@[simp] theorem afterPrime_CLAT (s : State) (n : Nat) : (s.afterPrime n).CLAT = s.CLAT := by unfold afterPrime; split <;> rfl
@[simp] theorem afterPrime_SUM (s : State) (n : Nat) : (s.afterPrime n).SUM = s.SUM := by unfold afterPrime; split <;> rfl
@[simp] theorem afterPrime_CNT (s : State) (n : Nat) : (s.afterPrime n).CNT = s.CNT := by unfold afterPrime; split <;> rfl
@[simp] theorem afterPrime_CPH (s : State) (n : Nat) : (s.afterPrime n).CPH = if n + 1 = s.cfg.N then .finish else .chk :=
  by unfold afterPrime; split <;> rfl
@[simp] theorem afterPrime_CN (s : State) (n : Nat) : (s.afterPrime n).CN = if n + 1 = s.cfg.N then s.CN else n + 1 :=
  by unfold afterPrime; split <;> rfl
@[simp] theorem afterPrime_HIT (s : State) (n : Nat) : (s.afterPrime n).HIT = s.HIT := by unfold afterPrime; split <;> rfl
@[simp] theorem afterPrime_LLAT (s : State) (n : Nat) : (s.afterPrime n).LLAT = s.LLAT := by unfold afterPrime; split <;> rfl
@[simp] theorem afterPrime_trace (s : State) (n : Nat) : (s.afterPrime n).trace = s.trace := by unfold afterPrime; split <;> rfl
@[simp] theorem afterPrime_input (s : State) (n : Nat) : (s.afterPrime n).input = s.input := by unfold afterPrime; split <;> rfl

/-! ### consume -/

@[simp] theorem consume_cfg (s : State) (n : Nat) : (s.consume n).cfg = s.cfg := by unfold consume; split <;> rfl
@[simp] theorem consume_STEP (s : State) (n : Nat) : (s.consume n).STEP = s.STEP := by unfold consume; split <;> rfl
@[simp] theorem consume_PHASE (s : State) (n : Nat) : (s.consume n).PHASE = s.PHASE := by unfold consume; split <;> rfl
@[simp] theorem consume_GRID (s : State) (n : Nat) : (s.consume n).GRID = if s.pendAt n then s.GRID.set s.COL ((s.GRID.getD s.COL []).set n (!s.cell s.COL n)) else s.GRID :=
  by unfold consume; split <;> rfl
@[simp] theorem consume_COL (s : State) (n : Nat) : (s.consume n).COL = s.COL := by unfold consume; split <;> rfl
@[simp] theorem consume_PEND (s : State) (n : Nat) : (s.consume n).PEND = if s.pendAt n then s.PEND.set n false else s.PEND :=
  by unfold consume; split <;> rfl
@[simp] theorem consume_IRQ (s : State) (n : Nat) : (s.consume n).IRQ = s.IRQ := by unfold consume; split <;> rfl
@[simp] theorem consume_LINE (s : State) (n : Nat) : (s.consume n).LINE = s.LINE := by unfold consume; split <;> rfl
@[simp] theorem consume_VOL (s : State) (n : Nat) : (s.consume n).VOL = s.VOL := by unfold consume; split <;> rfl
@[simp] theorem consume_BEAT (s : State) (n : Nat) : (s.consume n).BEAT = s.BEAT := by unfold consume; split <;> rfl
@[simp] theorem consume_SQMIX (s : State) (n : Nat) : (s.consume n).SQMIX = s.SQMIX := by unfold consume; split <;> rfl
@[simp] theorem consume_PMULT (s : State) (n : Nat) : (s.consume n).PMULT = s.PMULT := by unfold consume; split <;> rfl
@[simp] theorem consume_LAST (s : State) (n : Nat) : (s.consume n).LAST = s.LAST := by unfold consume; split <;> rfl
@[simp] theorem consume_DUE (s : State) (n : Nat) : (s.consume n).DUE = s.DUE := by unfold consume; split <;> rfl
@[simp] theorem consume_BUF (s : State) (n : Nat) : (s.consume n).BUF = s.BUF := by unfold consume; split <;> rfl
@[simp] theorem consume_T (s : State) (n : Nat) : (s.consume n).T = s.T := by unfold consume; split <;> rfl
@[simp] theorem consume_PPH (s : State) (n : Nat) : (s.consume n).PPH = s.PPH := by unfold consume; split <;> rfl
@[simp] theorem consume_PV (s : State) (n : Nat) : (s.consume n).PV = s.PV := by unfold consume; split <;> rfl
@[simp] theorem consume_CLAT (s : State) (n : Nat) : (s.consume n).CLAT = s.CLAT := by unfold consume; split <;> rfl
@[simp] theorem consume_SUM (s : State) (n : Nat) : (s.consume n).SUM = s.SUM := by unfold consume; split <;> rfl
@[simp] theorem consume_CNT (s : State) (n : Nat) : (s.consume n).CNT = s.CNT := by unfold consume; split <;> rfl
@[simp] theorem consume_CPH (s : State) (n : Nat) : (s.consume n).CPH = s.CPH := by unfold consume; split <;> rfl
@[simp] theorem consume_CN (s : State) (n : Nat) : (s.consume n).CN = s.CN := by unfold consume; split <;> rfl
@[simp] theorem consume_HIT (s : State) (n : Nat) : (s.consume n).HIT = s.HIT := by unfold consume; split <;> rfl
@[simp] theorem consume_LLAT (s : State) (n : Nat) : (s.consume n).LLAT = s.LLAT := by unfold consume; split <;> rfl
@[simp] theorem consume_trace (s : State) (n : Nat) : (s.consume n).trace = s.trace := by unfold consume; split <;> rfl
@[simp] theorem consume_input (s : State) (n : Nat) : (s.consume n).input = s.input := by unfold consume; split <;> rfl

/-! ### reprime -/

@[simp] theorem reprime_cfg (s : State) (n : Nat) : (s.reprime n).cfg = s.cfg := by unfold reprime; split <;> rfl
@[simp] theorem reprime_STEP (s : State) (n : Nat) : (s.reprime n).STEP = s.STEP := by unfold reprime; split <;> rfl
@[simp] theorem reprime_PHASE (s : State) (n : Nat) : (s.reprime n).PHASE = s.PHASE := by unfold reprime; split <;> rfl
@[simp] theorem reprime_GRID (s : State) (n : Nat) : (s.reprime n).GRID = s.GRID := by unfold reprime; split <;> rfl
@[simp] theorem reprime_COL (s : State) (n : Nat) : (s.reprime n).COL = s.COL := by unfold reprime; split <;> rfl
@[simp] theorem reprime_PEND (s : State) (n : Nat) : (s.reprime n).PEND = if s.primes then s.PEND.set n s.LLAT else s.PEND :=
  by unfold reprime; split <;> rfl
@[simp] theorem reprime_IRQ (s : State) (n : Nat) : (s.reprime n).IRQ = s.IRQ := by unfold reprime; split <;> rfl
@[simp] theorem reprime_LINE (s : State) (n : Nat) : (s.reprime n).LINE = s.LINE := by unfold reprime; split <;> rfl
@[simp] theorem reprime_VOL (s : State) (n : Nat) : (s.reprime n).VOL = s.VOL := by unfold reprime; split <;> rfl
@[simp] theorem reprime_BEAT (s : State) (n : Nat) : (s.reprime n).BEAT = s.BEAT := by unfold reprime; split <;> rfl
@[simp] theorem reprime_SQMIX (s : State) (n : Nat) : (s.reprime n).SQMIX = s.SQMIX := by unfold reprime; split <;> rfl
@[simp] theorem reprime_PMULT (s : State) (n : Nat) : (s.reprime n).PMULT = s.PMULT := by unfold reprime; split <;> rfl
@[simp] theorem reprime_LAST (s : State) (n : Nat) : (s.reprime n).LAST = s.LAST := by unfold reprime; split <;> rfl
@[simp] theorem reprime_DUE (s : State) (n : Nat) : (s.reprime n).DUE = s.DUE := by unfold reprime; split <;> rfl
@[simp] theorem reprime_BUF (s : State) (n : Nat) : (s.reprime n).BUF = s.BUF := by unfold reprime; split <;> rfl
@[simp] theorem reprime_T (s : State) (n : Nat) : (s.reprime n).T = s.T := by unfold reprime; split <;> rfl
@[simp] theorem reprime_PPH (s : State) (n : Nat) : (s.reprime n).PPH = s.PPH := by unfold reprime; split <;> rfl
@[simp] theorem reprime_PV (s : State) (n : Nat) : (s.reprime n).PV = s.PV := by unfold reprime; split <;> rfl
@[simp] theorem reprime_CLAT (s : State) (n : Nat) : (s.reprime n).CLAT = s.CLAT := by unfold reprime; split <;> rfl
@[simp] theorem reprime_SUM (s : State) (n : Nat) : (s.reprime n).SUM = s.SUM := by unfold reprime; split <;> rfl
@[simp] theorem reprime_CNT (s : State) (n : Nat) : (s.reprime n).CNT = s.CNT := by unfold reprime; split <;> rfl
@[simp] theorem reprime_CPH (s : State) (n : Nat) : (s.reprime n).CPH = s.CPH := by unfold reprime; split <;> rfl
@[simp] theorem reprime_CN (s : State) (n : Nat) : (s.reprime n).CN = s.CN := by unfold reprime; split <;> rfl
@[simp] theorem reprime_HIT (s : State) (n : Nat) : (s.reprime n).HIT = s.HIT := by unfold reprime; split <;> rfl
@[simp] theorem reprime_LLAT (s : State) (n : Nat) : (s.reprime n).LLAT = s.LLAT := by unfold reprime; split <;> rfl
@[simp] theorem reprime_trace (s : State) (n : Nat) : (s.reprime n).trace = s.trace := by unfold reprime; split <;> rfl
@[simp] theorem reprime_input (s : State) (n : Nat) : (s.reprime n).input = s.input := by unfold reprime; split <;> rfl

/-! ### writeCtrl -/

@[simp] theorem writeCtrl_cfg (s : State) (p : CtrlReg) (v : Nat) : (s.writeCtrl p v).cfg = s.cfg := by cases p <;> rfl
@[simp] theorem writeCtrl_STEP (s : State) (p : CtrlReg) (v : Nat) : (s.writeCtrl p v).STEP = s.STEP := by cases p <;> rfl
@[simp] theorem writeCtrl_PHASE (s : State) (p : CtrlReg) (v : Nat) : (s.writeCtrl p v).PHASE = s.PHASE := by cases p <;> rfl
@[simp] theorem writeCtrl_GRID (s : State) (p : CtrlReg) (v : Nat) : (s.writeCtrl p v).GRID = s.GRID := by cases p <;> rfl
@[simp] theorem writeCtrl_COL (s : State) (p : CtrlReg) (v : Nat) : (s.writeCtrl p v).COL = s.COL := by cases p <;> rfl
@[simp] theorem writeCtrl_PEND (s : State) (p : CtrlReg) (v : Nat) : (s.writeCtrl p v).PEND = s.PEND := by cases p <;> rfl
@[simp] theorem writeCtrl_IRQ (s : State) (p : CtrlReg) (v : Nat) : (s.writeCtrl p v).IRQ = s.IRQ := by cases p <;> rfl
@[simp] theorem writeCtrl_LINE (s : State) (p : CtrlReg) (v : Nat) : (s.writeCtrl p v).LINE = s.LINE := by cases p <;> rfl
@[simp] theorem writeCtrl_VOL (s : State) (p : CtrlReg) (v : Nat) : (s.writeCtrl p v).VOL = if p = .vol then some (codeFraction v) else s.VOL :=
  by cases p <;> rfl
@[simp] theorem writeCtrl_BEAT (s : State) (p : CtrlReg) (v : Nat) : (s.writeCtrl p v).BEAT = if p = .beat then some v else s.BEAT :=
  by cases p <;> rfl
@[simp] theorem writeCtrl_SQMIX (s : State) (p : CtrlReg) (v : Nat) : (s.writeCtrl p v).SQMIX = if p = .sqmix then some (codeFraction v) else s.SQMIX :=
  by cases p <;> rfl
@[simp] theorem writeCtrl_PMULT (s : State) (p : CtrlReg) (v : Nat) : (s.writeCtrl p v).PMULT = if p = .pmult then some (codeMultiplier v) else s.PMULT :=
  by cases p <;> rfl
@[simp] theorem writeCtrl_LAST (s : State) (p : CtrlReg) (v : Nat) : (s.writeCtrl p v).LAST = s.LAST := by cases p <;> rfl
@[simp] theorem writeCtrl_DUE (s : State) (p : CtrlReg) (v : Nat) : (s.writeCtrl p v).DUE = s.DUE := by cases p <;> rfl
@[simp] theorem writeCtrl_BUF (s : State) (p : CtrlReg) (v : Nat) : (s.writeCtrl p v).BUF = s.BUF := by cases p <;> rfl
@[simp] theorem writeCtrl_T (s : State) (p : CtrlReg) (v : Nat) : (s.writeCtrl p v).T = s.T := by cases p <;> rfl
@[simp] theorem writeCtrl_PPH (s : State) (p : CtrlReg) (v : Nat) : (s.writeCtrl p v).PPH = s.PPH := by cases p <;> rfl
@[simp] theorem writeCtrl_PV (s : State) (p : CtrlReg) (v : Nat) : (s.writeCtrl p v).PV = s.PV := by cases p <;> rfl
@[simp] theorem writeCtrl_CLAT (s : State) (p : CtrlReg) (v : Nat) : (s.writeCtrl p v).CLAT = s.CLAT := by cases p <;> rfl
@[simp] theorem writeCtrl_SUM (s : State) (p : CtrlReg) (v : Nat) : (s.writeCtrl p v).SUM = s.SUM := by cases p <;> rfl
@[simp] theorem writeCtrl_CNT (s : State) (p : CtrlReg) (v : Nat) : (s.writeCtrl p v).CNT = s.CNT := by cases p <;> rfl
@[simp] theorem writeCtrl_CPH (s : State) (p : CtrlReg) (v : Nat) : (s.writeCtrl p v).CPH = s.CPH := by cases p <;> rfl
@[simp] theorem writeCtrl_CN (s : State) (p : CtrlReg) (v : Nat) : (s.writeCtrl p v).CN = s.CN := by cases p <;> rfl
@[simp] theorem writeCtrl_HIT (s : State) (p : CtrlReg) (v : Nat) : (s.writeCtrl p v).HIT = s.HIT := by cases p <;> rfl
@[simp] theorem writeCtrl_LLAT (s : State) (p : CtrlReg) (v : Nat) : (s.writeCtrl p v).LLAT = s.LLAT := by cases p <;> rfl
@[simp] theorem writeCtrl_trace (s : State) (p : CtrlReg) (v : Nat) : (s.writeCtrl p v).trace = s.trace := by cases p <;> rfl
@[simp] theorem writeCtrl_input (s : State) (p : CtrlReg) (v : Nat) : (s.writeCtrl p v).input = s.input := by cases p <;> rfl

end Sys2Proof.Machine.State
end

