-- ==== Sys2Proof/Laws/Ops.lean ====
section
/-!
SUPPORT. Reading back what was written, per storage space, and one lemma for each shared operation that says all it can do.
-/
namespace Sys2Proof.Machine

/-! ### FLAG space -/

theorem flagAt_set (fs : List Bool) (n m : Nat) (v : Bool) :
    State.flagAt (fs.set n v) m = if n = m ∧ n < fs.length then v else State.flagAt fs m := by
  unfold State.flagAt
  rw [List.getD_eq_getElem?_getD, List.getD_eq_getElem?_getD, List.getElem?_set]
  by_cases h : n = m
  · subst h
    by_cases hl : n < fs.length <;> simp [hl]
  · simp [h]

@[simp] theorem State.pendAt_setPend (s : State) (n m : Nat) (v : Bool) :
    (s.setPend n v).pendAt m = if n = m ∧ n < s.PEND.length then v else s.pendAt m := flagAt_set _ _ _ _

@[simp] theorem State.irqAt_setIrq (s : State) (n m : Nat) (v : Bool) :
    (s.setIrq n v).irqAt m = if n = m ∧ n < s.IRQ.length then v else s.irqAt m := flagAt_set _ _ _ _

@[simp] theorem State.lineAt_setLine (s : State) (n m : Nat) (v : Bool) :
    (s.setLine n v).lineAt m = if n = m ∧ n < s.LINE.length then v else s.lineAt m := flagAt_set _ _ _ _

theorem flagAt_of_length_le {fs : List Bool} {n : Nat} (h : fs.length ≤ n) : State.flagAt fs n = false := by
  unfold State.flagAt; rw [List.getD_eq_default _ _ h]

/-- Writing a flag with the value it holds changes nothing. -/
theorem set_flagAt_self (fs : List Bool) (n : Nat) : fs.set n (State.flagAt fs n) = fs := by
  apply List.ext_getElem?
  intro i
  rw [List.getElem?_set]
  unfold State.flagAt
  by_cases h : n = i
  · subst h
    by_cases hl : n < fs.length
    · simp [hl]
    · simp [hl]
  · simp [h]

/-! ### GRID space -/

theorem getD_set {α : Type} (xs : List α) (n m : Nat) (v d : α) :
    (xs.set n v).getD m d = if n = m ∧ n < xs.length then v else xs.getD m d := by
  rw [List.getD_eq_getElem?_getD, List.getD_eq_getElem?_getD, List.getElem?_set]
  by_cases h : n = m
  · subst h
    by_cases hl : n < xs.length <;> simp [hl]
  · simp [h]

/-- A write of one cell changes that cell and no other (R25, R166). -/
theorem State.cell_setCell (s : State) (c n c' n' : Nat) (v : Bool) :
    (s.setCell c n v).cell c' n' =
      if (c = c' ∧ c < s.GRID.length) ∧ n = n' ∧ n < (s.GRID.getD c []).length then v else s.cell c' n' := by
  unfold State.cell State.setCell
  dsimp only
  rw [getD_set]
  by_cases h : c = c' ∧ c < s.GRID.length
  · rw [if_pos h, flagAt_set]
    obtain ⟨rfl, h2⟩ := h
    simp [h2]
  · rw [if_neg h, if_neg (fun hh => h hh.1)]

/-! ### NOTE space -/

@[simp] theorem State.phaseAt_setPhase (s : State) (n m : Nat) (r : Datum Angle) :
    (s.setPhase n r).phaseAt m = if n = m ∧ n < s.PHASE.length then r else s.phaseAt m := getD_set _ _ _ _ _

/-! ### BUF space -/

@[simp] theorem State.bufAt_setPair (s : State) (y : Int) (i : Nat) :
    (s.setPair y).bufAt i =
      if (i = 2 * s.T ∨ i = 2 * s.T + 1) ∧ i < s.BUF.length then y else s.bufAt i := by
  unfold State.bufAt
  rw [State.setPair_BUF, getD_set, getD_set, List.length_set]
  by_cases h1 : 2 * s.T + 1 = i
  · subst h1
    by_cases hl : 2 * s.T + 1 < s.BUF.length <;> simp [hl]
  · by_cases h2 : 2 * s.T = i
    · subst h2
      by_cases hl : 2 * s.T < s.BUF.length <;> simp [hl]
    · simp only [h1, h2, false_and, if_false]
      rw [if_neg (by omega)]

/-! ### The shared operations: all that each can do -/

/-- `serveEdge` sets the flag and clears the latch of its own note, and nothing else (R186, R187). -/
theorem State.serveEdge_spec (s : State) (n : Nat) :
    s.serveEdge n = { s with PEND := s.PEND.set n true, IRQ := s.IRQ.set n false } := rfl

/-- `consume` either leaves the state, the flag being clear, or toggles the one cell and clears the one flag (R166). -/
theorem State.consume_cases (s : State) (n : Nat) :
    (s.pendAt n = false ∧ s.consume n = s) ∨
    (s.pendAt n = true ∧ s.consume n = (s.setCell s.COL n (!s.cell s.COL n)).setPend n false) := by
  unfold State.consume
  cases h : s.pendAt n <;> simp

/-- `reprime` writes the latched level into the flag exactly when `REPRIME = ALL` or a flag was consumed (R168). -/
theorem State.reprime_cases (s : State) (n : Nat) :
    ((s.cfg.REPRIME = .all ∨ s.HIT = true) ∧ s.reprime n = s.setPend n s.LLAT) ∨
    (s.cfg.REPRIME = .consumed ∧ s.HIT = false ∧ s.reprime n = s) := by
  unfold State.reprime State.primes
  cases h : s.cfg.REPRIME <;> cases h' : s.HIT <;> simp

/-- `afterVoice` ends the tick at the last note and otherwise moves to the next note (R130). -/
theorem State.afterVoice_cases (s : State) (n : Nat) :
    (n + 1 = s.cfg.N ∧ s.afterVoice n = { s with PPH := .finish }) ∨
    (n + 1 ≠ s.cfg.N ∧ s.afterVoice n = { s with PV := n + 1 }) := by
  unfold State.afterVoice
  by_cases h : n + 1 = s.cfg.N
  · exact .inl ⟨h, if_pos h⟩
  · exact .inr ⟨h, if_neg h⟩

/-- `afterPrime` ends the reconciliation at the last note and otherwise moves to the next note (R168). -/
theorem State.afterPrime_cases (s : State) (n : Nat) :
    (n + 1 = s.cfg.N ∧ s.afterPrime n = { s with CPH := .finish }) ∨
    (n + 1 ≠ s.cfg.N ∧ s.afterPrime n = { s with CPH := .chk, CN := n + 1 }) := by
  unfold State.afterPrime
  by_cases h : n + 1 = s.cfg.N
  · exact .inl ⟨h, if_pos h⟩
  · exact .inr ⟨h, if_neg h⟩

/-- `renderVoice` writes the note's phase and the tick's accumulators, and nothing else (R130). -/
theorem State.renderVoice_spec (s : State) (n : Nat) (pm q : ℚ) :
    s.renderVoice n pm q = { s with
      PHASE := s.PHASE.set n (advancePhase s.cfg.NUM (s.phaseAt n) (s.stepAt n) pm)
      SUM := addShaped s.cfg.NUM s.SUM s.cfg.SIGN0 (advancePhase s.cfg.NUM (s.phaseAt n) (s.stepAt n) pm) q
      CNT := s.CNT + 1 } := rfl

/-- The beat test (R161). -/
theorem isDue_iff (now last beat : Nat) : isDue now last beat = true ↔ now < last ∨ beat ≤ now - last := by
  simp [isDue]

/-- The blend stays in `[-1, 1]` for a square mix in `[0, 1]` (R127). -/
theorem realRender_abs_le (s0 φ q : ℝ) (hs0 : |s0| ≤ 1) (h0 : 0 ≤ q) (h1 : q ≤ 1) : |realRender s0 φ q| ≤ 1 := by
  have hs : |realSgn s0 (Real.sin φ)| ≤ 1 := by
    unfold realSgn; split_ifs <;> simp [hs0]
  have hsin := Real.abs_sin_le_one φ
  rw [abs_le] at *
  unfold realRender
  constructor <;> nlinarith

theorem signZero_abs_le (z : SignZero) : |((z.value : ℚ) : ℝ)| ≤ 1 := by cases z <;> simp [SignZero.value]

/-- The pixels of a redraw are those that are lit, inside the display's space (R169). -/
theorem State.mem_pixels (s : State) (c r : Nat) :
    (c, r) ∈ s.pixels ↔ c < s.cfg.COLUMNS ∧ r < s.cfg.N ∧ s.pixelLit c r = true := by
  simp only [State.pixels, List.mem_flatMap, List.mem_range, List.mem_map, List.mem_filter, Prod.mk.injEq]
  constructor
  · rintro ⟨c', hc, r', ⟨hr, hl⟩, rfl, rfl⟩; exact ⟨hc, hr, hl⟩
  · rintro ⟨hc, hr, hl⟩; exact ⟨c, hc, r, ⟨hr, hl⟩, rfl, rfl⟩

theorem State.pixels_nodup (s : State) : s.pixels.Nodup := by
  unfold State.pixels
  rw [List.nodup_flatMap]
  refine ⟨fun c _ => ((List.nodup_range).filter _).map (fun a b h => (Prod.mk.inj h).2), ?_⟩
  refine (List.nodup_range (n := s.cfg.COLUMNS)).imp ?_
  intro a b hab
  simp only [Function.onFun, List.disjoint_left, List.mem_map, not_exists, not_and]
  rintro ⟨x, y⟩ ⟨r, _, h⟩ r' _ h'
  simp only [Prod.mk.injEq] at h h'
  exact hab (h.1.trans h'.1.symm)

theorem le16_length (y : Int) : (le16 y).length = 2 := rfl

theorem sinkBytes_length (buf : List Int) : (sinkBytes buf).length = 2 * buf.length := by
  induction buf with
  | nil => rfl
  | cons y ys ih =>
    simp only [sinkBytes, List.flatMap_cons, List.length_append, le16_length, List.length_cons] at ih ⊢
    omega

/-! ### The runs -/

theorem runOps_append (is js : List Instr) (s : State) :
    runOps (is ++ js) s =
      match runOps is s with
      | .next s' => runOps js s'
      | .fault r => .fault r
      | .refused r => .refused r := by
  induction is generalizing s with
  | nil => rfl
  | cons i is ih =>
    simp only [List.cons_append, runOps]
    cases exec i s with
    | next s' => exact ih s'
    | fault r => rfl
    | refused r => rfl

end Sys2Proof.Machine
end

