-- ==== Sys2Proof/Laws/Exec.lean ====
section
/-!
SUPPORT. What each operation can do, said once: if it answers a next state, its enabling condition held and the next state is the
one of its rule. Invariants and frames are derived from these lemmas, not by unfolding the meanings again.
-/
namespace Sys2Proof.Machine

theorem execLhi_next {n : Nat} {s t : State} (h : execLhi n s = .next t) :
    (s.lineAt n = true ∧ t = s.setLine n true) ∨ (s.lineAt n = false ∧ t = (s.requestEdge n).setLine n true) := by
  unfold execLhi at h
  cases hl : s.lineAt n <;> simp [hl] at h <;> simp [h]

theorem execLlo_next {n : Nat} {s t : State} (h : execLlo n s = .next t) : t = s.setLine n false := by
  simpa [execLlo] using h.symm

theorem execEdge_next {n : Nat} {s t : State} (h : execEdge n s = .next t) : s.irqAt n = true ∧ t = s.serveEdge n := by
  unfold execEdge at h
  split_ifs at h with hi
  exact ⟨hi, by simpa using h.symm⟩

theorem execCwr_next {p : CtrlReg} {v : Nat} {s t : State} (h : execCwr p v s = .next t) :
    s.CPH = .idle ∧ s.DUE = false ∧ t = s.writeCtrl p v := by
  unfold execCwr at h
  split_ifs at h with h1 h2
  exact ⟨not_not.1 h1, by simpa using h2, by simpa using h.symm⟩

theorem execPchk_next {now : Nat} {s t : State} (h : execPchk now s = .next t) :
    s.CPH = .idle ∧ s.DUE = false ∧ ∃ beat, s.BEAT = some beat ∧
      ((isDue now s.LAST beat = true ∧ t = { s with DUE := true, LAST := now }) ∨
       (isDue now s.LAST beat = false ∧ t = { s with DUE := false })) := by
  unfold execPchk at h
  split_ifs at h with h1 h2
  refine ⟨not_not.1 h1, by simpa using h2, ?_⟩
  cases hb : s.BEAT with
  | none => simp [hb] at h
  | some beat =>
    simp only [hb] at h
    refine ⟨beat, rfl, ?_⟩
    split_ifs at h with hd
    · exact .inl ⟨hd, by simpa using h.symm⟩
    · exact .inr ⟨by simpa using hd, by simpa using h.symm⟩

theorem execAbeg_next {s t : State} (h : execAbeg s = .next t) :
    s.CPH = .idle ∧ t = { s with COL := (s.COL + 1) % s.cfg.COLUMNS, DUE := false, CPH := .chk, CN := 0 } := by
  unfold execAbeg at h
  split_ifs at h with h1
  exact ⟨not_not.1 h1, by simpa using h.symm⟩

theorem execRchk_next {n : Nat} {s t : State} (h : execRchk n s = .next t) :
    s.CPH = .chk ∧ s.CN = n ∧ t = { s.consume n with HIT := s.pendAt n, CPH := .lvl } := by
  unfold execRchk at h
  split_ifs at h with h1
  exact ⟨h1.1, h1.2, by simpa using h.symm⟩

theorem execRlvl_next {n : Nat} {s t : State} (h : execRlvl n s = .next t) :
    s.CPH = .lvl ∧ s.CN = n ∧ t = { s with LLAT := s.lineAt n, CPH := .prm } := by
  unfold execRlvl at h
  split_ifs at h with h1
  exact ⟨h1.1, h1.2, by simpa using h.symm⟩

theorem execRprm_next {n : Nat} {s t : State} (h : execRprm n s = .next t) :
    s.CPH = .prm ∧ s.CN = n ∧ t = (s.reprime n).afterPrime n := by
  unfold execRprm at h
  split_ifs at h with h1
  exact ⟨h1.1, h1.2, by simpa using h.symm⟩

theorem execAend_next {s t : State} (h : execAend s = .next t) :
    s.CPH = .finish ∧ t = { s.emit [.dispClear, .dispSetPixels s.pixels, .dispCommit] with CPH := .idle } := by
  unfold execAend at h
  split_ifs at h with h1
  exact ⟨h1, by simpa using h.symm⟩

theorem execTbeg_next {s t : State} (h : execTbeg s = .next t) :
    s.PPH = .begin ∧ s.T < s.cfg.B ∧
      t = { s with CLAT := s.COL, SUM := s.cfg.NUM.ofWave Wave.zero, CNT := 0, PPH := .voices, PV := 0 } := by
  unfold execTbeg at h
  split_ifs at h with h1 h2
  exact ⟨not_not.1 h1, h2, by simpa using h.symm⟩

theorem execVoice_next {n : Nat} {s t : State} (h : execVoice n s = .next t) :
    s.PPH = .voices ∧ s.PV = n ∧
      ((s.cell s.CLAT n = true ∧ ∃ pm q, s.PMULT = some pm ∧ s.SQMIX = some q ∧ t = (s.renderVoice n pm q).afterVoice n) ∨
       (s.cell s.CLAT n = false ∧ t = s.afterVoice n)) := by
  unfold execVoice at h
  split_ifs at h with h1 h2
  · refine ⟨h1.1, h1.2, .inl ⟨h2, ?_⟩⟩
    cases hp : s.PMULT with
    | none => simp [hp] at h
    | some pm =>
      cases hq : s.SQMIX with
      | none => simp [hp, hq] at h
      | some q =>
        simp only [hp, hq] at h
        exact ⟨pm, q, rfl, rfl, by simpa using h.symm⟩
  · exact ⟨h1.1, h1.2, .inr ⟨by simpa using h2, by simpa using h.symm⟩⟩

theorem execTend_next {s t : State} (h : execTend s = .next t) :
    s.PPH = .finish ∧ ∃ v, s.VOL = some v ∧ t = { s.setPair (s.sample v) with T := s.T + 1, PPH := .begin } := by
  unfold execTend at h
  split_ifs at h with h1
  refine ⟨not_not.1 h1, ?_⟩
  cases hv : s.VOL with
  | none => simp [hv] at h
  | some v =>
    simp only [hv] at h
    exact ⟨v, rfl, by simpa using h.symm⟩

theorem execSubmit_next {s t : State} (h : execSubmit s = .next t) :
    s.PPH = .begin ∧ s.T = s.cfg.B ∧ t = { s.emit [.sinkSubmit (sinkBytes s.BUF)] with T := 0 } := by
  unfold execSubmit at h
  split_ifs at h with h1 h2
  exact ⟨not_not.1 h1, h2, by simpa using h.symm⟩

/-- A step that answers a next state performed the operation that its next word decodes to (R71, R98). -/
theorem step_next {s t : State} (h : step s = .next t) :
    s.cfg.wf = true ∧ ∃ w rest i, s.input = w :: rest ∧ decode s.cfg w = .ok i ∧ exec i { s with input := rest } = .next t := by
  unfold step at h
  split_ifs at h with hc
  refine ⟨hc, ?_⟩
  cases hi : s.input with
  | nil => simp [hi] at h
  | cons w rest =>
    simp only [hi] at h
    cases hd : decode s.cfg w with
    | error e => simp [hd] at h
    | ok i =>
      simp only [hd] at h
      exact ⟨w, rest, i, rfl, hd, h⟩

end Sys2Proof.Machine
end

