-- ==== Sys2Proof/Laws/PerInstr.lean ====
section
/-!
SUPPORT. Statements made per instruction. FieldsOfEncode: the word of a well-formed operation carries the opcode and the operand
fields the spec gives it, none cut short (30_encoding.md R91 to R96).
-/
namespace Sys2Proof.Laws.FieldsOfEncode

/-- The fields of the encoded word are the operation's fields. -/
def Statement (i : Instr) : Prop :=
  ∀ c : Config, c.N ≤ 16 → c.TW ≤ 32 → i.wf c = true →
    OpWord.op (encode i) = i.opcode ∧ OpWord.idx (encode i) = i.idxField ∧ OpWord.data (encode i) = i.dataField

theorem fields_of_bounds (i : Instr) (h1 : i.opcode < 16) (h2 : i.idxField < 16) (h3 : i.dataField < 2 ^ 32) :
    OpWord.op (encode i) = i.opcode ∧ OpWord.idx (encode i) = i.idxField ∧ OpWord.data (encode i) = i.dataField :=
  ⟨op_packWord h1, idx_packWord h2, data_packWord h3⟩

theorem rst (levels : BitVec 32) : Statement (.rst levels) := fun _ _ _ _ =>
  fields_of_bounds _ (by simp [Instr.opcode]) (by simp [Instr.idxField]) levels.isLt

theorem cwr (p : CtrlReg) (v : Nat) : Statement (.cwr p v) := fun c _ ht h => by
  have hp := pow_tw_le ht
  refine fields_of_bounds _ (by simp [Instr.opcode]) (by cases p <;> simp [Instr.idxField, CtrlReg.number]) ?_
  cases p <;> simp only [Instr.wf, CtrlReg.valueOk, decide_eq_true_eq] at h <;> simp only [Instr.dataField] <;> omega

theorem pchk (now : Nat) : Statement (.pchk now) := fun c _ ht h => by
  have hp := pow_tw_le ht
  refine fields_of_bounds _ (by simp [Instr.opcode]) (by simp [Instr.idxField]) ?_
  simp only [Instr.wf, decide_eq_true_eq] at h
  simp only [Instr.dataField]
  omega

theorem abeg : Statement (.abeg) := fun _ _ _ _ =>
  fields_of_bounds _ (by simp [Instr.opcode]) (by simp [Instr.idxField]) (by simp [Instr.dataField])

theorem rchk (n : Nat) : Statement (.rchk n) := fun c hN _ h => by
  simp only [Instr.wf, decide_eq_true_eq] at h
  exact fields_of_bounds _ (by simp [Instr.opcode]) (by simp only [Instr.idxField]; omega) (by simp [Instr.dataField])

theorem rlvl (n : Nat) : Statement (.rlvl n) := fun c hN _ h => by
  simp only [Instr.wf, decide_eq_true_eq] at h
  exact fields_of_bounds _ (by simp [Instr.opcode]) (by simp only [Instr.idxField]; omega) (by simp [Instr.dataField])

theorem rprm (n : Nat) : Statement (.rprm n) := fun c hN _ h => by
  simp only [Instr.wf, decide_eq_true_eq] at h
  exact fields_of_bounds _ (by simp [Instr.opcode]) (by simp only [Instr.idxField]; omega) (by simp [Instr.dataField])

theorem aend : Statement (.aend) := fun _ _ _ _ =>
  fields_of_bounds _ (by simp [Instr.opcode]) (by simp [Instr.idxField]) (by simp [Instr.dataField])

theorem lhi (n : Nat) : Statement (.lhi n) := fun c hN _ h => by
  simp only [Instr.wf, decide_eq_true_eq] at h
  exact fields_of_bounds _ (by simp [Instr.opcode]) (by simp only [Instr.idxField]; omega) (by simp [Instr.dataField])

theorem llo (n : Nat) : Statement (.llo n) := fun c hN _ h => by
  simp only [Instr.wf, decide_eq_true_eq] at h
  exact fields_of_bounds _ (by simp [Instr.opcode]) (by simp only [Instr.idxField]; omega) (by simp [Instr.dataField])

theorem edge (n : Nat) : Statement (.edge n) := fun c hN _ h => by
  simp only [Instr.wf, decide_eq_true_eq] at h
  exact fields_of_bounds _ (by simp [Instr.opcode]) (by simp only [Instr.idxField]; omega) (by simp [Instr.dataField])

theorem tbeg : Statement (.tbeg) := fun _ _ _ _ =>
  fields_of_bounds _ (by simp [Instr.opcode]) (by simp [Instr.idxField]) (by simp [Instr.dataField])

theorem voice (n : Nat) : Statement (.voice n) := fun c hN _ h => by
  simp only [Instr.wf, decide_eq_true_eq] at h
  exact fields_of_bounds _ (by simp [Instr.opcode]) (by simp only [Instr.idxField]; omega) (by simp [Instr.dataField])

theorem tend : Statement (.tend) := fun _ _ _ _ =>
  fields_of_bounds _ (by simp [Instr.opcode]) (by simp [Instr.idxField]) (by simp [Instr.dataField])

theorem submit : Statement (.submit) := fun _ _ _ _ =>
  fields_of_bounds _ (by simp [Instr.opcode]) (by simp [Instr.idxField]) (by simp [Instr.dataField])

end Sys2Proof.Laws.FieldsOfEncode
end

