-- ==== Sys2Proof/Machine/Assembler.lean ====
section
/-!
DEFINITION. The assembler syntax of 30_encoding.md R104 and R105: reading one line of a listing, and spelling an operation. "This
syntax exists only so that programs can be written down": no step depends on it. Text is a list of characters.
-/
namespace Sys2Proof.Machine

/-- One line of a listing: nothing but a comment, an operation, or a pseudo-operation of R106. -/
inductive AsmLine where
  | blank
  | op (i : Instr)
  | pseudo (p : Pseudo)
  deriving DecidableEq, Repr

namespace Asm

/-- The line up to its comment (R104: `;` starts a comment). -/
def uncomment : List Char → List Char
  | [] => []
  | ch :: cs => if ch = ';' then [] else ch :: uncomment cs

/-- A blank or a tab. -/
def isSpace (ch : Char) : Bool := ch = ' ' || ch = '\t'

/-- The text without the spaces at its end. -/
def trimEnd : List Char → List Char
  | [] => []
  | ch :: cs =>
    match trimEnd cs with
    | [] => if isSpace ch then [] else [ch]
    | d :: ds => ch :: d :: ds

/-- The text without the spaces at both ends. -/
def trim (cs : List Char) : List Char := trimEnd (cs.dropWhile isSpace)

/-- The pieces between commas. -/
def splitCommas : List Char → List (List Char)
  | [] => [[]]
  | ch :: cs =>
    match splitCommas cs with
    | [] => [[ch]]
    | p :: ps => if ch = ',' then [] :: p :: ps else (ch :: p) :: ps

/-- The value of a digit in a base up to 16. -/
def digit (base : Nat) (ch : Char) : Option Nat :=
  let v := if '0' ≤ ch ∧ ch ≤ '9' then ch.toNat - 48
    else if 'a' ≤ ch ∧ ch ≤ 'f' then ch.toNat - 87
    else if 'A' ≤ ch ∧ ch ≤ 'F' then ch.toNat - 55 else 16
  if v < base then some v else none

/-- Reads digits after an accumulated value. -/
def digits (base : Nat) : Nat → List Char → Option Nat
  | acc, [] => some acc
  | acc, ch :: cs => (digit base ch).bind fun d => digits base (acc * base + d) cs

/-- A decimal number, at least one digit. -/
def decimal (cs : List Char) : Option Nat := if cs = [] then none else digits 10 0 cs

/-- A decimal or `0x` hexadecimal number (R104). -/
def number : List Char → Option Nat
  | '0' :: 'x' :: c :: cs => digits 16 0 (c :: cs)
  | cs => decimal cs

/-- A decimal fraction such as `0.5`, `2` (R105). -/
def fraction (cs : List Char) : Option ℚ :=
  let whole := cs.takeWhile (· ≠ '.')
  match cs.dropWhile (· ≠ '.') with
  | [] => (decimal whole).map fun w => (w : ℚ)
  | _ :: frac =>
    (decimal whole).bind fun w => (decimal frac).map fun f => (w : ℚ) + (f : ℚ) / ((10 : ℚ) ^ frac.length)

/-- The code of a real, if it is one (R105): `code / 65536 = x`. -/
def codeOf (x : ℚ) : Option Nat :=
  let y := x * 65536
  if y.den = 1 ∧ 0 ≤ y.num then some y.num.toNat else none

/-- A control value: an integer, or `=` and the real it denotes (R104, R105). -/
def ctrlValue (p : CtrlReg) : List Char → Option Nat
  | '=' :: cs =>
    match p with
    | .beat => none
    | .vol => (fraction cs).bind codeOf
    | .sqmix => (fraction cs).bind codeOf
    | .pmult => (fraction cs).bind fun x => codeOf (x - 1)
  | cs => number cs

/-- A register: its number or its name (R104). -/
def ctrlReg (cs : List Char) : Option CtrlReg :=
  if cs = ['V', 'O', 'L'] ∨ cs = ['0'] then some .vol
  else if cs = ['B', 'E', 'A', 'T'] ∨ cs = ['1'] then some .beat
  else if cs = ['S', 'Q', 'M', 'I', 'X'] ∨ cs = ['2'] then some .sqmix
  else if cs = ['P', 'M', 'U', 'L', 'T'] ∨ cs = ['3'] then some .pmult
  else none

/-- The mnemonics in capitals (R96, R106). -/
inductive Mnemonic where
  | rst | cwr | pchk | abeg | rchk | rlvl | rprm | aend | lhi | llo | edge | tbeg | voice | tend | submit
  | tick | fill | cycle | adv | poll | ctrl | press | tap
  deriving DecidableEq, Repr

/-- The mnemonics and their spelling. -/
def mnemonics : List (List Char × Mnemonic) :=
  [(['R', 'S', 'T'], .rst), (['C', 'W', 'R'], .cwr), (['P', 'C', 'H', 'K'], .pchk), (['A', 'B', 'E', 'G'], .abeg),
   (['R', 'C', 'H', 'K'], .rchk), (['R', 'L', 'V', 'L'], .rlvl), (['R', 'P', 'R', 'M'], .rprm),
   (['A', 'E', 'N', 'D'], .aend)] ++
  [(['L', 'H', 'I'], .lhi), (['L', 'L', 'O'], .llo), (['E', 'D', 'G', 'E'], .edge), (['T', 'B', 'E', 'G'], .tbeg),
   (['V', 'O', 'I', 'C', 'E'], .voice), (['T', 'E', 'N', 'D'], .tend), (['S', 'U', 'B', 'M', 'I', 'T'], .submit)] ++
  [(['T', 'I', 'C', 'K'], .tick), (['F', 'I', 'L', 'L'], .fill), (['C', 'Y', 'C', 'L', 'E'], .cycle),
   (['A', 'D', 'V'], .adv), (['P', 'O', 'L', 'L'], .poll), (['C', 'T', 'R', 'L'], .ctrl),
   (['P', 'R', 'E', 'S', 'S'], .press), (['T', 'A', 'P'], .tap)]

/-- The line of a mnemonic and its operands. -/
def build (m : Mnemonic) (args : List (List Char)) : Option AsmLine :=
  match m, args with
  | .rst, [a] => (number a).bind fun x => if x < 2 ^ 32 then some (.op (.rst (BitVec.ofNat 32 x))) else none
  | .cwr, [a, b] => (ctrlReg a).bind fun p => (ctrlValue p b).map fun v => .op (.cwr p v)
  | .pchk, [a] => (number a).map fun x => .op (.pchk x)
  | .abeg, [] => some (.op .abeg)
  | .rchk, [a] => (decimal a).map fun n => .op (.rchk n)
  | .rlvl, [a] => (decimal a).map fun n => .op (.rlvl n)
  | .rprm, [a] => (decimal a).map fun n => .op (.rprm n)
  | .aend, [] => some (.op .aend)
  | .lhi, [a] => (decimal a).map fun n => .op (.lhi n)
  | .llo, [a] => (decimal a).map fun n => .op (.llo n)
  | .edge, [a] => (decimal a).map fun n => .op (.edge n)
  | .tbeg, [] => some (.op .tbeg)
  | .voice, [a] => (decimal a).map fun n => .op (.voice n)
  | .tend, [] => some (.op .tend)
  | .submit, [] => some (.op .submit)
  | .tick, [] => some (.pseudo .tick)
  | .fill, [] => some (.pseudo .fill)
  | .cycle, [] => some (.pseudo .cycle)
  | .adv, [] => some (.pseudo .adv)
  | .poll, [a] => (number a).map fun x => .pseudo (.poll x)
  | .ctrl, [a, b, c, d] =>
    (ctrlValue .vol a).bind fun v => (ctrlValue .beat b).bind fun bt => (ctrlValue .sqmix c).bind fun q =>
      (ctrlValue .pmult d).map fun m => .pseudo (.ctrl v bt q m)
  | .press, [a] => (decimal a).map fun n => .pseudo (.press n)
  | .tap, [a] => (decimal a).map fun n => .pseudo (.tap n)
  | _, _ => none

/-- One line of a listing (R104). `none` for a line that is none. -/
def parseLine (text : List Char) : Option AsmLine :=
  match trim (uncomment text) with
  | [] => some .blank
  | line =>
    let name := line.takeWhile fun ch => !isSpace ch
    let rest := trim (line.dropWhile fun ch => !isSpace ch)
    let args := if rest = [] then [] else (splitCommas rest).map trim
    (mnemonics.lookup name).bind fun m => build m args

end Asm

end Sys2Proof.Machine
end

