-- ==== Sys2Proof/Tests/Slice0.lean ====
section
/-!
SUPPORT. The model's own tests. Expected values come from 95_test_vectors.md (the vector is named in the comment) or from the
rules of 30_encoding.md; then, for every obligation with hypotheses, a concrete state and operands that meet them.
-/
namespace Sys2Proof.Tests
open Sys2Proof Sys2Proof.Machine

/-! ### Helpers -/

/-- Rational parameters. -/
def rats (qs : List ℚ) : List RealParam := qs.map RealParam.rat

/-- Angles of rational turns, as the machine of the reals holds them. -/
def turns (rs : List ℚ) : List (Datum Angle) := rs.map fun r => .real (Angle.ofTurn r)

/-- An amplitude of rational turns, as the machine of the reals holds it. -/
def held (a : Amp) : Datum Wave := .real { amp := a, opens := [] }

/-- The configuration of program P1: `N = 4`, `COLUMNS = 8`, `B = 4`, `FS = 8000`. -/
def cfg4 : Config := { Config.default with N := 4, FREQ := rats [500, 1000, 1500, 1000] }

/-- The configuration of V-MIX-2: two notes, `STEP = [π/6, π/4]`. -/
def cfg2 : Config := { Config.default with N := 2, COLUMNS := 4, B := 2, FS := .rat 48000, FREQ := rats [4000, 6000], HL := [[0], [0], [0], [0]] }

/-- The smallest configuration: one note, one column, one pair per buffer, a one-bit time counter, `FREQ = FS / 4`. -/
def cfg1 : Config where
  N := 1
  COLUMNS := 1
  B := 1
  FS := .rat 8000
  FREQ := rats [2000]
  HEADROOM := .rat 0
  TW := 1
  SIGN0 := .minusOne
  REPRIME := .consumed
  HL := [[0]]
  NUM := .reals

/-- The state after reset of `cfg4`. -/
def base4 : State := State.initial cfg4 0

/-- The state after reset of `cfg2`. -/
def base2 : State := State.initial cfg2 0

/-- The next state of an operation, if it has one. -/
def nextOf (i : Instr) (s : State) : Option State :=
  match exec i s with
  | .next t => some t
  | .fault _ => none
  | .refused _ => none

/-- The fault of an operation, if it is stuck. -/
def faultOf (i : Instr) (s : State) : Option Fault :=
  match exec i s with
  | .next _ => none
  | .fault r => some r
  | .refused _ => none

/-- The operation a word decodes to. -/
def read (c : Config) (w : OpWord) : Option Instr :=
  match decode c w with
  | .ok i => some i
  | .error _ => none

/-- Why a word is reserved. -/
def reserved (c : Config) (w : OpWord) : Option Reserved :=
  match decode c w with
  | .ok _ => none
  | .error why => some why

/-! ### WellFormed: an ill-formed term for each check (R93 to R96) -/

theorem test_wf_rst : (Instr.rst 255).wf Config.default = true ∧ (Instr.rst 256).wf Config.default = false := by decide
theorem test_wf_cwr_code : (Instr.cwr .vol 65536).wf Config.default = true ∧ (Instr.cwr .vol 65537).wf Config.default = false ∧
    (Instr.cwr .sqmix 65537).wf Config.default = false ∧ (Instr.cwr .pmult 65537).wf Config.default = false := by decide
theorem test_wf_cwr_beat : (Instr.cwr .beat 4294967295).wf Config.default = true ∧
    (Instr.cwr .beat 4294967296).wf Config.default = false ∧ (Instr.cwr .beat 2).wf cfg1 = false := by decide
theorem test_wf_pchk : (Instr.pchk 4294967295).wf Config.default = true ∧
    (Instr.pchk 4294967296).wf Config.default = false ∧ (Instr.pchk 2).wf cfg1 = false := by decide
theorem test_wf_note : (Instr.voice 7).wf Config.default = true ∧
    ∀ i ∈ [Instr.rchk 8, .rlvl 8, .rprm 8, .lhi 8, .llo 8, .edge 8, .voice 8], i.wf Config.default = false := by decide

/-! ### WellFormed configurations: one broken clause at a time (R10) -/

theorem test_cfg_wf : Config.default.wf = true ∧ cfg4.wf = true ∧ cfg2.wf = true ∧ cfg1.wf = true := by decide
theorem test_cfg_notes : ({ cfg1 with N := 0, FREQ := [] } : Config).wf = false ∧
    ({ cfg1 with N := 17, FREQ := rats (List.replicate 17 2000) } : Config).wf = false := by decide
theorem test_cfg_columns : ({ cfg1 with COLUMNS := 0, HL := [] } : Config).wf = false := by decide
theorem test_cfg_buffer : ({ cfg1 with B := 0 } : Config).wf = false := by decide
theorem test_cfg_rate : ({ cfg1 with FS := .rat 0 } : Config).wf = false := by decide
theorem test_cfg_freq : ({ cfg1 with FREQ := rats [2001] } : Config).wf = false ∧ ({ cfg1 with FREQ := rats [0] } : Config).wf = false ∧
    ({ cfg1 with FREQ := rats [2000, 2000] } : Config).wf = false := by decide
theorem test_cfg_headroom : ({ cfg1 with HEADROOM := .rat (-1) } : Config).wf = false := by decide
theorem test_cfg_time : ({ cfg1 with TW := 0 } : Config).wf = false ∧ ({ cfg1 with TW := 33 } : Config).wf = false := by decide
theorem test_cfg_highlight : ({ cfg1 with HL := [[]] } : Config).wf = false ∧ ({ cfg1 with HL := [[1]] } : Config).wf = false ∧
    ({ cfg1 with HL := [[0], [0]] } : Config).wf = false := by decide

/-! ### Open parameters: real parameters that no rational is stated for, and physical number formats (R8, R11) -/

/-- `FS`, the two frequencies and `HEADROOM` rest on four open reals: `FS = 8000 x₀`, `FREQ = [400 x₁, 1000 x₂]`,
`HEADROOM = 16384 x₃`. -/
def cfgOpen : Config :=
  { cfg2 with
    FS := { scale := 8000, name := some 0 }
    FREQ := [{ scale := 400, name := some 1 }, { scale := 1000, name := some 2 }]
    HEADROOM := { scale := 16384, name := some 3 } }

/-- R10(e) from what is known of open reals: `FREQ[n] ≤ 2000 ≤ FS / 4`. -/
theorem test_cfg_open : cfgOpen.wf = true := by
  have h (k : Nat) := Config.openReals.value_range k
  rw [Config.wf_iff]
  refine ⟨by decide, by decide, by decide, by decide, ?_, ⟨rfl, ?_⟩, ?_, by decide, by decide, by decide⟩
  · have := (h 0).1
    simp only [cfgOpen, RealParam.toReal, RealParam.realAt, openAt]; push_cast; linarith
  · have h0 := (h 0).1
    intro f hf
    have hf' : f = { scale := 400, name := some 1 } ∨ f = { scale := 1000, name := some 2 } := by simpa [cfgOpen] using hf
    rcases hf' with rfl | rfl
    · have h1 := h 1
      simp only [cfgOpen, RealParam.toReal, RealParam.realAt, openAt]; push_cast; constructor <;> linarith
    · have h2 := h 2
      simp only [cfgOpen, RealParam.toReal, RealParam.realAt, openAt]; push_cast; constructor <;> linarith
  · have := (h 3).1
    simp only [cfgOpen, RealParam.toReal, RealParam.realAt, openAt]; push_cast; linarith

/-- The same open real above and below cancels: a rational step of 1/8 turn. -/
theorem test_step_cancels :
    ({ cfgOpen with FREQ := [{ scale := 1000, name := some 0 }] } : Config).stepValue 0 = .real (Angle.ofTurn (1 / 8)) := by
  decide +kernel

/-- R130 on open reals: the first call stores `STEP * PMULT`, adds one sine and goes on, as for a rational step. -/
theorem test_voice_open : (nextOf (.voice 0) { State.initial cfgOpen 0 with
      GRID := [[true, true], [false, false], [false, false], [false, false]], PPH := .voices, PMULT := some (3 / 2)
      SQMIX := some 0 }).map (fun t => (t.CNT, t.PPH, t.PV)) = some (1, .voices, 1) := by decide +kernel

/-- R11: a machine of a physical format computes on the format's codes, in the order of R123. -/
theorem test_voice_format : (nextOf (.voice 0) { State.initial { cfg2 with NUM := .format 0 } 0 with
      GRID := [[true, true], [false, false], [false, false], [false, false]], PPH := .voices, PMULT := some 1
      SQMIX := some 0 }).map (fun t => (t.CNT, t.PPH, t.PV)) = some (1, .voices, 1) := by decide +kernel

/-! ### Decoding: every operation's word, written from the encoding of R91 to R96 -/

theorem test_dec_rst : read Config.default 0b0000000000000000000000000000000000001000 = some (.rst 8) := by decide
theorem test_dec_cwr_vol : read Config.default 0b0001000000000000000000010000000000000000 = some (.cwr .vol 65536) := by decide
theorem test_dec_cwr_beat : read Config.default 0b0001000100000000000000000000000011111010 = some (.cwr .beat 250) := by decide
theorem test_dec_cwr_sqmix : read Config.default 0b0001001000000000000000000000000000000001 = some (.cwr .sqmix 1) := by decide
theorem test_dec_cwr_pmult : read Config.default 0b0001001100000000000000001000000000000000 = some (.cwr .pmult 32768) := by decide
theorem test_dec_pchk : read Config.default 0b0010000011111111111111111111111111111010 = some (.pchk 4294967290) := by decide
theorem test_dec_abeg : read Config.default 0b0011000000000000000000000000000000000000 = some .abeg := by decide
theorem test_dec_rchk : read Config.default 0b0100001100000000000000000000000000000000 = some (.rchk 3) := by decide
theorem test_dec_rlvl : read Config.default 0b0101011100000000000000000000000000000000 = some (.rlvl 7) := by decide
theorem test_dec_rprm : read Config.default 0b0110010100000000000000000000000000000000 = some (.rprm 5) := by decide
theorem test_dec_aend : read Config.default 0b0111000000000000000000000000000000000000 = some .aend := by decide
theorem test_dec_lhi : read Config.default 0b1000000100000000000000000000000000000000 = some (.lhi 1) := by decide
theorem test_dec_llo : read Config.default 0b1001001000000000000000000000000000000000 = some (.llo 2) := by decide
theorem test_dec_edge : read Config.default 0b1010010000000000000000000000000000000000 = some (.edge 4) := by decide
theorem test_dec_tbeg : read Config.default 0b1011000000000000000000000000000000000000 = some .tbeg := by decide
theorem test_dec_voice : read Config.default 0b1100011000000000000000000000000000000000 = some (.voice 6) := by decide
theorem test_dec_tend : read Config.default 0b1101000000000000000000000000000000000000 = some .tend := by decide
theorem test_dec_submit : read Config.default 0b1110000000000000000000000000000000000000 = some .submit := by decide

/-- V-ENC-4 to V-ENC-6, V-ENC-8 to V-ENC-13 with `N = 8`. -/
theorem test_dec_reserved :
    reserved Config.default 0x1000010001 = some .codeRange ∧ reserved Config.default 0x1400000000 = some .registerRange ∧
    reserved Config.default 0x1020000000 = some .codeRange ∧ reserved Config.default 0xC800000000 = some .noteRange ∧
    reserved Config.default 0xC300000001 = some .dataNotZero ∧ reserved Config.default 0x3100000000 = some .idxNotZero ∧
    reserved Config.default 0xF000000000 = some .opcode ∧ reserved Config.default 0x0000000100 = some .levelsRange ∧
    reserved Config.default 0x2100000000 = some .idxNotZero := by decide

/-- V-ENC-7: `CWR BEAT, 4294967295` with `TW = 32`, reserved with a smaller `TW`. -/
theorem test_dec_time_width : read Config.default 0x11FFFFFFFF = some (.cwr .beat 4294967295) ∧
    reserved { Config.default with TW := 31 } 0x11FFFFFFFF = some .timeRange := by decide

/-- V-ENC-8, V-ENC-12: words whose meaning depends on `N`. -/
theorem test_dec_note_count :
    read { Config.default with N := 9 } 0xC800000000 = some (.voice 8) ∧
    read { Config.default with N := 9 } 0x0000000100 = some (.rst 256) := by decide

theorem test_table_word : decodeTableWord 40 0xE000000000 = some .submit ∧ decodeTableWord 40 0xF000000000 = none := by decide

/-- The lines of P5 and the examples of R104, R105. -/
theorem test_asm :
    Asm.parseLine "CWR PMULT, =1.5 ; code 32768".toList = some (.op (.cwr .pmult 32768)) ∧
    Asm.parseLine "CWR VOL, =0.5".toList = some (.op (.cwr .vol 32768)) ∧
    Asm.parseLine "CWR PMULT, =2".toList = some (.op (.cwr .pmult 65536)) ∧
    Asm.parseLine "RST 0x08".toList = some (.op (.rst 8)) ∧
    Asm.parseLine "VOICE 3".toList = some (.op (.voice 3)) := by decide +kernel

/-! ### Reset -/

/-- V-RST-1: `STEP = [π/8, π/4, 3π/8, π/4]`; `RST 0x8` raises line 3 only. -/
theorem test_rst_values : (nextOf (.rst 8) base4).map (fun t => (t.STEP, t.LINE)) =
    some (turns [1 / 16, 1 / 8, 3 / 16, 1 / 8], [false, false, false, true]) := by decide +kernel

/-- V-RST-2: in the middle of an advance and of a tick, the trace keeps its events. -/
theorem test_rst_midway : (nextOf (.rst 0) { base4 with CPH := .lvl, PPH := .voices, COL := 5, trace := [.dispClear] }).map
    (fun t => (t.CPH, t.PPH, t.COL, t.trace)) = some (.idle, .begin, 0, [.dispClear]) := by decide

/-! ### Edge detector and control writes -/

/-- V-EDG-4: `CWR PMULT, 1` is 1 + 1/65536, `CWR SQMIX, 0xC000` is 0.75. -/
theorem test_cwr_values : (nextOf (.cwr .pmult 1) base4).map State.PMULT = some (some (65537 / 65536)) ∧
    (nextOf (.cwr .sqmix 0xC000) base4).map State.SQMIX = some (some (3 / 4)) := by decide +kernel

/-- V-EDG-5: not enabled inside an advance or with a beat due. -/
theorem test_cwr_stuck : faultOf (.cwr .vol 0) { base4 with CPH := .prm } = some .advanceInProgress ∧
    faultOf (.cwr .vol 0) { base4 with DUE := true } = some .beatDue := by decide

/-- V-EDG-1: `LHI 3` on a low line. -/
theorem test_lhi_rising : (nextOf (.lhi 3) base4).map (fun t => (t.LINE, t.IRQ, t.PEND)) =
    some ([false, false, false, true], [false, false, false, true], [false, false, false, false]) := by decide

/-- V-EDG-1: `LHI 3` on a high line changes nothing. -/
theorem test_lhi_high : nextOf (.lhi 3) { base4 with LINE := [false, false, false, true] } =
    some { base4 with LINE := [false, false, false, true] } := by decide +kernel

/-- V-EDG-1: `LLO 3` leaves the latch and the flag. -/
theorem test_llo : (nextOf (.llo 3) { base4 with LINE := [true, true, true, true], IRQ := [false, false, false, true] }).map
    (fun t => (t.LINE, t.IRQ)) = some ([true, true, true, false], [false, false, false, true]) := by decide

/-- V-EDG-2. -/
theorem test_edge : (nextOf (.edge 3) { base4 with IRQ := [true, false, false, true] }).map (fun t => (t.PEND, t.IRQ)) =
    some ([false, false, false, true], [true, false, false, false]) := by decide
theorem test_edge_stuck : faultOf (.edge 3) base4 = some .noRequest := by decide

/-! ### Sequencer -/

/-- V-SEQ-1: `BEAT = 250`, `LAST = 1000`. -/
theorem test_pchk_elapsed :
    (nextOf (.pchk 1249) { base4 with BEAT := some 250, LAST := 1000 }).map (fun t => (t.DUE, t.LAST)) = some (false, 1000) ∧
    (nextOf (.pchk 1250) { base4 with BEAT := some 250, LAST := 1000 }).map (fun t => (t.DUE, t.LAST)) = some (true, 1250) := by
  decide

/-- V-SEQ-2: across the wrap of the time counter. -/
theorem test_pchk_wrap :
    (nextOf (.pchk 40) { base4 with BEAT := some 250, LAST := 4294967290 }).map (fun t => (t.DUE, t.LAST)) = some (true, 40) := by
  decide

/-- V-SEQ-4: `COL` 7 → 0. -/
theorem test_abeg_wraps : (nextOf .abeg { base4 with COL := 7, DUE := true, CN := 3 }).map
    (fun t => (t.COL, t.DUE, t.CPH, t.CN)) = some (0, false, .chk, 0) := by decide

/-- V-SEQ-8: a second ABEG inside an advance is not enabled. -/
theorem test_abeg_stuck : faultOf .abeg { base4 with CPH := .chk } = some .advanceInProgress := by decide

/-- V-SEQ-5: a toggle, not a set. -/
theorem test_rchk_toggles :
    (nextOf (.rchk 3) { base4 with COL := 1, CPH := .chk, CN := 3, PEND := [true, false, false, true] }).map
      (fun t => (t.cell 1 3, t.cell 0 3, t.PEND, t.HIT)) = some (true, false, [true, false, false, false], true) ∧
    (nextOf (.rchk 3) { base4 with
        COL := 1, CPH := .chk, CN := 3, PEND := [false, false, false, true]
        GRID := List.replicate 8 [false, false, false, true] }).map
      (fun t => (t.cell 1 3, t.cell 0 3)) = some (false, true) := by decide

/-- V-SEQ-5: no flag, nothing but `HIT` and `CPH`. -/
theorem test_rchk_clear : nextOf (.rchk 3) { base4 with COL := 1, CPH := .chk, CN := 3, HIT := true } =
    some { base4 with COL := 1, CPH := .lvl, CN := 3, HIT := false } := by decide +kernel

/-- V-SEQ-6. -/
theorem test_rlvl : (nextOf (.rlvl 2) { base4 with CPH := .lvl, CN := 2, LINE := [false, false, true, false] }).map
    (fun t => (t.LLAT, t.CPH)) = some (true, .prm) := by decide

/-- V-SEQ-6: with `REPRIME = ALL` the line decides; the last note ends the reconciliation. -/
theorem test_rprm_all : (nextOf (.rprm 3) { base4 with CPH := .prm, CN := 3, LLAT := true }).map
    (fun t => (t.PEND, t.CPH, t.CN)) = some ([false, false, false, true], .finish, 3) := by decide

/-- V-SEQ-6: with `REPRIME = CONSUMED` and no flag found, the flag stays. -/
theorem test_rprm_consumed :
    (nextOf (.rprm 1) { base4 with cfg := { cfg4 with REPRIME := .consumed }, CPH := .prm, CN := 1, LLAT := true }).map
      (fun t => (t.PEND, t.CPH, t.CN)) = some ([false, false, false, false], .chk, 2) := by decide

/-- V-SEQ-7: the highlight pixel that is also a set cell is emitted once. -/
theorem test_aend : (nextOf .aend { base4 with COL := 2, CPH := .finish, GRID :=
      [[false, true, false, false], [false, false, false, false], [true, false, false, false], [false, false, false, false],
       [false, false, false, false], [false, false, false, true], [false, false, false, false], [false, false, false, false]] }).map
    State.trace = some [.dispClear, .dispSetPixels [(0, 1), (2, 0), (5, 3)], .dispCommit] := by decide

/-! ### Oscillator and mixer -/

/-- R141: the column is latched. -/
theorem test_tbeg : (nextOf .tbeg { base4 with COL := 6, CNT := 2, PV := 3 }).map (fun t => (t.CLAT, t.CNT, t.PPH, t.PV)) =
    some (6, 0, .voices, 0) := by decide

/-- V-MIX-10: with `T = B` only SUBMIT. -/
theorem test_tbeg_full : faultOf .tbeg { base4 with T := 4 } = some .bufferFull := by decide

/-- A state in the middle of a tick at note 0 of `cfg2`, which sounds. -/
def sounding : State :=
  { base2 with
    cfg := { cfg2 with FS := .rat 8000, FREQ := rats [2000, 1000] }
    STEP := turns [1 / 4, 1 / 8]
    GRID := [[true, true], [false, false], [false, false], [false, false]]
    PPH := .voices
    PMULT := some (3 / 2)
    SQMIX := some 0
    VOL := some 1 }

/-- V-OSC-5, call 3: from 3π/2 by 3π/4, wrapped to π/4, the sample sin(π/4). -/
theorem test_voice_wraps : (nextOf (.voice 0) { sounding with PHASE := turns [3 / 4, 0] }).map (fun t => (t.PHASE, t.SUM, t.PV)) =
    some (turns [1 / 8, 0], held { const := 0, sines := [{ coeff := 1, turn := 1 / 8 }] }, 1) := by decide +kernel

/-- V-OSC-8 with `SIGN0 = -1`: 3π/4 and π/4 give π, where the square is `SIGN0`. -/
theorem test_voice_zero : (nextOf (.voice 0) { sounding with
      cfg := { cfg2 with SIGN0 := .minusOne }, STEP := turns [1 / 8, 0], PHASE := turns [3 / 8, 0], PMULT := some 1, SQMIX := some 1 }).map
    (fun t => (t.PHASE, t.SUM)) = some (turns [1 / 2, 0], held { const := -1, sines := [] }) := by decide +kernel

/-- V-MIX-2, tick 5: SUM = -sin(π/3) + 1 of two notes at volume 0.5 gives 548. -/
theorem test_tend_average : (nextOf .tend { base2 with
      T := 1, PPH := .finish, CNT := 2, VOL := some (1 / 2)
      SUM := held { const := 1, sines := [{ coeff := -1, turn := 1 / 6 }] } }).map (fun t => (t.BUF, t.T, t.PPH)) =
    some ([0, 0, 548, 548], 2, .begin) := by decide +kernel

/-- V-MIX-7: clipping with `HEADROOM = 40000`; V-MIX-10: no step while VOL is ⊥. -/
theorem test_tend_clips :
    (nextOf .tend { base2 with
      cfg := { cfg2 with HEADROOM := .rat 40000 }, PPH := .finish, CNT := 1, VOL := some 1
      SUM := held { const := -1, sines := [] } }).map State.BUF = some [-32768, -32768, 0, 0] ∧
    faultOf .tend { base2 with PPH := .finish } = some (.unwritten .vol) := by decide +kernel

/-- V-MIX-9. -/
theorem test_submit : (nextOf .submit { base2 with T := 2, BUF := [11585, 11585, -16384, -16384] }).map
    (fun t => (t.T, t.trace)) = some (0, [.sinkSubmit [0x41, 0x2D, 0x41, 0x2D, 0x00, 0xC0, 0x00, 0xC0]]) := by decide
theorem test_submit_early : faultOf .submit { base2 with T := 1 } = some .bufferNotFull := by decide

/-- V-MIX-6. -/
theorem test_toI16 : [11585.99, -11585.99, -0.5, 0.999, 32767.5, 40000, -32768, -32768.5, -40000].map ratToI16 =
    [11585, -11585, 0, 0, 32767, 32767, -32768, -32768, -32768] := by decide +kernel

/-- V-MIX-8. -/
theorem test_le16 : [11585, -11585, 32767, -32768, -1, -6269].map le16 =
    [[0x41, 0x2D], [0xBF, 0xD2], [0xFF, 0x7F], [0x00, 0x80], [0xFF, 0xFF], [0x83, 0xE7]] := by decide

/-! ### Concrete states that meet the invariant -/

/-- Between a tick and an advance: a beat is due, two notes of the last column sound, flags, latches and lines are mixed. -/
def ready : State :=
  { base4 with
    PHASE := turns [1 / 2, 0, 1, 3 / 4]
    GRID := List.replicate 7 [false, false, false, true] ++ [[true, false, false, true]]
    COL := 7
    PEND := [false, false, true, true]
    IRQ := [true, false, false, true]
    LINE := [false, false, true, false]
    VOL := some (1 / 2)
    BEAT := some 250
    SQMIX := some (1 / 4)
    PMULT := some (3 / 2)
    LAST := 1000
    DUE := true }

/-- In the middle of a tick (one of two active notes rendered) and of an advance, the last buffer place next. -/
def busy : State :=
  { ready with
    DUE := false
    T := 3
    PPH := .voices
    PV := 3
    CLAT := 7
    SUM := held (Amp.sine (1 / 8))
    CNT := 1
    CPH := .prm
    CN := 3
    HIT := true
    LLAT := true
    trace := [.dispClear, .dispSetPixels [(7, 0)], .dispCommit] }

theorem ready_inv : ready.Inv where
  cfg_wf := by decide
  step_eq := by decide +kernel
  phase_len := by decide
  phase_fits := by decide
  phase_range := by
    have h : ∀ r ∈ ([1 / 2, 0, 1, 3 / 4] : List ℚ), 0 ≤ r ∧ r ≤ 1 := by decide +kernel
    intro _ d hd
    obtain ⟨r, hr, rfl⟩ := List.mem_map.1 (show d ∈ turns [1 / 2, 0, 1, 3 / 4] from hd)
    rw [Datum.toAngle, Angle.ofTurn_turns]
    exact ⟨by exact_mod_cast (h r hr).1, by exact_mod_cast (h r hr).2⟩
  grid_len := by decide
  grid_rows := by decide
  col_lt := by decide
  clat_lt := by decide
  pend_len := by decide
  irq_len := by decide
  line_len := by decide
  vol_range := by decide +kernel
  beat_range := by decide
  sqmix_range := by decide +kernel
  pmult_range := by decide +kernel
  last_lt := by decide
  due_idle := by decide
  buf_len := by decide
  buf_range := by decide
  t_le := by decide
  t_lt := by decide
  pv_lt := by decide
  cnt_le := by decide
  cnt_le_pv := by decide
  cnt_zero := by decide +kernel
  sum_fits := by decide
  sum_wf := by decide
  sum_le := fun _ => by
    have h : ready.SUM.toWave = Wave.zero := by decide +kernel
    rw [h, Wave.zero_toReal, abs_zero]
    exact Nat.cast_nonneg _
  cn_lt := by decide
  trace_ok := by decide

theorem busy_inv : busy.Inv where
  cfg_wf := by decide
  step_eq := ready_inv.step_eq
  phase_len := by decide
  phase_fits := ready_inv.phase_fits
  phase_range := ready_inv.phase_range
  grid_len := by decide
  grid_rows := by decide
  col_lt := by decide
  clat_lt := by decide
  pend_len := by decide
  irq_len := by decide
  line_len := by decide
  vol_range := ready_inv.vol_range
  beat_range := by decide
  sqmix_range := ready_inv.sqmix_range
  pmult_range := ready_inv.pmult_range
  last_lt := by decide
  due_idle := by decide
  buf_len := by decide
  buf_range := by decide
  t_le := by decide
  t_lt := by decide
  pv_lt := by decide
  cnt_le := by decide
  cnt_le_pv := by decide
  cnt_zero := by decide
  sum_fits := by decide
  sum_wf := Amp.sine_wf _
  sum_le := fun _ => by
    have h : busy.SUM.toWave = Wave.sine (Angle.ofTurn (1 / 8)) := rfl
    have hc : busy.CNT = 1 := rfl
    rw [h, hc, Wave.sine_toReal, Nat.cast_one]
    exact Real.abs_sin_le_one _
  cn_lt := by decide
  trace_ok := by decide

/-- An empty grid, one flag set, the column about to wrap. -/
def blank : State := { ready with GRID := List.replicate 8 (List.replicate 4 false), PEND := [false, false, false, true] }

theorem blank_inv : blank.Inv :=
  { ready_inv with
    grid_len := by decide
    grid_rows := by decide
    pend_len := by decide }

/-- An empty grid, PMULT and SQMIX unwritten. -/
def unset : State := { blank with PMULT := none, SQMIX := none }

theorem unset_inv : unset.Inv :=
  { blank_inv with
    sqmix_range := by decide
    pmult_range := by decide }

/-- The last place of the buffer is next. -/
theorem last_place_inv : ({ ready with T := 3 } : State).Inv :=
  { ready_inv with
    t_le := by decide
    t_lt := by decide }

/-! ### Witnesses: for every obligation with hypotheses, values that meet all of them together -/

theorem witness_EncodedOperationDecodesBack : Config.default.wf = true ∧ cfg1.wf = true ∧
    (Instr.voice 7).wf Config.default = true ∧ (Instr.cwr .beat 4294967295).wf Config.default = true ∧
    (Instr.cwr .pmult 65536).wf Config.default = true ∧ (Instr.rst 255).wf Config.default = true ∧
    (Instr.pchk 1).wf cfg1 = true := by decide

theorem witness_DecodedWordEncodesBack : decode Config.default 0x1300010000 = .ok (.cwr .pmult 65536) ∧
    decode Config.default 0xC700000000 = .ok (.voice 7) := ⟨rfl, rfl⟩

theorem witness_DecodedWordMatchesItsRow : decode Config.default 0x00000000FF = .ok (.rst 255) := rfl

theorem witness_StepPerformsDecodedOperation :
    ({ ready with input := [0x3000000000, 0x4000000000] } : State).cfg.wf = true ∧
    ({ ready with input := [0x3000000000, 0x4000000000] } : State).input = 0x3000000000 :: [0x4000000000] ∧
    decode ready.cfg 0x3000000000 = .ok .abeg := ⟨by decide, rfl, rfl⟩

theorem witness_ReservedWordHasNoStep :
    ({ ready with cfg := { cfg1 with N := 0 } } : State).cfg.wf = false ∧
    ({ ready with input := [0xF000000000] } : State).cfg.wf = true ∧
    ({ ready with input := [0xF000000000] } : State).input = 0xF000000000 :: [] ∧
    decode ready.cfg 0xF000000000 = .error .opcode := ⟨by decide, by decide, rfl, rfl⟩

theorem witness_PresentedOperationRuns : busy.cfg.wf = true ∧ (Instr.voice 3).wf busy.cfg = true := by decide

/-- TBEG at `T = B - 1` and at `T = B`; TEND without VOL; RCHK at and off `CN`. -/
theorem witness_EnabledExactly :
    Enabled { ready with T := 3 } .tbeg ∧ ¬ Enabled { ready with T := 4 } .tbeg ∧ Enabled { ready with T := 4 } .submit ∧
    ¬ Enabled { ready with T := 3 } .submit ∧ ¬ Enabled { base4 with PPH := .finish } .tend ∧
    Enabled { ready with CPH := .chk, CN := 3 } (.rchk 3) ∧ ¬ Enabled { ready with CPH := .chk, CN := 3 } (.rchk 2) := by
  unfold Enabled; decide

theorem witness_DueBeatForcesAdvance : ready.CPH = .idle ∧ ready.DUE = true ∧ Instr.abeg.context = .cl ∧
    ∃ t, exec .abeg ready = .next t := ⟨rfl, rfl, rfl, _, rfl⟩

theorem witness_AdvancesNeverOverlap : busy.CPH ≠ .idle ∧ (Instr.rprm 3).context = .cl ∧
    (∃ a, exec (.rprm 3) busy = .next a) ∧ Instr.abeg.context = .cl := ⟨by decide, rfl, ⟨_, rfl⟩, rfl⟩

theorem witness_ProductionLoopHasOneNext : (Instr.voice 3).context = .pl ∧ ∃ a, exec (.voice 3) busy = .next a :=
  ⟨rfl, _, rfl⟩

/-- With rational parameters, with open reals and with a physical number format. -/
theorem witness_InitialStateMeetsInvariant : Config.default.wf = true ∧ cfg1.wf = true ∧ cfgOpen.wf = true ∧
    ({ cfg4 with NUM := .format 0 } : Config).wf = true := ⟨by decide, by decide, test_cfg_open, by decide⟩

theorem witness_StepKeepsInvariant : ({ busy with input := [0xC300000000] } : State).Inv ∧
    ∃ t, step { busy with input := [0xC300000000] } = .next t := ⟨{ busy_inv with }, _, rfl⟩

theorem witness_EveryRunMeetsInvariant : cfg4.wf = true ∧
    ∃ t, core.run 2 ({ State.initial cfg4 8 with input := [0x3000000000, 0x4000000000] } : State) = .next t :=
  ⟨by decide, _, rfl⟩

/-- One operation of each context. -/
theorem witness_ContextsWriteOnlyTheirFields :
    ((Instr.voice 3).context = .pl ∧ ∃ t, exec (.voice 3) busy = .next t) ∧
    ((Instr.rprm 3).context = .cl ∧ ∃ t, exec (.rprm 3) busy = .next t) ∧
    ((Instr.edge 3).context = .eh ∧ ∃ t, exec (.edge 3) busy = .next t) ∧
    ((Instr.lhi 3).context = .env ∧ ∃ t, exec (.lhi 3) busy = .next t) ∧
    ((Instr.rst 1).context = .host ∧ ∃ t, exec (.rst 1) busy = .next t) :=
  ⟨⟨rfl, _, rfl⟩, ⟨rfl, _, rfl⟩, ⟨rfl, _, rfl⟩, ⟨rfl, _, rfl⟩, ⟨rfl, _, rfl⟩⟩

theorem witness_CellsChangeOnlyByReconciling :
    (∃ t, exec (.rchk 3) { ready with CPH := .chk, CN := 3 } = .next t ∧ t.cell 7 3 ≠ ready.cell 7 3) ∧
    (∃ t, exec (.rst 0) ready = .next t ∧ t.cell 7 3 ≠ ready.cell 7 3) := ⟨⟨_, rfl, by decide⟩, ⟨_, rfl, by decide⟩⟩

theorem witness_SilentNotesFreeze :
    (∃ t, exec (.voice 3) busy = .next t ∧ t.phaseAt 3 ≠ busy.phaseAt 3) ∧
    (∃ t, exec (.rst 0) busy = .next t ∧ t.phaseAt 3 ≠ busy.phaseAt 3) :=
  ⟨⟨_, rfl, by decide +kernel⟩, ⟨_, rfl, by decide +kernel⟩⟩

theorem witness_WrittenParametersStayWritten : (∃ t, exec (.rprm 3) busy = .next t) ∧ (∀ levels, Instr.rprm 3 ≠ .rst levels) ∧
    busy.VOL ≠ none ∧ busy.BEAT ≠ none ∧ busy.SQMIX ≠ none ∧ busy.PMULT ≠ none :=
  ⟨⟨_, rfl⟩, by simp, by decide, by decide, by decide, by decide⟩

theorem witness_TraceOnlyGrows : ∃ t, step { busy with CPH := .finish, input := [0x7000000000] } = .next t := ⟨_, rfl⟩

theorem witness_OperationsAfterReset : busy.cfg.wf = true ∧ ∃ t, exec (.rst 0) busy = .next t := ⟨by decide, _, rfl⟩

/-- `busy` in a machine of a physical number format. -/
def busyFormat : State := { busy with cfg := { cfg4 with NUM := .format 0 } }

/-- The last note (the tick ends) and an earlier one (the next note follows); the reals and a physical number format. -/
theorem witness_VoiceOfActiveNote :
    (busy.PPH = .voices ∧ busy.PV = 3 ∧ 3 < busy.PHASE.length ∧ busy.cell busy.CLAT 3 = true ∧
      busy.PMULT = some (3 / 2) ∧ busy.SQMIX = some (1 / 4) ∧ 3 + 1 = busy.cfg.N) ∧
    (({ busy with PV := 0 } : State).PPH = .voices ∧ ({ busy with PV := 0 } : State).PV = 0 ∧ 0 < busy.PHASE.length ∧
      busy.cell busy.CLAT 0 = true ∧ 0 + 1 ≠ busy.cfg.N) ∧ busy.cfg.NUM = .reals ∧
    (busyFormat.PPH = .voices ∧ busyFormat.PV = 3 ∧ 3 < busyFormat.PHASE.length ∧ busyFormat.cell busyFormat.CLAT 3 = true ∧
      busyFormat.PMULT = some (3 / 2) ∧ busyFormat.SQMIX = some (1 / 4) ∧ busyFormat.cfg.NUM = .format 0) := by
  refine ⟨⟨rfl, rfl, by decide, rfl, rfl, rfl, rfl⟩, ⟨rfl, rfl, by decide, rfl, by decide⟩, rfl,
    rfl, rfl, by decide, rfl, rfl, rfl, rfl⟩

theorem witness_VoiceOfSilentNote :
    (({ busy with PV := 2 } : State).PPH = .voices ∧ ({ busy with PV := 2 } : State).PV = 2 ∧ busy.cell busy.CLAT 2 = false ∧
      2 + 1 ≠ busy.cfg.N) ∧
    (({ busy with CLAT := 0, GRID := blank.GRID } : State).PV = 3 ∧
      ({ busy with CLAT := 0, GRID := blank.GRID } : State).cell 0 3 = false ∧ 3 + 1 = busy.cfg.N) := by decide

theorem witness_VoiceWaitsForParameters :
    (({ busy with PMULT := none } : State).PPH = .voices ∧ ({ busy with PMULT := none } : State).PV = 3 ∧
      busy.cell busy.CLAT 3 = true ∧ ({ busy with PMULT := none } : State).PMULT = none) ∧
    ({ busy with SQMIX := none } : State).SQMIX = none := ⟨⟨rfl, rfl, rfl, rfl⟩, rfl⟩

theorem witness_BlendStaysInRange : (0 : ℚ) ≤ 0 ∧ (0 : ℚ) ≤ 1 ∧ (1 : ℚ) ≤ 1 ∧ Config.default.SIGN0 = .zero ∧
    Real.sin (Angle.ofTurn (1 / 4)).toReal ≠ 0 := by
  refine ⟨le_refl _, by norm_num, le_refl _, rfl, ?_⟩
  have h : (Angle.ofTurn (1 / 4)).toReal = Real.pi / 2 := by
    rw [Angle.toReal_eq, Angle.ofTurn_turns]; push_cast; ring
  rw [h, Real.sin_pi_div_two]
  norm_num

/-- At both ends of every range. -/
theorem witness_PitchMultiplierScalesPhase :
    (0 ≤ (Angle.ofTurn 0).turns ∧ (Angle.ofTurn 0).turns ≤ 1 ∧ 0 < (Angle.ofTurn (1 / 8)).turns ∧
      (Angle.ofTurn (1 / 8)).turns ≤ 1 / 4 ∧ (1 : ℚ) ≤ 1 ∧ (1 : ℚ) ≤ 2) ∧
    (0 ≤ (Angle.ofTurn 1).turns ∧ (Angle.ofTurn 1).turns ≤ 1 ∧ 0 < (Angle.ofTurn (1 / 4)).turns ∧
      (Angle.ofTurn (1 / 4)).turns ≤ 1 / 4 ∧ (1 : ℚ) ≤ 2 ∧ (2 : ℚ) ≤ 2) := by
  simp only [Angle.ofTurn_turns]; norm_num

theorem witness_TickBegins :
    (({ ready with T := 3 } : State).PPH = .begin ∧ ({ ready with T := 3 } : State).T < ready.cfg.B ∧ ready.cfg.NUM = .reals) ∧
    (({ busyFormat with PPH := .begin } : State).T < busyFormat.cfg.B ∧ busyFormat.cfg.NUM = .format 0) := by decide

/-- At the first and the last place of the buffer, with one and with two active notes. -/
theorem witness_TickEnds :
    (({ ready with PPH := .finish, CNT := 2, T := 3 } : State).PPH = .finish ∧ ready.VOL = some (1 / 2) ∧
      2 * ({ ready with PPH := .finish, CNT := 2, T := 3 } : State).T + 1 < ready.BUF.length) ∧
    (2 * ({ ready with PPH := .finish, CNT := 1 } : State).T + 1 < ready.BUF.length ∧ ready.cfg.NUM = .reals) ∧
    (({ busyFormat with PPH := .finish } : State).VOL = some (1 / 2) ∧ 2 * busyFormat.T + 1 < busyFormat.BUF.length ∧
      busyFormat.cfg.NUM = .format 0) := ⟨⟨rfl, rfl, by decide⟩, ⟨by decide, rfl⟩, rfl, by decide, rfl⟩

theorem witness_VolumeZeroIsSilence : ({ ready with PPH := .finish, VOL := some 0, CNT := 1 } : State).PPH = .finish ∧
    ({ ready with PPH := .finish, VOL := some 0, CNT := 1 } : State).VOL = some 0 ∧ 2 * ready.T + 1 < ready.BUF.length ∧
    ready.cfg.NUM = .reals := ⟨rfl, rfl, by decide, rfl⟩

/-- The buffer of `cfg2` with the extreme samples and the samples on both sides of 0. -/
def full : State := { base2 with T := 2, BUF := [-32768, 32767, -1, 0] }

theorem witness_BufferHandedOver : full.PPH = .begin ∧ full.T = full.cfg.B ∧ full.BUF.length = 2 * full.cfg.B ∧
    ∀ y ∈ full.BUF, -32768 ≤ y ∧ y ≤ 32767 := by decide

theorem witness_SampleBytesAreTwosComplement : ((-32768 : Int) ≤ -32768 ∧ (-32768 : Int) ≤ 32767) ∧
    ((-32768 : Int) ≤ 32767 ∧ (32767 : Int) ≤ 32767) ∧ ((-32768 : Int) ≤ -1 ∧ (-1 : Int) ≤ 32767) := by decide

theorem witness_UninterruptedTick : ({ ready with T := 3 } : State).Inv ∧ ({ ready with T := 3 } : State).PPH = .begin ∧
    ({ ready with T := 3 } : State).T < ready.cfg.B ∧ ready.VOL = some (1 / 2) ∧ ready.activeNotes ready.COL = [0, 3] ∧
    ready.PMULT ≠ none ∧ ready.SQMIX ≠ none ∧ ready.cfg.NUM = .reals :=
  ⟨last_place_inv, rfl, by decide, rfl, by decide, by decide, by decide, rfl⟩

/-- With active notes, and with no active note and PMULT and SQMIX unwritten. -/
theorem witness_UninterruptedCycle :
    (ready.Inv ∧ ready.PPH = .begin ∧ ready.T = 0 ∧ ready.VOL = some (1 / 2) ∧ ready.activeNotes ready.COL ≠ [] ∧
      ready.PMULT ≠ none ∧ ready.SQMIX ≠ none) ∧
    (unset.Inv ∧ unset.PPH = .begin ∧ unset.T = 0 ∧ unset.VOL = some (1 / 2) ∧ unset.activeNotes unset.COL = [] ∧
      unset.PMULT = none ∧ unset.SQMIX = none) :=
  ⟨⟨ready_inv, rfl, rfl, rfl, by decide, by decide, by decide⟩, ⟨unset_inv, rfl, rfl, rfl, by decide, rfl, rfl⟩⟩

theorem witness_EmptyColumnIsSilent : blank.Inv ∧ blank.PPH = .begin ∧ blank.T < blank.cfg.B ∧ blank.VOL = some (1 / 2) ∧
    (∀ n, n < blank.cfg.N → blank.cell blank.COL n = false) ∧ blank.cfg.NUM = .reals :=
  ⟨blank_inv, rfl, by decide, rfl, by decide, rfl⟩

/-- One millisecond before the last beat (the counter wrapped), at the last beat, one before and at the next beat. -/
theorem witness_BeatTest : ({ ready with DUE := false } : State).CPH = .idle ∧ ({ ready with DUE := false } : State).DUE = false ∧
    ready.BEAT = some 250 ∧ 999 < ready.LAST ∧ (ready.LAST ≤ 1000 ∧ 1000 - ready.LAST < 250) ∧
    (ready.LAST ≤ 1249 ∧ 1249 - ready.LAST < 250) ∧ (ready.LAST ≤ 1250 ∧ 250 ≤ 1250 - ready.LAST) := by decide

theorem witness_AdvanceBegins : ready.CPH = .idle := rfl

/-- A note with its flag set and one without. -/
theorem witness_NoteReconciled :
    let s : State := { ready with CPH := .chk, CN := 3 }
    let s' : State := { ready with CPH := .chk, CN := 0 }
    (s.CPH = .chk ∧ s.CN = 3 ∧ s.GRID.length = s.cfg.COLUMNS ∧ s.COL < s.cfg.COLUMNS ∧
      (∀ row ∈ s.GRID, row.length = s.cfg.N) ∧ 3 < s.cfg.N ∧ s.PEND.length = s.cfg.N ∧ s.pendAt 3 = true) ∧
    (s'.CPH = .chk ∧ s'.CN = 0 ∧ s'.pendAt 0 = false) := by decide

theorem witness_LineSampled : ({ ready with CPH := .lvl, CN := 2 } : State).CPH = .lvl ∧
    ({ ready with CPH := .lvl, CN := 2 } : State).CN = 2 := by decide

/-- `REPRIME = ALL` at the last note; `CONSUMED` with and without a consumed flag, before the last note. -/
theorem witness_FlagReprimed :
    let s' : State := { ready with cfg := { cfg4 with REPRIME := .consumed }, CPH := .prm, CN := 2, HIT := false }
    (busy.CPH = .prm ∧ busy.CN = 3 ∧ 3 < busy.PEND.length ∧ busy.cfg.REPRIME = .all ∧ 3 + 1 = busy.cfg.N) ∧
    (s'.CPH = .prm ∧ s'.CN = 2 ∧ 2 < s'.PEND.length ∧ s'.cfg.REPRIME ≠ .all ∧ s'.HIT = false ∧ 2 + 1 ≠ s'.cfg.N) ∧
    ({ s' with HIT := true } : State).HIT = true := by decide

theorem witness_RedrawEmitted : ({ ready with CPH := .finish } : State).CPH = .finish ∧ ready.cfg.wf = true ∧
    ready.COL < ready.cfg.COLUMNS := by decide

theorem witness_RedrawInAnyOrder :
    let s : State := { base4 with CPH := .finish, COL := 2, GRID := [[false, true, false, false]] ++ List.replicate 7 [false, false, false, false] }
    (∃ t, exec .aend s = .next t) ∧ Realises s.trace [] ∧ [(2, 0), (0, 1)].Perm s.pixels :=
  ⟨⟨_, rfl⟩, .nil, by decide⟩

theorem witness_UninterruptedAdvance : ready.Inv ∧ ready.CPH = .idle := ⟨ready_inv, rfl⟩

theorem witness_AdvancesWrapAroundTheColumns : ready.Inv ∧ ready.CPH = .idle := ⟨ready_inv, rfl⟩

theorem witness_OnePressSetsOneCell : blank.Inv ∧ blank.CPH = .idle ∧ 3 < blank.cfg.N ∧ (∀ c m, blank.cell c m = false) ∧
    ∀ m, blank.pendAt m = decide (m = 3) := by
  refine ⟨blank_inv, rfl, by decide, fun c m => ?_, fun m => ?_⟩
  · have h : blank.GRID = List.replicate 8 (List.replicate 4 false) := rfl
    simp only [State.cell, State.flagAt, h, List.getD_eq_getElem?_getD, List.getElem?_replicate]
    split_ifs
    · rcases m with _ | _ | _ | _ | m <;> rfl
    · rfl
  · match m with
    | 0 => rfl
    | 1 => rfl
    | 2 => rfl
    | 3 => rfl
    | m + 4 =>
      have h : ¬ (m + 4 = 3) := by omega
      simp [State.pendAt, State.flagAt, blank, h]

theorem witness_HeldButtonRepeats : ready.Inv ∧ ready.CPH = .idle ∧ 2 < ready.cfg.N ∧ ready.cfg.REPRIME = .all ∧
    ready.lineAt 2 = true := ⟨ready_inv, rfl, by decide, rfl, rfl⟩

/-- For each outcome: `REPRIME = ALL`, `CONSUMED` after a consumed flag, `CONSUMED` after none. -/
theorem witness_LostPressWindow :
    let s : State := { ready with CPH := .lvl, CN := 3, HIT := true }
    let s' : State := { s with cfg := { cfg4 with REPRIME := .consumed }, HIT := false }
    (s.CPH = .lvl ∧ s.CN = 3 ∧ s.lineAt 3 = false ∧ 3 < s.PEND.length ∧ 3 < s.IRQ.length ∧ 3 < s.LINE.length ∧
      s.cfg.REPRIME = .all) ∧
    (s'.CPH = .lvl ∧ s'.CN = 3 ∧ s'.lineAt 3 = false ∧ s'.cfg.REPRIME ≠ .all ∧ s'.HIT = false) ∧
    ({ s' with HIT := true } : State).HIT = true := by decide

/-- At RCHK and at RPRM of the note. -/
theorem witness_EdgeOutsideTheWindow :
    let s : State := { ready with CPH := .chk, CN := 3 }
    (s.CN = 3 ∧ 3 < s.PEND.length ∧ s.irqAt 3 = true ∧ s.CPH = .chk ∧ s.COL < s.GRID.length ∧
      3 < (s.GRID.getD s.COL []).length) ∧
    (busy.CN = 3 ∧ 3 < busy.PEND.length ∧ busy.irqAt 3 = true ∧ busy.CPH = .prm) := by decide

/-- A low line and a high line. -/
theorem witness_LineRises : (3 < ready.IRQ.length ∧ 3 < ready.LINE.length ∧ ready.lineAt 3 = false) ∧
    (2 < ready.IRQ.length ∧ 2 < ready.LINE.length ∧ ready.lineAt 2 = true) := by decide

theorem witness_LineFalls : 2 < ready.LINE.length := by decide

/-- A source that requests and one that does not. -/
theorem witness_HandlerSetsFlag : (3 < ready.PEND.length ∧ ready.irqAt 3 = true) ∧
    (1 < ready.PEND.length ∧ ready.irqAt 1 = false) := by decide

theorem witness_PressAndTap : 3 < ready.PEND.length ∧ 3 < ready.IRQ.length ∧ 3 < ready.LINE.length ∧
    ready.lineAt 3 = false := by decide

theorem witness_HandlersCommute : 0 ≠ 3 ∧ ready.irqAt 0 = true ∧ ready.irqAt 3 = true := by decide

theorem witness_HandlerAndProductionCommute : (Instr.voice 3).context = .pl ∧ (∃ a, exec (.voice 3) busy = .next a) ∧
    busy.irqAt 3 = true := ⟨rfl, ⟨_, rfl⟩, rfl⟩

theorem witness_ControlRegisterWritten : ({ ready with DUE := false } : State).CPH = .idle ∧
    ({ ready with DUE := false } : State).DUE = false := by decide

theorem witness_InitialStateIsAfterReset : ready.cfg = cfg4 ∧ ready.trace = [] ∧ ready.input = [] := ⟨rfl, rfl, rfl⟩

end Sys2Proof.Tests
end

section
/-! The outcomes of a step that performs no operation (00_scope.md R10, 30_encoding.md R103). -/
namespace Sys2Proof.Machine

/-- R10: an ill-formed configuration has no meaning, whatever word is presented. -/
theorem step_of_cfg_not_wf {s : State} (h : s.cfg.wf = false) : step s = .refused .illFormedConfig := by
  simp [step, h]

/-- R103: the refusal names the constraint that the reserved word breaks. -/
theorem step_of_decode_error {s : State} {w : OpWord} {rest : List OpWord} {why : Reserved}
    (hcfg : s.cfg.wf = true) (hin : s.input = w :: rest) (hdec : decode s.cfg w = .error why) :
    step s = .refused (.reservedWord why) := by
  simp [step, hcfg, hin, hdec]

/-- Settles O7: the configuration is judged first, then the next presented word. -/
theorem reservedWordHasNoStep : Obligations.ReservedWordHasNoStep := by
  unfold Obligations.ReservedWordHasNoStep
  constructor
  · intro s
    exact step_of_cfg_not_wf
  · intro s w rest why
    exact step_of_decode_error

end Sys2Proof.Machine
end

section
/-! What a decoded operation's operands satisfy (30_encoding.md R93 to R96), so that a step's operands are in range. -/
namespace Sys2Proof

theorem wf_of_decodeZ {c : Config} {j i : Instr} {idx data : Nat} (hj : j.wf c = true)
    (h : decodeZ j idx data = .ok i) : i.wf c = true := by
  unfold decodeZ at h
  split_ifs at h
  exact Except.ok.inj h ▸ hj

theorem wf_of_decodeN {c : Config} {mk : Nat → Instr} {i : Instr} {idx data : Nat}
    (hmk : ∀ n, (mk n).wf c = decide (n < c.N)) (h : decodeN c mk idx data = .ok i) : i.wf c = true := by
  unfold decodeN at h
  split_ifs at h with hidx
  rw [← Except.ok.inj h, hmk, decide_eq_true_eq]
  exact not_le.1 hidx

theorem wf_of_decodeT {c : Config} {i : Instr} {idx data : Nat} (h : decodeT c Instr.pchk idx data = .ok i) :
    i.wf c = true := by
  unfold decodeT at h
  split_ifs at h with _ hdata
  rw [← Except.ok.inj h]
  exact decide_eq_true (not_le.1 hdata)

theorem wf_of_decodeR {c : Config} {i : Instr} {idx data : Nat} (h : decodeR c Instr.rst idx data = .ok i) :
    i.wf c = true := by
  unfold decodeR at h
  split_ifs at h with _ hdata
  rw [← Except.ok.inj h, Instr.wf, decide_eq_true_eq, BitVec.toNat_ofNat]
  exact (Nat.mod_le _ _).trans_lt (not_le.1 hdata)

theorem wf_of_decodeP {c : Config} {i : Instr} {idx data : Nat} (h : decodeP c Instr.cwr idx data = .ok i) :
    i.wf c = true := by
  unfold decodeP at h
  split at h
  · cases h
  · split_ifs at h with hdata
    rw [← Except.ok.inj h]
    exact decide_eq_true (not_le.1 hdata)
  · rename_i p hne _
    split_ifs at h with hdata
    rw [← Except.ok.inj h]
    cases p with
    | beat => exact absurd rfl hne
    | vol => exact decide_eq_true (not_lt.1 hdata)
    | sqmix => exact decide_eq_true (not_lt.1 hdata)
    | pmult => exact decide_eq_true (not_lt.1 hdata)

/-- The decoder answers only operations whose operands are in range (R98). -/
theorem wf_of_decode {c : Config} {w : OpWord} {i : Instr} (h : decode c w = .ok i) : i.wf c = true := by
  unfold decode at h
  dsimp only at h
  split at h
  · exact wf_of_decodeR h
  · exact wf_of_decodeP h
  · exact wf_of_decodeT h
  · exact wf_of_decodeZ rfl h
  · exact wf_of_decodeN (fun _ => rfl) h
  · exact wf_of_decodeN (fun _ => rfl) h
  · exact wf_of_decodeN (fun _ => rfl) h
  · exact wf_of_decodeZ rfl h
  · exact wf_of_decodeN (fun _ => rfl) h
  · exact wf_of_decodeN (fun _ => rfl) h
  · exact wf_of_decodeN (fun _ => rfl) h
  · exact wf_of_decodeZ rfl h
  · exact wf_of_decodeN (fun _ => rfl) h
  · exact wf_of_decodeZ rfl h
  · exact wf_of_decodeZ rfl h
  · cases h

end Sys2Proof
end

section
/-! The state after reset (10_state.md R53, 70_reset_and_hazards.md R230) meets the invariant of R48. -/
namespace Sys2Proof.Machine

/-- R230: reset depends on the configuration and the levels alone; the trace and the presented words stay. -/
theorem execRst_eq (levels : BitVec 32) (s : State) :
    execRst levels s = .next { State.initial s.cfg levels with trace := s.trace, input := s.input } := rfl

theorem execRst_next {levels : BitVec 32} {s t : State} (h : execRst levels s = .next t) :
    t = { State.initial s.cfg levels with trace := s.trace, input := s.input } :=
  (Host.Outcome.next.inj h).symm

/-- The angle 0 as a number format holds it is 0 turns, whichever the format. -/
theorem ofAngle_zero_turns (f : NumFormat) : (f.ofAngle (Angle.ofTurn 0)).toAngle.turns = 0 := by
  cases f <;> simp [NumFormat.ofAngle, Datum.toAngle]

theorem ofWave_zero_toWave (f : NumFormat) : (f.ofWave Wave.zero).toWave = Wave.zero := by cases f <;> rfl

theorem ofWave_zero_wf (f : NumFormat) : (f.ofWave Wave.zero).toWave.amp.wf = true := by
  rw [ofWave_zero_toWave]; rfl

theorem ofWave_zero_abs_le (f : NumFormat) (cnt : Nat) : |(f.ofWave Wave.zero).toWave.toReal| ≤ cnt := by
  rw [ofWave_zero_toWave, Wave.zero_toReal, abs_zero]
  exact Nat.cast_nonneg _

theorem initial_inv {c : Config} (levels : BitVec 32) (hc : c.wf = true) : (State.initial c levels).Inv where
  cfg_wf := hc
  step_eq := rfl
  phase_len := List.length_replicate
  phase_fits := fun d hd => by rw [List.eq_of_mem_replicate hd]; exact Datum.fits_ofAngle _ _
  phase_range := fun _ d hd => by
    rw [List.eq_of_mem_replicate hd, ofAngle_zero_turns]
    exact ⟨le_rfl, zero_le_one⟩
  grid_len := List.length_replicate
  grid_rows := fun row hrow => by rw [List.eq_of_mem_replicate hrow]; exact List.length_replicate
  col_lt := Config.COLUMNS_pos hc
  clat_lt := Config.COLUMNS_pos hc
  pend_len := List.length_replicate
  irq_len := List.length_replicate
  line_len := by simp [State.initial]
  vol_range := nofun
  beat_range := nofun
  sqmix_range := nofun
  pmult_range := nofun
  last_lt := Nat.two_pow_pos _
  due_idle := nofun
  buf_len := List.length_replicate
  buf_range := fun y hy => by rw [List.eq_of_mem_replicate hy]; decide
  t_le := Nat.zero_le _
  t_lt := fun h => absurd rfl h
  pv_lt := Config.N_pos hc
  cnt_le := Nat.zero_le _
  cnt_le_pv := nofun
  cnt_zero := fun _ => rfl
  sum_fits := Datum.fits_ofWave _ _
  sum_wf := ofWave_zero_wf _
  sum_le := fun _ => ofWave_zero_abs_le _ _
  cn_lt := Config.N_pos hc
  trace_ok := nofun

/-- Settles O13: `State.reset` is the initial state of the default configuration, which is well-formed. -/
theorem initialStateMeetsInvariant : Obligations.InitialStateMeetsInvariant := by
  unfold Obligations.InitialStateMeetsInvariant
  exact ⟨initial_inv 0 (by decide), fun _ levels hc => initial_inv levels hc⟩

/-- Settles O59: RST keeps of the state only the configuration, the trace and the input, and the last two are empty. -/
theorem initialStateIsAfterReset : Obligations.InitialStateIsAfterReset := by
  unfold Obligations.InitialStateIsAfterReset
  intro c levels s hcfg htrace hinput
  change execRst levels s = _
  rw [execRst_eq, hcfg, htrace, hinput]
  rfl

end Sys2Proof.Machine
end

section
/-! Every operation keeps the invariant of R48: first the named updates of the state, then the operations made of them. -/
namespace Sys2Proof.Machine

theorem codeFraction_range {v : Nat} (hv : v ≤ 65536) : 0 ≤ codeFraction v ∧ codeFraction v ≤ 1 := by
  have hv' : (v : ℚ) ≤ 65536 := by exact_mod_cast hv
  exact ⟨by unfold codeFraction; positivity, (div_le_one (by norm_num)).2 hv'⟩

theorem codeMultiplier_range {v : Nat} (hv : v ≤ 65536) : 1 ≤ codeMultiplier v ∧ codeMultiplier v ≤ 2 := by
  have h : codeMultiplier v = 1 + codeFraction v := rfl
  have hf := codeFraction_range hv
  constructor <;> linarith

/-- The listed pixels of a redraw are places of the display, each once (R61, R169). -/
theorem State.pixels_ok (s : State) : (Event.dispSetPixels s.pixels).ok s.cfg = true := by
  simp only [Event.ok, Bool.and_eq_true, decide_eq_true_eq, List.all_eq_true]
  refine ⟨s.pixels_nodup, fun ⟨c, r⟩ hp => ?_⟩
  obtain ⟨hc, hr, -⟩ := (s.mem_pixels c r).1 hp
  exact ⟨hc, hr⟩

/-- Rendering a note and moving on to the next write different fields (R130). -/
theorem State.afterVoice_renderVoice (s : State) (n : Nat) (pm q : ℚ) :
    (s.renderVoice n pm q).afterVoice n = (s.afterVoice n).renderVoice n pm q := by
  unfold State.afterVoice
  rw [State.renderVoice_cfg]
  split_ifs <;> rfl

/-- A run of `k + 1` steps is a step and a run of `k` steps. -/
theorem run_succ_next {k : Nat} {s t : State} (h : core.run (k + 1) s = .next t) :
    ∃ u, step s = .next u ∧ core.run k u = .next t := by
  rw [Host.Core.run.eq_def core (k + 1) s] at h
  dsimp only at h
  split at h
  · rename_i u hu
    exact ⟨u, hu, h⟩
  · cases h
  · cases h

namespace State.Inv

variable {s : State}

/-! ### FLAG and GRID space -/

theorem setPend (h : s.Inv) (n : Nat) (v : Bool) : (s.setPend n v).Inv :=
  { h with pend_len := by rw [setPend_PEND, List.length_set]; exact h.pend_len }

theorem setIrq (h : s.Inv) (n : Nat) (v : Bool) : (s.setIrq n v).Inv :=
  { h with irq_len := by rw [setIrq_IRQ, List.length_set]; exact h.irq_len }

theorem setLine (h : s.Inv) (n : Nat) (v : Bool) : (s.setLine n v).Inv :=
  { h with line_len := by rw [setLine_LINE, List.length_set]; exact h.line_len }

theorem row_len (h : s.Inv) {c : Nat} (hc : c < s.cfg.COLUMNS) : (s.GRID.getD c []).length = s.cfg.N := by
  have hlen : c < s.GRID.length := h.grid_len ▸ hc
  rw [List.getD_eq_getElem _ _ hlen]
  exact h.grid_rows _ (List.getElem_mem hlen)

theorem setCell (h : s.Inv) {c : Nat} (hc : c < s.cfg.COLUMNS) (n : Nat) (v : Bool) : (s.setCell c n v).Inv :=
  { h with
    grid_len := by rw [setCell_GRID, List.length_set]; exact h.grid_len
    grid_rows := fun row hrow => by
      rcases List.mem_or_eq_of_mem_set hrow with hold | rfl
      · exact h.grid_rows row hold
      · rw [List.length_set]; exact h.row_len hc }

theorem consume (h : s.Inv) (n : Nat) : (s.consume n).Inv := by
  rcases s.consume_cases n with ⟨-, e⟩ | ⟨-, e⟩ <;> rw [e]
  · exact h
  · exact (h.setCell h.col_lt n _).setPend n false

theorem reprime (h : s.Inv) (n : Nat) : (s.reprime n).Inv := by
  rcases s.reprime_cases n with ⟨-, e⟩ | ⟨-, -, e⟩ <;> rw [e]
  · exact h.setPend n _
  · exact h

/-! ### The sequencing fields -/

/-- Inside an advance no beat is due: the beat test runs only between advances (R107). -/
theorem due_eq_false (h : s.Inv) (hc : s.CPH ≠ .idle) : s.DUE = false :=
  Bool.eq_false_iff.2 fun hd => hc (h.due_idle hd)

theorem withCtrlPhase (h : s.Inv) (hd : s.DUE = false) (p : CtrlPhase) : ({ s with CPH := p } : State).Inv :=
  { h with due_idle := fun hd' => Bool.noConfusion (hd.symm.trans hd') }

theorem afterPrime (h : s.Inv) (hd : s.DUE = false) {n : Nat} (hn : n < s.cfg.N) : (s.afterPrime n).Inv := by
  rcases s.afterPrime_cases n with ⟨-, e⟩ | ⟨hne, e⟩ <;> rw [e]
  · exact h.withCtrlPhase hd .finish
  · exact { h.withCtrlPhase hd .chk with cn_lt := by dsimp only; omega }

/-- `afterVoice` keeps the invariant and leaves room in the count of active notes for one more. -/
theorem afterVoice (h : s.Inv) (hp : s.PPH = .voices) :
    (s.afterVoice s.PV).Inv ∧ (s.afterVoice s.PV).CNT < s.cfg.N ∧
      ((s.afterVoice s.PV).PPH = .voices → (s.afterVoice s.PV).CNT < (s.afterVoice s.PV).PV) := by
  have hcnt := h.cnt_le_pv hp
  have hpv := h.pv_lt
  have ht := h.t_lt (by simp [hp])
  rcases s.afterVoice_cases s.PV with ⟨-, e⟩ | ⟨hne, e⟩ <;> rw [e]
  · exact ⟨{ h with t_lt := fun _ => ht, cnt_le_pv := nofun }, hcnt.trans_lt hpv, nofun⟩
  · exact ⟨{ h with pv_lt := by dsimp only; omega, cnt_le_pv := fun _ => Nat.le_succ_of_le hcnt },
      hcnt.trans_lt hpv, fun _ => Nat.lt_succ_of_le hcnt⟩

/-! ### The oscillator -/

theorem phaseAt_mem (h : s.Inv) {n : Nat} (hn : n < s.cfg.N) : s.phaseAt n ∈ s.PHASE := by
  have hlen : n < s.PHASE.length := h.phase_len ▸ hn
  rw [State.phaseAt, List.getD_eq_getElem _ _ hlen]
  exact List.getElem_mem hlen

theorem stepAt_eq (h : s.Inv) {n : Nat} (hn : n < s.cfg.N) : s.stepAt n = s.cfg.stepValue n := by
  simp [State.stepAt, h.step_eq, List.getD_eq_getElem?_getD, hn]

/-- Over the reals the advanced phase stays within one turn (R48(a), R125). -/
theorem advancePhase_range (h : s.Inv) (hnum : s.cfg.NUM = .reals) {n : Nat} (hn : n < s.cfg.N) {pm : ℚ}
    (hpm : 1 ≤ pm ∧ pm ≤ 2) :
    0 ≤ (advancePhase s.cfg.NUM (s.phaseAt n) (s.stepAt n) pm).toAngle.turns ∧
      (advancePhase s.cfg.NUM (s.phaseAt n) (s.stepAt n) pm).toAngle.turns ≤ 1 := by
  have hstep : (s.stepAt n).toAngle = s.cfg.stepAngle n := by
    rw [h.stepAt_eq hn, Config.stepValue, hnum]; rfl
  have hrange := Config.stepAngle_range h.cfg_wf hn
  rw [← hstep] at hrange
  rw [hnum]
  exact advanceAngle_range (h.phase_range hnum _ (h.phaseAt_mem hn)) hrange hpm

/-- Over the reals one more rendered sample moves SUM by at most 1 (R127). -/
theorem addShaped_abs_le (h : s.Inv) (hnum : s.cfg.NUM = .reals) (φ : Datum Angle) {q : ℚ} (hq : 0 ≤ q ∧ q ≤ 1) :
    |(addShaped s.cfg.NUM s.SUM s.cfg.SIGN0 φ q).toWave.toReal| ≤ (s.CNT + 1 : Nat) := by
  obtain ⟨hq0, hq1⟩ := hq
  have hold := h.sum_le hnum
  have hnew : |realRender s.cfg.SIGN0.value φ.toAngle.toReal q| ≤ 1 :=
    realRender_abs_le _ _ _ (signZero_abs_le _) (by exact_mod_cast hq0) (by exact_mod_cast hq1)
  have hsum : (addShaped s.cfg.NUM s.SUM s.cfg.SIGN0 φ q).toWave.toReal =
      s.SUM.toWave.toReal + realRender s.cfg.SIGN0.value φ.toAngle.toReal q := by
    rw [hnum, addShaped, Datum.toWave, Wave.add_toReal, shapedWave_toReal]
  rw [hsum, Nat.cast_succ]
  exact (abs_add_le _ _).trans (add_le_add hold hnew)

/-- Where the count has room for one more active note, the rendering of a note keeps the invariant (R129, R130). -/
theorem renderVoice (h : s.Inv) {n : Nat} (hn : n < s.cfg.N) {pm q : ℚ} (hpm : 1 ≤ pm ∧ pm ≤ 2) (hq : 0 ≤ q ∧ q ≤ 1)
    (hN : s.CNT < s.cfg.N) (hPV : s.PPH = .voices → s.CNT < s.PV) : (s.renderVoice n pm q).Inv :=
  { h with
    phase_len := by rw [renderVoice_spec, List.length_set]; exact h.phase_len
    phase_fits := fun d hd => by
      rcases List.mem_or_eq_of_mem_set hd with hold | rfl
      · exact h.phase_fits d hold
      · exact advancePhase_fits _ _ _ _
    phase_range := fun hnum d hd => by
      rcases List.mem_or_eq_of_mem_set hd with hold | rfl
      · exact h.phase_range hnum d hold
      · exact h.advancePhase_range hnum hn hpm
    cnt_le := hN
    cnt_le_pv := hPV
    cnt_zero := nofun
    sum_fits := addShaped_fits _ _ _ _ _
    sum_wf := addShaped_wf _ _ _ _ _ h.sum_wf
    sum_le := fun hnum => h.addShaped_abs_le hnum _ hq }

/-! ### The other registers -/

theorem setPair (h : s.Inv) {y : Int} (hy : -32768 ≤ y ∧ y ≤ 32767) : (s.setPair y).Inv :=
  { h with
    buf_len := by rw [setPair_BUF, List.length_set, List.length_set]; exact h.buf_len
    buf_range := fun x hx => by
      rcases List.mem_or_eq_of_mem_set hx with hx | rfl
      · rcases List.mem_or_eq_of_mem_set hx with hold | rfl
        · exact h.buf_range x hold
        · exact hy
      · exact hy }

theorem writeCtrl (h : s.Inv) {p : CtrlReg} {v : Nat} (hv : p.valueOk s.cfg v = true) : (s.writeCtrl p v).Inv := by
  cases p with
  | vol => exact { h with vol_range := fun x hx => Option.mem_some.1 hx ▸ codeFraction_range (of_decide_eq_true hv) }
  | beat => exact { h with beat_range := fun x hx => Option.mem_some.1 hx ▸ of_decide_eq_true hv }
  | sqmix => exact { h with sqmix_range := fun x hx => Option.mem_some.1 hx ▸ codeFraction_range (of_decide_eq_true hv) }
  | pmult => exact { h with pmult_range := fun x hx => Option.mem_some.1 hx ▸ codeMultiplier_range (of_decide_eq_true hv) }

theorem emit (h : s.Inv) {es : List Event} (hes : ∀ e ∈ es, e.ok s.cfg = true) : (s.emit es).Inv :=
  { h with trace_ok := fun e he => (List.mem_append.1 he).elim (h.trace_ok e) (hes e) }

/-- A buffer of `2B` samples is handed over as `4B` bytes (R63). -/
theorem sinkBytes_ok (h : s.Inv) : (Event.sinkSubmit (sinkBytes s.BUF)).ok s.cfg = true := by
  rw [Event.ok, decide_eq_true_eq, sinkBytes_length, h.buf_len]
  omega

/-! ### The operations -/

variable {t : State} {n : Nat}

theorem execRst {levels : BitVec 32} (h : s.Inv) (hx : execRst levels s = .next t) : t.Inv := by
  obtain rfl := execRst_next hx
  exact { initial_inv levels h.cfg_wf with trace_ok := h.trace_ok }

theorem execCwr {p : CtrlReg} {v : Nat} (h : s.Inv) (hv : p.valueOk s.cfg v = true) (hx : execCwr p v s = .next t) :
    t.Inv := by
  obtain ⟨-, -, rfl⟩ := execCwr_next hx
  exact h.writeCtrl hv

theorem execPchk {now : Nat} (h : s.Inv) (hnow : now < 2 ^ s.cfg.TW) (hx : execPchk now s = .next t) : t.Inv := by
  obtain ⟨hidle, -, beat, -, ⟨-, rfl⟩ | ⟨-, rfl⟩⟩ := execPchk_next hx
  · exact { h with last_lt := hnow, due_idle := fun _ => hidle }
  · exact { h with due_idle := nofun }

theorem execAbeg (h : s.Inv) (hx : execAbeg s = .next t) : t.Inv := by
  obtain ⟨-, rfl⟩ := execAbeg_next hx
  exact
    { h with
      col_lt := Nat.mod_lt _ (Config.COLUMNS_pos h.cfg_wf)
      due_idle := nofun
      cn_lt := Config.N_pos h.cfg_wf }

theorem execRchk (h : s.Inv) (hx : execRchk n s = .next t) : t.Inv := by
  obtain ⟨hchk, -, rfl⟩ := execRchk_next hx
  have hd := h.due_eq_false (by simp [hchk])
  exact { (h.consume n).withCtrlPhase (by rwa [consume_DUE]) .lvl with }

theorem execRlvl (h : s.Inv) (hx : execRlvl n s = .next t) : t.Inv := by
  obtain ⟨hlvl, -, rfl⟩ := execRlvl_next hx
  have hd := h.due_eq_false (by simp [hlvl])
  exact { h.withCtrlPhase hd .prm with }

theorem execRprm (h : s.Inv) (hx : execRprm n s = .next t) : t.Inv := by
  obtain ⟨hprm, rfl, rfl⟩ := execRprm_next hx
  have hd := h.due_eq_false (by simp [hprm])
  exact (h.reprime _).afterPrime (by rwa [reprime_DUE]) (by rw [reprime_cfg]; exact h.cn_lt)

theorem execAend (h : s.Inv) (hx : execAend s = .next t) : t.Inv := by
  obtain ⟨-, rfl⟩ := execAend_next hx
  have hes : ∀ e ∈ [Event.dispClear, .dispSetPixels s.pixels, .dispCommit], e.ok s.cfg = true := by
    simp only [List.forall_mem_cons, List.not_mem_nil, false_imp_iff, implies_true, and_true]
    exact ⟨rfl, pixels_ok s, rfl⟩
  exact { h.emit hes with due_idle := fun _ => rfl }

theorem execLhi (h : s.Inv) (hx : execLhi n s = .next t) : t.Inv := by
  rcases execLhi_next hx with ⟨-, rfl⟩ | ⟨-, rfl⟩
  · exact h.setLine n true
  · exact (h.setIrq n true).setLine n true

theorem execLlo (h : s.Inv) (hx : execLlo n s = .next t) : t.Inv := by
  obtain rfl := execLlo_next hx
  exact h.setLine n false

theorem execEdge (h : s.Inv) (hx : execEdge n s = .next t) : t.Inv := by
  obtain ⟨-, rfl⟩ := execEdge_next hx
  exact (h.setPend n true).setIrq n false

theorem execTbeg (h : s.Inv) (hx : execTbeg s = .next t) : t.Inv := by
  obtain ⟨-, hT, rfl⟩ := execTbeg_next hx
  exact
    { h with
      clat_lt := h.col_lt
      t_lt := fun _ => hT
      pv_lt := Config.N_pos h.cfg_wf
      cnt_le := Nat.zero_le _
      cnt_le_pv := fun _ => le_rfl
      cnt_zero := fun _ => rfl
      sum_fits := Datum.fits_ofWave _ _
      sum_wf := ofWave_zero_wf _
      sum_le := fun _ => ofWave_zero_abs_le _ _ }

theorem execVoice (h : s.Inv) (hx : execVoice n s = .next t) : t.Inv := by
  obtain ⟨hp, rfl, ⟨-, pm, q, hpm, hq, rfl⟩ | ⟨-, rfl⟩⟩ := execVoice_next hx
  · obtain ⟨hinv, hN, hPV⟩ := h.afterVoice hp
    rw [afterVoice_renderVoice]
    refine hinv.renderVoice ?_ (h.pmult_range pm hpm) (h.sqmix_range q hq) ?_ hPV
    · rw [afterVoice_cfg]; exact h.pv_lt
    · rwa [afterVoice_cfg]
  · exact (h.afterVoice hp).1

theorem execTend (h : s.Inv) (hx : execTend s = .next t) : t.Inv := by
  obtain ⟨hp, v, -, rfl⟩ := execTend_next hx
  exact
    { h.setPair (sample_range s v) with
      t_le := h.t_lt (by simp [hp])
      t_lt := fun hb => absurd rfl hb
      cnt_le_pv := nofun }

theorem execSubmit (h : s.Inv) (hx : execSubmit s = .next t) : t.Inv := by
  obtain ⟨-, -, rfl⟩ := execSubmit_next hx
  have hes : ∀ e ∈ [Event.sinkSubmit (sinkBytes s.BUF)], e.ok s.cfg = true :=
    List.forall_mem_singleton.2 h.sinkBytes_ok
  exact { h.emit hes with t_le := Nat.zero_le _, t_lt := fun _ => Config.B_pos h.cfg_wf }

/-- R48: an operation with operands in range keeps the invariant. -/
theorem exec {i : Instr} (h : s.Inv) (hi : i.wf s.cfg = true) (hx : exec i s = .next t) : t.Inv := by
  cases i with
  | rst levels => exact h.execRst hx
  | cwr p v => exact h.execCwr hi hx
  | pchk now => exact h.execPchk (of_decide_eq_true hi) hx
  | abeg => exact h.execAbeg hx
  | rchk n => exact h.execRchk hx
  | rlvl n => exact h.execRlvl hx
  | rprm n => exact h.execRprm hx
  | aend => exact h.execAend hx
  | lhi n => exact h.execLhi hx
  | llo n => exact h.execLlo hx
  | edge n => exact h.execEdge hx
  | tbeg => exact h.execTbeg hx
  | voice n => exact h.execVoice hx
  | tend => exact h.execTend hx
  | submit => exact h.execSubmit hx

theorem withInput (h : s.Inv) (words : List OpWord) : ({ s with input := words } : State).Inv := { h with }

theorem step (h : s.Inv) (hx : step s = .next t) : t.Inv := by
  obtain ⟨-, w, rest, i, -, hdec, hexec⟩ := step_next hx
  exact (h.withInput rest).exec (wf_of_decode hdec) hexec

theorem run (k : Nat) (h : s.Inv) (hx : core.run k s = .next t) : t.Inv := by
  induction k generalizing s with
  | zero => exact Host.Outcome.next.inj hx ▸ h
  | succ k ih =>
    obtain ⟨u, hstep, hrun⟩ := run_succ_next hx
    exact ih (h.step hstep) hrun

end State.Inv

/-- Settles O14: the operation that a step decodes has its operands in range, and each of the fifteen keeps the invariant. -/
theorem stepKeepsInvariant : Obligations.StepKeepsInvariant := by
  unfold Obligations.StepKeepsInvariant
  intro s t hinv hstep
  exact hinv.step hstep

/-- Settles O15, by induction on the number of steps; the listing of words is no part of the invariant. -/
theorem everyRunMeetsInvariant : Obligations.EveryRunMeetsInvariant := by
  unfold Obligations.EveryRunMeetsInvariant
  intro c levels words k t hc hrun
  exact ((initial_inv levels hc).withInput words).run k hrun

end Sys2Proof.Machine
end

section
/-! What each execution context writes (10_state.md R47), and what follows for the grid, the control parameters and the
output trace. -/
namespace Sys2Proof.Machine

variable {i : Instr} {s t : State}

/-! ### The frame of each context -/

theorem productionLoop_frame (hi : i.context = .pl) (h : exec i s = .next t) :
    t = { s with
      PHASE := t.PHASE, BUF := t.BUF, T := t.T, PPH := t.PPH, PV := t.PV, CLAT := t.CLAT, SUM := t.SUM, CNT := t.CNT,
      trace := t.trace } := by
  cases i <;> cases hi
  case tbeg =>
    obtain ⟨-, -, rfl⟩ := execTbeg_next h
    rfl
  case voice n =>
    obtain ⟨-, -, ⟨-, pm, q, -, -, rfl⟩ | ⟨-, rfl⟩⟩ := execVoice_next h
    · rcases (s.renderVoice n pm q).afterVoice_cases n with ⟨-, e⟩ | ⟨-, e⟩ <;> (rw [e]; rfl)
    · rcases s.afterVoice_cases n with ⟨-, e⟩ | ⟨-, e⟩ <;> rw [e]
  case tend =>
    obtain ⟨-, v, -, rfl⟩ := execTend_next h
    rfl
  case submit =>
    obtain ⟨-, -, rfl⟩ := execSubmit_next h
    rfl

theorem controlLoop_frame (hi : i.context = .cl) (h : exec i s = .next t) :
    t = { s with
      GRID := t.GRID, COL := t.COL, PEND := t.PEND, VOL := t.VOL, BEAT := t.BEAT, SQMIX := t.SQMIX, PMULT := t.PMULT,
      LAST := t.LAST, DUE := t.DUE, CPH := t.CPH, CN := t.CN, HIT := t.HIT, LLAT := t.LLAT, trace := t.trace } := by
  cases i <;> cases hi
  case cwr p v =>
    obtain ⟨-, -, rfl⟩ := execCwr_next h
    cases p <;> rfl
  case pchk now =>
    obtain ⟨-, -, beat, -, ⟨-, rfl⟩ | ⟨-, rfl⟩⟩ := execPchk_next h <;> rfl
  case abeg =>
    obtain ⟨-, rfl⟩ := execAbeg_next h
    rfl
  case rchk n =>
    obtain ⟨-, -, rfl⟩ := execRchk_next h
    rcases s.consume_cases n with ⟨-, e⟩ | ⟨-, e⟩
    · rw [e]
    · rw [e]; rfl
  case rlvl n =>
    obtain ⟨-, -, rfl⟩ := execRlvl_next h
    rfl
  case rprm n =>
    obtain ⟨-, -, rfl⟩ := execRprm_next h
    rcases (s.reprime n).afterPrime_cases n with ⟨-, e'⟩ | ⟨-, e'⟩ <;> rw [e'] <;>
      rcases s.reprime_cases n with ⟨-, e⟩ | ⟨-, -, e⟩ <;> rw [e] <;> rfl
  case aend =>
    obtain ⟨-, rfl⟩ := execAend_next h
    rfl

theorem edgeHandler_frame (hi : i.context = .eh) (h : exec i s = .next t) :
    t = { s with PEND := t.PEND, IRQ := t.IRQ } := by
  cases i <;> cases hi
  case edge n =>
    obtain ⟨-, rfl⟩ := execEdge_next h
    rfl

theorem environment_frame (hi : i.context = .env) (h : exec i s = .next t) :
    t = { s with IRQ := t.IRQ, LINE := t.LINE } := by
  cases i <;> cases hi
  case lhi n =>
    obtain ⟨-, rfl⟩ | ⟨-, rfl⟩ := execLhi_next h <;> rfl
  case llo n =>
    obtain rfl := execLlo_next h
    rfl

theorem host_frame (hi : i.context = .host) (h : exec i s = .next t) :
    t.cfg = s.cfg ∧ t.trace = s.trace ∧ t.input = s.input := by
  cases i <;> cases hi
  case rst levels =>
    obtain rfl := execRst_next h
    exact ⟨rfl, rfl, rfl⟩

/-- Settles O16: one frame lemma per context, each by the operations of that context. -/
theorem contextsWriteOnlyTheirFields : Obligations.ContextsWriteOnlyTheirFields := by
  unfold Obligations.ContextsWriteOnlyTheirFields
  intro i s t h
  exact ⟨fun hi => productionLoop_frame hi h, fun hi => controlLoop_frame hi h, fun hi => edgeHandler_frame hi h,
    fun hi => environment_frame hi h, fun hi => host_frame hi h⟩

/-! ### The fields that few operations write -/

/-- The control parameters CR0 to CR3 together (R30). -/
def State.params (s : State) : Option ℚ × Option Nat × Option ℚ × Option ℚ := (s.VOL, s.BEAT, s.SQMIX, s.PMULT)

theorem exists_rst_of_host (hi : i.context = .host) : ∃ levels, i = .rst levels := by
  cases i <;> cases hi
  exact ⟨_, rfl⟩

/-- In the control loop the grid belongs to RCHK, the parameters to CWR and the output trace to AEND. -/
theorem controlLoop_writers (hi : i.context = .cl) (h : exec i s = .next t) :
    (t.GRID = s.GRID ∨ ∃ n, i = .rchk n) ∧ (t.params = s.params ∨ ∃ p v, i = .cwr p v) ∧
      (t.trace = s.trace ∨ i = .aend) := by
  cases i <;> cases hi
  case cwr p v =>
    obtain ⟨-, -, rfl⟩ := execCwr_next h
    exact ⟨.inl (State.writeCtrl_GRID s p v), .inr ⟨p, v, rfl⟩, .inl (State.writeCtrl_trace s p v)⟩
  case pchk now =>
    obtain ⟨-, -, beat, -, ⟨-, rfl⟩ | ⟨-, rfl⟩⟩ := execPchk_next h <;> exact ⟨.inl rfl, .inl rfl, .inl rfl⟩
  case abeg =>
    obtain ⟨-, rfl⟩ := execAbeg_next h
    exact ⟨.inl rfl, .inl rfl, .inl rfl⟩
  case rchk n =>
    obtain ⟨-, -, rfl⟩ := execRchk_next h
    exact ⟨.inr ⟨n, rfl⟩, .inl (by simp [State.params]), .inl (State.consume_trace s n)⟩
  case rlvl n =>
    obtain ⟨-, -, rfl⟩ := execRlvl_next h
    exact ⟨.inl rfl, .inl rfl, .inl rfl⟩
  case rprm n =>
    obtain ⟨-, -, rfl⟩ := execRprm_next h
    exact ⟨.inl (by simp), .inl (by simp [State.params]), .inl (by simp)⟩
  case aend =>
    obtain ⟨-, rfl⟩ := execAend_next h
    exact ⟨.inl rfl, .inl rfl, .inr rfl⟩

/-! ### The grid -/

/-- Only RCHK and RST write the grid (R25). -/
theorem exec_GRID (h : exec i s = .next t) : t.GRID = s.GRID ∨ (∃ n, i = .rchk n) ∨ ∃ levels, i = .rst levels := by
  cases hi : i.context with
  | pl => exact .inl (by rw [productionLoop_frame hi h])
  | cl => exact (controlLoop_writers hi h).1.imp_right .inl
  | eh => exact .inl (by rw [edgeHandler_frame hi h])
  | env => exact .inl (by rw [environment_frame hi h])
  | host => exact .inr (.inr (exists_rst_of_host hi))

theorem cell_congr (h : t.GRID = s.GRID) (c n : Nat) : t.cell c n = s.cell c n := by
  rw [State.cell, h, State.cell]

/-- A flag that RCHK finds set toggles one cell of the current column; a clear flag toggles none (R166). -/
theorem cell_consume_of_ne {m c n : Nat} (h : (s.consume m).cell c n ≠ s.cell c n) :
    s.pendAt m = true ∧ c = s.COL ∧ n = m := by
  rcases s.consume_cases m with ⟨-, e⟩ | ⟨hp, e⟩
  · exact absurd (by rw [e]) h
  · refine ⟨hp, ?_⟩
    by_contra hne
    refine h ?_
    rw [e, cell_congr (State.setPend_GRID _ m false), State.cell_setCell, if_neg]
    rintro ⟨⟨rfl, -⟩, rfl, -⟩
    exact hne ⟨rfl, rfl⟩

/-- Settles O17: RCHK and RST alone write the grid, and RCHK writes the one cell of its note in the current column. -/
theorem cellsChangeOnlyByReconciling : Obligations.CellsChangeOnlyByReconciling := by
  unfold Obligations.CellsChangeOnlyByReconciling
  intro i s t c n h hne
  rcases exec_GRID h with hgrid | ⟨m, rfl⟩ | hrst
  · exact absurd (cell_congr hgrid c n) hne
  · obtain ⟨-, -, rfl⟩ := execRchk_next h
    obtain ⟨hp, rfl, rfl⟩ := cell_consume_of_ne hne
    exact .inl ⟨rfl, rfl, hp⟩
  · exact .inr hrst

/-! ### The control parameters -/

/-- Only CWR and RST write the control parameters (R37). -/
theorem exec_params (h : exec i s = .next t) :
    t.params = s.params ∨ (∃ p v, i = .cwr p v) ∨ ∃ levels, i = .rst levels := by
  cases hi : i.context with
  | pl => exact .inl (by rw [productionLoop_frame hi h]; rfl)
  | cl => exact (controlLoop_writers hi h).2.1.imp_right .inl
  | eh => exact .inl (by rw [edgeHandler_frame hi h]; rfl)
  | env => exact .inl (by rw [environment_frame hi h]; rfl)
  | host => exact .inr (.inr (exists_rst_of_host hi))

/-- Settles O19: of the operations other than RST only CWR writes a parameter, and what it writes is a value. -/
theorem writtenParametersStayWritten : Obligations.WrittenParametersStayWritten := by
  unfold Obligations.WrittenParametersStayWritten
  intro i s t h hrst
  rcases exec_params h with hsame | ⟨p, v, rfl⟩ | ⟨levels, rfl⟩
  · simp only [State.params, Prod.mk.injEq] at hsame
    obtain ⟨hvol, hbeat, hsqmix, hpmult⟩ := hsame
    rw [hvol, hbeat, hsqmix, hpmult]
    exact ⟨id, id, id, id⟩
  · obtain ⟨-, -, rfl⟩ := execCwr_next h
    cases p <;> simp
  · exact absurd rfl (hrst levels)

/-! ### The output trace and the configuration -/

theorem exec_cfg (h : exec i s = .next t) : t.cfg = s.cfg := by
  cases hi : i.context with
  | pl => rw [productionLoop_frame hi h]
  | cl => rw [controlLoop_frame hi h]
  | eh => rw [edgeHandler_frame hi h]
  | env => rw [environment_frame hi h]
  | host => exact (host_frame hi h).1

theorem productionLoop_trace (hi : i.context = .pl) (h : exec i s = .next t) : t.trace = s.trace ∨ i = .submit := by
  cases i <;> cases hi
  case tbeg =>
    obtain ⟨-, -, rfl⟩ := execTbeg_next h
    exact .inl rfl
  case voice n =>
    obtain ⟨-, -, ⟨-, pm, q, -, -, rfl⟩ | ⟨-, rfl⟩⟩ := execVoice_next h <;> exact .inl (by simp)
  case tend =>
    obtain ⟨-, v, -, rfl⟩ := execTend_next h
    exact .inl rfl
  case submit => exact .inr rfl

/-- Only AEND and SUBMIT write the output trace (R52). -/
theorem exec_trace (h : exec i s = .next t) : t.trace = s.trace ∨ i = .aend ∨ i = .submit := by
  cases hi : i.context with
  | pl => exact (productionLoop_trace hi h).imp_right .inr
  | cl => exact (controlLoop_writers hi h).2.2.imp_right .inl
  | eh => exact .inl (by rw [edgeHandler_frame hi h])
  | env => exact .inl (by rw [environment_frame hi h])
  | host => exact .inl (host_frame hi h).2.1

/-- Settles O20: AEND and SUBMIT append their events, and no other operation touches the trace. -/
theorem traceOnlyGrows : Obligations.TraceOnlyGrows := by
  unfold Obligations.TraceOnlyGrows
  intro s t hstep
  obtain ⟨-, w, rest, i, -, -, h⟩ := step_next hstep
  have hcfg := exec_cfg h
  refine ⟨?_, hcfg⟩
  rcases exec_trace h with hsame | rfl | rfl
  · exact ⟨[], by rw [hsame, List.append_nil]⟩
  · obtain ⟨-, rfl⟩ := execAend_next h
    exact ⟨_, rfl⟩
  · obtain ⟨-, -, rfl⟩ := execSubmit_next h
    exact ⟨_, rfl⟩

end Sys2Proof.Machine
end

section
/-! What has a step right after reset (10_state.md R54), and the stop of VOICE on an unwritten parameter (R37). -/
namespace Sys2Proof.Machine

/-- VOICE of a silent note moves on to the next note and does nothing else (R128, R130). -/
theorem execVoice_of_silent {s : State} {n : Nat} (hp : s.PPH = .voices) (hv : s.PV = n) (hn : s.cell s.CLAT n = false) :
    execVoice n s = .next (s.afterVoice n) := by
  simp [execVoice, hp, hv, hn]

theorem runOps_cons_of_next {i : Instr} {s u : State} (h : exec i s = .next u) (is : List Instr) :
    runOps (i :: is) s = runOps is u := by
  rw [runOps, h]

/-- The notes from PV to the last, all silent, end the voices of the tick and touch no other field (R128). -/
theorem runOps_voices_of_silent {s : State} {k : Nat} (hp : s.PPH = .voices) (hN : s.PV + (k + 1) = s.cfg.N)
    (hn : ∀ n, s.cell s.CLAT n = false) :
    runOps ((List.range' s.PV (k + 1)).map Instr.voice) s = .next { s with PPH := .finish, PV := s.PV + k } := by
  induction k generalizing s with
  | zero =>
    have hexec : exec (.voice s.PV) s = .next { s with PPH := .finish } :=
      (execVoice_of_silent hp rfl (hn _)).trans (by rw [State.afterVoice, if_pos hN])
    exact runOps_cons_of_next hexec []
  | succ k ih =>
    have hne : s.PV + 1 ≠ s.cfg.N := by omega
    have hexec : exec (.voice s.PV) s = .next { s with PV := s.PV + 1 } :=
      (execVoice_of_silent hp rfl (hn _)).trans (by rw [State.afterVoice, if_neg hne])
    rw [List.range'_succ, List.map_cons, runOps_cons_of_next hexec]
    have hrest := ih (s := { s with PV := s.PV + 1 }) hp (by dsimp only; omega) hn
    rw [hrest, Nat.add_right_comm]
    rfl

/-- The state that TBEG leaves (R141). -/
def State.tickBegun (s : State) : State :=
  { s with CLAT := s.COL, SUM := s.cfg.NUM.ofWave Wave.zero, CNT := 0, PPH := .voices, PV := 0 }

theorem execTbeg_of_begin {s : State} (hp : s.PPH = .begin) (hT : s.T < s.cfg.B) : execTbeg s = .next s.tickBegun := by
  simp [execTbeg, State.tickBegun, hp, hT]

/-- A tick of a silent column runs to its end, whatever the parameters hold; it clears the accumulators (R54, R141). -/
theorem runOps_tbeg_voices_of_silent {s : State} (hp : s.PPH = .begin) (hT : s.T < s.cfg.B) (hN : 0 < s.cfg.N)
    (hn : ∀ n, s.cell s.COL n = false) :
    runOps (.tbeg :: (List.range s.cfg.N).map Instr.voice) s =
      .next { s.tickBegun with PPH := .finish, PV := s.cfg.N - 1 } := by
  obtain ⟨k, hk⟩ : ∃ k, k + 1 = s.cfg.N := Nat.exists_add_one_eq.2 hN
  have htbeg : exec .tbeg s = .next s.tickBegun := execTbeg_of_begin hp hT
  have hvoices := runOps_voices_of_silent (s := s.tickBegun) (k := k) rfl ((Nat.zero_add _).trans hk) hn
  have hPV : s.tickBegun.PV + k = s.cfg.N - 1 := by rw [← hk, Nat.add_sub_cancel]; exact Nat.zero_add k
  rw [runOps_cons_of_next htbeg, List.range_eq_range', ← hPV, ← hk]
  exact hvoices

theorem flagAt_replicate_false (k n : Nat) : State.flagAt (List.replicate k false) n = false := by
  rw [State.flagAt, List.getD_eq_getElem?_getD, List.getElem?_replicate]
  split_ifs <;> rfl

theorem initial_cell (c : Config) (levels : BitVec 32) (col n : Nat) : (State.initial c levels).cell col n = false := by
  rw [State.cell, State.initial, List.getD_eq_getElem?_getD, List.getElem?_replicate]
  split_ifs
  · exact flagAt_replicate_false _ _
  · rfl

/-- Settles O21: both loops stand at their beginnings, no parameter is written, no line requests and every cell is silent. -/
theorem operationsAfterReset : Obligations.OperationsAfterReset := by
  unfold Obligations.OperationsAfterReset
  intro s t levels hcfg hrst
  obtain rfl := execRst_next hrst
  have hB : 0 < s.cfg.B := Config.B_pos hcfg
  have hcell := initial_cell s.cfg levels
  have hirq := flagAt_replicate_false s.cfg.N
  refine ⟨⟨_, rfl⟩, ⟨_, execTbeg_of_begin rfl hB⟩, fun p v => ⟨_, rfl⟩, fun now => rfl, fun n => ?_, ?_⟩
  · exact if_neg (Bool.eq_false_iff.1 (hirq n))
  · exact ⟨_, runOps_tbeg_voices_of_silent rfl hB (Config.N_pos hcfg) (hcell 0), rfl⟩

/-- Settles O24: whichever parameter is missing, VOICE names one that is. -/
theorem voiceWaitsForParameters : Obligations.VoiceWaitsForParameters := by
  unfold Obligations.VoiceWaitsForParameters
  intro s n hp hv hn hnone
  change ∃ p, execVoice n s = _
  unfold execVoice
  rw [if_pos ⟨hp, hv⟩, if_pos hn]
  cases hpm : s.PMULT with
  | none => exact ⟨.pmult, rfl⟩
  | some pm =>
    have hq : s.SQMIX = none := hnone.resolve_left (by simp [hpm])
    exact ⟨.sqmix, by simp [hq]⟩

end Sys2Proof.Machine
end

section
/-! The two bytes of a sample (20_memory.md R64). -/
namespace Sys2Proof.Machine

/-- `le16` lists the low and the high byte of the number `u` that R64 gives a sample. -/
theorem le16_of_code {y : Int} {u : Nat} (hu : (u : Int) = if 0 ≤ y then y else y + 65536) :
    le16 y = [BitVec.ofNat 8 (u % 256), BitVec.ofNat 8 (u / 256)] := by
  rw [le16, ← hu, Int.toNat_natCast]

/-- The high byte before the low byte is the 16-bit word. -/
theorem append_bytes (u : Nat) : BitVec.ofNat 8 (u / 256) ++ BitVec.ofNat 8 (u % 256) = BitVec.ofNat 16 u := by
  apply BitVec.eq_of_toNat_eq
  rw [BitVec.toNat_append, BitVec.toNat_ofNat, BitVec.toNat_ofNat, BitVec.toNat_ofNat,
    ← Nat.shiftLeft_add_eq_or_of_lt (Nat.mod_lt _ (by norm_num)), Nat.shiftLeft_eq]
  omega

/-- Read as a signed number, the 16-bit word of `y` (itself, or `y + 65536` when negative) is `y`. -/
theorem toInt_of_code {y : Int} {u : Nat} (hlo : -32768 ≤ y) (hhi : y ≤ 32767)
    (hu : (u : Int) = if 0 ≤ y then y else y + 65536) : (BitVec.ofNat 16 u).toInt = y := by
  rw [BitVec.toInt_eq_toNat_cond, BitVec.toNat_ofNat]
  split_ifs at hu ⊢ <;> omega

/-- Settles O34: the 16-bit word of the sample is cut into its two bytes, and they append to it again. -/
theorem sampleBytesAreTwosComplement : Obligations.SampleBytesAreTwosComplement := by
  unfold Obligations.SampleBytesAreTwosComplement
  intro y hlo hhi u
  have hu : 0 ≤ u ∧ u < 65536 := by
    dsimp only [u]
    split_ifs <;> omega
  obtain ⟨hu0, hlt⟩ := hu
  obtain ⟨k, hk⟩ := Int.eq_ofNat_of_zero_le hu0
  refine ⟨_, _, le16_of_code hk.symm, ?_, ?_, ?_⟩
  · rw [BitVec.toNat_ofNat, hk]
    omega
  · rw [BitVec.toNat_ofNat, hk]
    omega
  · rw [append_bytes, toInt_of_code hlo hhi hk.symm]

end Sys2Proof.Machine
end

section
/-! An edge before RCHK and an edge after RPRM of its note (20_memory.md R76): when each operation runs, and what it does to
the flag and the cell. -/
namespace Sys2Proof.Machine

variable {s : State} {n : Nat}

/-! ### The operations, enabled -/

theorem exec_edge_of_request (h : s.irqAt n = true) : exec (.edge n) s = .next (s.serveEdge n) := if_pos h

theorem exec_rchk_of_next (hc : s.CPH = .chk) (hn : s.CN = n) :
    exec (.rchk n) s = .next { s.consume n with HIT := s.pendAt n, CPH := .lvl } := if_pos ⟨hc, hn⟩

theorem exec_rprm_of_next (hc : s.CPH = .prm) (hn : s.CN = n) :
    exec (.rprm n) s = .next ((s.reprime n).afterPrime n) := if_pos ⟨hc, hn⟩

theorem runOps_pair_of_next {i j : Instr} {u t : State} (hi : exec i s = .next u) (hj : exec j u = .next t) :
    runOps [i, j] s = .next t := by
  rw [runOps_cons_of_next hi, runOps_cons_of_next hj, runOps]

/-! ### The flag and the cell -/

/-- The handler sets the flag of its own note and no other (R186). -/
@[simp] theorem State.pendAt_serveEdge (s : State) (n m : Nat) :
    (s.serveEdge n).pendAt m = if n = m ∧ n < s.PEND.length then true else s.pendAt m := flagAt_set _ _ _ _

/-- After RCHK of a note its flag is clear, whatever it was (R166). -/
@[simp] theorem State.pendAt_consume (s : State) (n : Nat) : (s.consume n).pendAt n = false := by
  rcases s.consume_cases n with ⟨hp, e⟩ | ⟨hp, e⟩
  · rw [e, hp]
  · have hlen : n < s.PEND.length := by
      by_contra hle
      exact Bool.false_ne_true ((flagAt_of_length_le (not_lt.1 hle)).symm.trans hp)
    rw [e, State.pendAt_setPend, if_pos ⟨rfl, hlen⟩]

/-- RCHK toggles the note's cell of the current column exactly when the flag was set (R166). -/
theorem State.cell_consume (hc : s.COL < s.GRID.length) (hn : n < (s.GRID.getD s.COL []).length) :
    (s.consume n).cell s.COL n = (s.cell s.COL n ^^ s.pendAt n) := by
  rcases s.consume_cases n with ⟨hp, e⟩ | ⟨hp, e⟩
  · rw [e, hp, Bool.xor_false]
  · rw [e, hp, Bool.xor_true, cell_congr (State.setPend_GRID _ n false), State.cell_setCell,
      if_pos ⟨⟨rfl, hc⟩, rfl, hn⟩]

theorem State.reprime_PEND_length (s : State) (n : Nat) : (s.reprime n).PEND.length = s.PEND.length := by
  rcases s.reprime_cases n with ⟨-, e⟩ | ⟨-, -, e⟩ <;> rw [e]
  exact List.length_set

/-- RPRM leaves the requests as they are (R168). -/
theorem State.irqAt_afterPrime_reprime (s : State) (n m : Nat) :
    ((s.reprime n).afterPrime n).irqAt m = s.irqAt m := by
  rw [State.irqAt, State.afterPrime_IRQ, State.reprime_IRQ, State.irqAt]

/-! ### The two orders -/

/-- R76(a): the flag that the edge sets is the one that RCHK consumes. -/
theorem runOps_edge_rchk (hcn : s.CN = n) (hlen : n < s.PEND.length) (hirq : s.irqAt n = true) (hc : s.CPH = .chk)
    (hcol : s.COL < s.GRID.length) (hrow : n < (s.GRID.getD s.COL []).length) :
    ∃ t, runOps [.edge n, .rchk n] s = .next t ∧
      t.cell s.COL n = (!s.cell s.COL n) ∧ t.HIT = true ∧ t.pendAt n = false := by
  have hflag : (s.serveEdge n).pendAt n = true := by rw [State.pendAt_serveEdge, if_pos ⟨rfl, hlen⟩]
  have hcell : ((s.serveEdge n).consume n).cell s.COL n = (!s.cell s.COL n) := by
    have htoggle := State.cell_consume (s := s.serveEdge n) hcol hrow
    rwa [hflag, Bool.xor_true] at htoggle
  have hrun := runOps_pair_of_next (exec_edge_of_request hirq) (exec_rchk_of_next (s := s.serveEdge n) hc hcn)
  exact ⟨_, hrun, hcell, hflag, State.pendAt_consume _ n⟩

/-- R76(b): RPRM has written the flag before the edge sets it. -/
theorem runOps_rprm_edge (hcn : s.CN = n) (hlen : n < s.PEND.length) (hirq : s.irqAt n = true) (hc : s.CPH = .prm) :
    ∃ t, runOps [.rprm n, .edge n] s = .next t ∧ t.pendAt n = true := by
  have hirq' : ((s.reprime n).afterPrime n).irqAt n = true := (s.irqAt_afterPrime_reprime n n).trans hirq
  have hlen' : n < ((s.reprime n).afterPrime n).PEND.length := by
    rwa [State.afterPrime_PEND, State.reprime_PEND_length]
  have hrun := runOps_pair_of_next (exec_rprm_of_next hc hcn) (exec_edge_of_request hirq')
  exact ⟨_, hrun, by rw [State.pendAt_serveEdge, if_pos ⟨rfl, hlen'⟩]⟩

/-- Settles O50: one lemma for each order. -/
theorem edgeOutsideTheWindow : Obligations.EdgeOutsideTheWindow := by
  unfold Obligations.EdgeOutsideTheWindow
  intro s n hcn hlen hirq
  exact ⟨runOps_edge_rchk hcn hlen hirq, runOps_rprm_edge hcn hlen hirq⟩

end Sys2Proof.Machine
end

section
/-! The outcome of a step that performs an operation (20_memory.md R71, 30_encoding.md R98). -/
namespace Sys2Proof.Machine

/-- The converse of `step_next`: a word that decodes is taken and its operation performed. -/
theorem step_of_decode_ok {s : State} {w : OpWord} {rest : List OpWord} {i : Instr}
    (hcfg : s.cfg.wf = true) (hin : s.input = w :: rest) (hdec : decode s.cfg w = .ok i) :
    step s = exec i { s with input := rest } := by
  simp [step, hcfg, hin, hdec]

/-- Settles O6: of the branches of `step` the hypotheses leave the one that performs the operation. -/
theorem stepPerformsDecodedOperation : Obligations.StepPerformsDecodedOperation := by
  unfold Obligations.StepPerformsDecodedOperation
  intro s w rest i
  exact step_of_decode_ok

end Sys2Proof.Machine
end

section
/-! The encoder and the decoder are inverse to each other (30_encoding.md R90 to R98): first one format at a time (R93 to R95),
then the opcode map (R96). -/
namespace Sys2Proof

variable {c : Config} {i : Instr} {w : OpWord} {op idx data : Nat}

/-! ### Fields in range decode -/

theorem decodeZ_of_zero (i : Instr) : decodeZ i 0 0 = .ok i := rfl

theorem decodeN_of_lt {mk : Nat → Instr} {n : Nat} (h : n < c.N) : decodeN c mk n 0 = .ok (mk n) := by
  rw [decodeN, if_neg (not_le.2 h)]
  rfl

theorem decodeT_of_lt {mk : Nat → Instr} (h : data < 2 ^ c.TW) : decodeT c mk 0 data = .ok (mk data) :=
  if_neg (not_le.2 h)

theorem decodeR_of_lt {mk : BitVec 32 → Instr} {levels : BitVec 32} (h : levels.toNat < 2 ^ c.N) :
    decodeR c mk 0 levels.toNat = .ok (mk levels) := by
  have hdec : decodeR c mk 0 levels.toNat = .ok (mk (BitVec.ofNat 32 levels.toNat)) := if_neg (not_le.2 h)
  rw [hdec, BitVec.ofNat_toNat, BitVec.setWidth_eq]

theorem decodeP_of_valueOk {mk : CtrlReg → Nat → Instr} {p : CtrlReg} (h : p.valueOk c data = true) :
    decodeP c mk p.number data = .ok (mk p data) := by
  cases p with
  | vol => exact if_neg (not_lt.2 (of_decide_eq_true h))
  | beat => exact if_neg (not_le.2 (of_decide_eq_true h))
  | sqmix => exact if_neg (not_lt.2 (of_decide_eq_true h))
  | pmult => exact if_neg (not_lt.2 (of_decide_eq_true h))

/-- A word whose fields are those of a well-formed operation is read as that operation. -/
theorem decode_of_fields (hop : w.op = i.opcode) (hidx : w.idx = i.idxField) (hdata : w.data = i.dataField)
    (hi : i.wf c = true) : decode c w = .ok i := by
  unfold decode
  rw [hop, hidx, hdata]
  cases i with
  | rst levels => exact decodeR_of_lt (of_decide_eq_true hi)
  | cwr p v => exact decodeP_of_valueOk hi
  | pchk now => exact decodeT_of_lt (of_decide_eq_true hi)
  | abeg => exact decodeZ_of_zero _
  | rchk n => exact decodeN_of_lt (of_decide_eq_true hi)
  | rlvl n => exact decodeN_of_lt (of_decide_eq_true hi)
  | rprm n => exact decodeN_of_lt (of_decide_eq_true hi)
  | aend => exact decodeZ_of_zero _
  | lhi n => exact decodeN_of_lt (of_decide_eq_true hi)
  | llo n => exact decodeN_of_lt (of_decide_eq_true hi)
  | edge n => exact decodeN_of_lt (of_decide_eq_true hi)
  | tbeg => exact decodeZ_of_zero _
  | voice n => exact decodeN_of_lt (of_decide_eq_true hi)
  | tend => exact decodeZ_of_zero _
  | submit => exact decodeZ_of_zero _

/-- The encoder cuts no operand of a well-formed operation short. -/
theorem fields_encode (i : Instr) : Laws.FieldsOfEncode.Statement i := by
  cases i with
  | rst levels => exact Laws.FieldsOfEncode.rst levels
  | cwr p v => exact Laws.FieldsOfEncode.cwr p v
  | pchk now => exact Laws.FieldsOfEncode.pchk now
  | abeg => exact Laws.FieldsOfEncode.abeg
  | rchk n => exact Laws.FieldsOfEncode.rchk n
  | rlvl n => exact Laws.FieldsOfEncode.rlvl n
  | rprm n => exact Laws.FieldsOfEncode.rprm n
  | aend => exact Laws.FieldsOfEncode.aend
  | lhi n => exact Laws.FieldsOfEncode.lhi n
  | llo n => exact Laws.FieldsOfEncode.llo n
  | edge n => exact Laws.FieldsOfEncode.edge n
  | tbeg => exact Laws.FieldsOfEncode.tbeg
  | voice n => exact Laws.FieldsOfEncode.voice n
  | tend => exact Laws.FieldsOfEncode.tend
  | submit => exact Laws.FieldsOfEncode.submit

theorem decode_encode (hc : c.wf = true) (hi : i.wf c = true) : decode c (encode i) = .ok i := by
  obtain ⟨hop, hidx, hdata⟩ := fields_encode i c (Config.N_le hc) (Config.TW_le hc) hi
  exact decode_of_fields hop hidx hdata hi

/-- Settles O2: the encoded word carries the operation's fields, and these decode to the operation. -/
theorem encodedOperationDecodesBack : Obligations.EncodedOperationDecodesBack := by
  unfold Obligations.EncodedOperationDecodesBack
  intro c i
  exact decode_encode

/-! ### What decodes encodes back -/

theorem encode_of_decodeZ {j : Instr} (h : decodeZ j idx data = .ok i) (hj : encode j = packWord op 0 0) :
    encode i = packWord op idx data := by
  unfold decodeZ at h
  split_ifs at h with hidx hdata
  obtain rfl : idx = 0 := not_not.1 hidx
  obtain rfl : data = 0 := not_not.1 hdata
  exact Except.ok.inj h ▸ hj

theorem encode_of_decodeN {mk : Nat → Instr} (h : decodeN c mk idx data = .ok i)
    (hmk : ∀ n, encode (mk n) = packWord op n 0) : encode i = packWord op idx data := by
  unfold decodeN at h
  split_ifs at h with _ hdata
  obtain rfl : data = 0 := not_not.1 hdata
  exact Except.ok.inj h ▸ hmk idx

theorem encode_of_decodeT {mk : Nat → Instr} (h : decodeT c mk idx data = .ok i)
    (hmk : ∀ d, encode (mk d) = packWord op 0 d) : encode i = packWord op idx data := by
  unfold decodeT at h
  split_ifs at h with hidx
  obtain rfl : idx = 0 := not_not.1 hidx
  exact Except.ok.inj h ▸ hmk data

theorem encode_of_decodeR {mk : BitVec 32 → Instr} (h : decodeR c mk idx data = .ok i) (hlt : data < 2 ^ 32)
    (hmk : ∀ levels, encode (mk levels) = packWord op 0 levels.toNat) : encode i = packWord op idx data := by
  unfold decodeR at h
  split_ifs at h with hidx
  obtain rfl : idx = 0 := not_not.1 hidx
  rw [← Except.ok.inj h, hmk, BitVec.toNat_ofNat, Nat.mod_eq_of_lt hlt]

theorem encode_of_decodeP {mk : CtrlReg → Nat → Instr} (h : decodeP c mk idx data = .ok i)
    (hmk : ∀ p v, encode (mk p v) = packWord op p.number v) : encode i = packWord op idx data := by
  unfold decodeP at h
  split at h
  case h_1 => cases h
  case h_2 hreg =>
    split_ifs at h
    rw [← Except.ok.inj h, hmk, number_of_ctrlRegOf hreg]
  case h_3 p _ hreg =>
    split_ifs at h
    rw [← Except.ok.inj h, hmk, number_of_ctrlRegOf hreg]

/-- The operation read from a word encodes to the word's own three fields. -/
theorem encode_of_decode (h : decode c w = .ok i) : encode i = w := by
  rw [← packWord_fields w]
  unfold decode at h
  dsimp only at h
  split at h <;> rename_i hop
  case h_16 => cases h
  all_goals rw [hop]
  case h_1 => exact encode_of_decodeR h w.data_lt fun _ => rfl
  case h_2 => exact encode_of_decodeP h fun _ _ => rfl
  case h_3 => exact encode_of_decodeT h fun _ => rfl
  case h_4 | h_8 | h_12 | h_14 | h_15 => exact encode_of_decodeZ h rfl
  case h_5 | h_6 | h_7 | h_9 | h_10 | h_11 | h_13 => exact encode_of_decodeN h fun _ => rfl

/-- Settles O3: the operands by `wf_of_decode`, the word by `encode_of_decode`. -/
theorem decodedWordEncodesBack : Obligations.DecodedWordEncodesBack := by
  unfold Obligations.DecodedWordEncodesBack
  intro c w i h
  exact ⟨wf_of_decode h, encode_of_decode h⟩

/-! ### The match and mask of a row -/

theorem packWord_and (op idx data op' idx' data' : Nat) :
    packWord op idx data &&& packWord op' idx' data' = packWord (op &&& op') (idx &&& idx') (data &&& data') := by
  rw [packWord, packWord, packWord, BitVec.ofNat_and, BitVec.ofNat_and, BitVec.ofNat_and,
    ← BitVec.and_append, ← BitVec.and_append]

/-- The mask of format P keeps the opcode (R96). -/
theorem packWord_and_maskP (op idx data : Nat) : packWord op idx data &&& packWord 15 0 0 = packWord (op &&& 15) 0 0 := by
  rw [packWord_and, Nat.and_zero, Nat.and_zero]

/-- The mask of formats T and R keeps the opcode and the index (R96). -/
theorem packWord_and_maskT (op idx data : Nat) :
    packWord op idx data &&& packWord 15 15 0 = packWord (op &&& 15) (idx &&& 15) 0 := by
  rw [packWord_and, Nat.and_zero]

/-- The mask of format N keeps the opcode and the data (R96). -/
theorem packWord_and_maskN (op idx data : Nat) :
    packWord op idx data &&& packWord 15 0 0xFFFFFFFF = packWord (op &&& 15) 0 (data &&& 0xFFFFFFFF) := by
  rw [packWord_and, Nat.and_zero]

/-- The mask of a row keeps the fields that hold no operand, and these are the row's match. -/
theorem encode_and_mask (i : Instr) : encode i &&& i.row.mask = i.row.fixed := by
  cases i with
  | rst levels => exact packWord_and_maskT 0 0 levels.toNat
  | cwr p v => exact packWord_and_maskP 1 p.number v
  | pchk now => exact packWord_and_maskT 2 0 now
  | rchk n => exact packWord_and_maskN 4 n 0
  | rlvl n => exact packWord_and_maskN 5 n 0
  | rprm n => exact packWord_and_maskN 6 n 0
  | lhi n => exact packWord_and_maskN 8 n 0
  | llo n => exact packWord_and_maskN 9 n 0
  | edge n => exact packWord_and_maskN 10 n 0
  | voice n => exact packWord_and_maskN 12 n 0
  | abeg => rfl
  | aend => rfl
  | tbeg => rfl
  | tend => rfl
  | submit => rfl

/-- Settles O5: a word that decodes is the encoded word of its operation. -/
theorem decodedWordMatchesItsRow : Obligations.DecodedWordMatchesItsRow := by
  unfold Obligations.DecodedWordMatchesItsRow
  intro c w i h
  rw [← encode_of_decode h]
  exact encode_and_mask i

/-- Settles O1: the worked words are the encoded words of well-formed operations, so they decode to them. -/
theorem workedWordsDecode : Obligations.WorkedWordsDecode := by
  unfold Obligations.WorkedWordsDecode
  intro p hp
  have hword : p.2.wf Config.default = true ∧ encode p.2 = p.1 := by
    revert p
    decide
  obtain ⟨hwf, hword⟩ := hword
  refine ⟨?_, hword⟩
  rw [← hword]
  exact decode_encode (by decide) hwf

end Sys2Proof
end

section
/-! The reserved words (30_encoding.md R100, R101): first the constraint of each format, then the opcodes. -/
namespace Sys2Proof

variable {c : Config} {idx data : Nat}

theorem decodeZ_error_iff (i : Instr) : (∃ why, decodeZ i idx data = .error why) ↔ idx ≠ 0 ∨ data ≠ 0 := by
  unfold decodeZ
  split_ifs <;> simp [*]

theorem decodeN_error_iff (mk : Nat → Instr) :
    (∃ why, decodeN c mk idx data = .error why) ↔ c.N ≤ idx ∨ data ≠ 0 := by
  unfold decodeN
  split_ifs <;> simp [*]

/-- A field has a set bit at or above bit `k` exactly when it is `2 ^ k` or more. -/
theorem div_two_pow_ne_zero_iff (k : Nat) : data / 2 ^ k ≠ 0 ↔ 2 ^ k ≤ data := by
  rw [Nat.div_ne_zero_iff]
  exact and_iff_right (by positivity)

theorem decodeT_error_iff (mk : Nat → Instr) :
    (∃ why, decodeT c mk idx data = .error why) ↔ idx ≠ 0 ∨ data / 2 ^ c.TW ≠ 0 := by
  rw [div_two_pow_ne_zero_iff]
  unfold decodeT
  split_ifs <;> simp [*]

theorem decodeR_error_iff (mk : BitVec 32 → Instr) :
    (∃ why, decodeR c mk idx data = .error why) ↔ idx ≠ 0 ∨ data / 2 ^ c.N ≠ 0 := by
  rw [div_two_pow_ne_zero_iff]
  unfold decodeR
  split_ifs <;> simp [*]

/-- R101 states the code's range by its bits: `data[31:17]` and `data[16:0]`. -/
theorem codeRange_iff : data / 2 ^ 17 ≠ 0 ∨ 65536 < data % 2 ^ 17 ↔ 65536 < data := by omega

theorem ctrlRegOf_eq_none_iff {k : Nat} : ctrlRegOf k = none ↔ 4 ≤ k := by
  rcases k with _ | _ | _ | _ | k <;> simp [ctrlRegOf]

theorem decodeP_error_iff (mk : CtrlReg → Nat → Instr) :
    (∃ why, decodeP c mk idx data = .error why) ↔
      4 ≤ idx ∨ (idx = 1 ∧ data / 2 ^ c.TW ≠ 0) ∨
        (idx ∈ [0, 2, 3] ∧ (data / 2 ^ 17 ≠ 0 ∨ 65536 < data % 2 ^ 17)) := by
  rw [div_two_pow_ne_zero_iff, codeRange_iff]
  unfold decodeP
  split
  case h_1 hreg => simp [ctrlRegOf_eq_none_iff.1 hreg]
  case h_2 hreg =>
    obtain rfl := number_of_ctrlRegOf hreg
    split_ifs <;> simp [CtrlReg.number, *]
  case h_3 p hne hreg =>
    obtain rfl := number_of_ctrlRegOf hreg
    cases p
    case beat => exact absurd rfl hne
    all_goals split_ifs <;> simp [CtrlReg.number, *]

/-- Settles O4: the fields are quotients and remainders of the word, and each opcode has the constraint of its format. -/
theorem reservedWordsExactly : Obligations.ReservedWordsExactly := by
  unfold Obligations.ReservedWordsExactly
  intro c w
  dsimp only
  rw [← OpWord.op_eq, ← OpWord.idx_eq, ← OpWord.data_eq]
  unfold decode
  dsimp only
  split <;> rename_i hop
  case h_1 => rw [decodeR_error_iff, hop]; simp
  case h_2 => rw [decodeP_error_iff, hop]; simp
  case h_3 => rw [decodeT_error_iff, hop]; simp
  case h_4 | h_8 | h_12 | h_14 | h_15 => rw [decodeZ_error_iff, hop]; simp
  case h_5 | h_6 | h_7 | h_9 | h_10 | h_11 | h_13 => rw [decodeN_error_iff, hop]; simp
  case h_16 =>
    have hop : w.op = 15 := by
      have hlt := w.op_lt
      simp only [imp_false] at *
      omega
    exact ⟨fun _ => .inl hop, fun _ => ⟨_, rfl⟩⟩

end Sys2Proof
end

section
/-! Presenting an operation's word (30_encoding.md R90, R98, 20_memory.md R71). -/
namespace Sys2Proof.Machine

/-- Presenting a word of the block's one length puts it in front of the words already presented (R90). -/
theorem State.withFetchWord_toNat (s : State) (w : OpWord) :
    s.withFetchWord 40 w.toNat = { s with input := w :: s.input } := by
  rw [State.withFetchWord, Nat.mod_eq_of_lt w.isLt, BitVec.ofNat_toNat, BitVec.setWidth_eq]

/-- Settles O8: the step takes the presented word and decodes it to the operation. -/
theorem presentedOperationRuns : Obligations.PresentedOperationRuns := by
  unfold Obligations.PresentedOperationRuns
  intro s i hcfg hi
  rw [State.withFetchWord_toNat]
  exact step_of_decode_ok (s := { s with input := encode i :: s.input }) hcfg rfl (decode_encode hcfg hi)

end Sys2Proof.Machine
end

section
/-! Where an operation has a step (30_encoding.md R103, R107 to R109), and what follows for the control loop and the production
loop. -/
namespace Sys2Proof.Machine

variable {i : Instr} {s t : State}

/-! ### The enabling conditions -/

/-- Where its enabling condition holds, an operation has a step. -/
theorem exec_of_enabled (h : Enabled s i) : ∃ t, exec i s = .next t := by
  cases i with
  | rst levels => exact ⟨_, rfl⟩
  | lhi n => exact ⟨_, rfl⟩
  | llo n => exact ⟨_, rfl⟩
  | edge n => exact ⟨_, if_pos h⟩
  | abeg => exact ⟨_, if_neg (not_not.2 h)⟩
  | rchk n => exact ⟨_, if_pos h⟩
  | rlvl n => exact ⟨_, if_pos h⟩
  | rprm n => exact ⟨_, if_pos h⟩
  | aend => exact ⟨_, if_pos h⟩
  | cwr p v =>
    obtain ⟨hc, hd⟩ := h
    simp [exec, execCwr, hc, hd]
  | pchk now =>
    obtain ⟨hc, hd, hbeat⟩ := h
    obtain ⟨beat, hbeat⟩ := Option.ne_none_iff_exists'.1 hbeat
    cases hdue : isDue now s.LAST beat <;> simp [exec, execPchk, hc, hd, hbeat, hdue]
  | tbeg =>
    obtain ⟨hp, hT⟩ := h
    exact ⟨_, execTbeg_of_begin hp hT⟩
  | voice n =>
    obtain ⟨hp, hv, hparams⟩ := h
    cases hcell : s.cell s.CLAT n with
    | false => exact ⟨_, execVoice_of_silent hp hv hcell⟩
    | true =>
      obtain ⟨hpm, hq⟩ := hparams hcell
      obtain ⟨pm, hpm⟩ := Option.ne_none_iff_exists'.1 hpm
      obtain ⟨q, hq⟩ := Option.ne_none_iff_exists'.1 hq
      simp [exec, execVoice, hp, hv, hcell, hpm, hq]
  | tend =>
    obtain ⟨hp, hvol⟩ := h
    obtain ⟨v, hvol⟩ := Option.ne_none_iff_exists'.1 hvol
    simp [exec, execTend, hp, hvol]
  | submit =>
    obtain ⟨hp, hT⟩ := h
    simp [exec, execSubmit, hp, hT]

/-- An operation that has a step is enabled. -/
theorem enabled_of_exec (h : exec i s = .next t) : Enabled s i := by
  cases i with
  | rst levels => trivial
  | lhi n => trivial
  | llo n => trivial
  | edge n => exact (execEdge_next h).1
  | abeg => exact (execAbeg_next h).1
  | aend => exact (execAend_next h).1
  | cwr p v =>
    obtain ⟨hc, hd, -⟩ := execCwr_next h
    exact ⟨hc, hd⟩
  | pchk now =>
    obtain ⟨hc, hd, beat, hbeat, -⟩ := execPchk_next h
    exact ⟨hc, hd, by simp [hbeat]⟩
  | rchk n =>
    obtain ⟨hc, hn, -⟩ := execRchk_next h
    exact ⟨hc, hn⟩
  | rlvl n =>
    obtain ⟨hc, hn, -⟩ := execRlvl_next h
    exact ⟨hc, hn⟩
  | rprm n =>
    obtain ⟨hc, hn, -⟩ := execRprm_next h
    exact ⟨hc, hn⟩
  | tbeg =>
    obtain ⟨hp, hT, -⟩ := execTbeg_next h
    exact ⟨hp, hT⟩
  | voice n =>
    obtain ⟨hp, hv, ⟨-, pm, q, hpm, hq, -⟩ | ⟨hcell, -⟩⟩ := execVoice_next h
    · exact ⟨hp, hv, fun _ => by simp [hpm, hq]⟩
    · exact ⟨hp, hv, by simp [hcell]⟩
  | tend =>
    obtain ⟨hp, v, hvol, -⟩ := execTend_next h
    exact ⟨hp, by simp [hvol]⟩
  | submit =>
    obtain ⟨hp, hT, -⟩ := execSubmit_next h
    exact ⟨hp, hT⟩

theorem exists_next_iff_enabled : (∃ t, exec i s = .next t) ↔ Enabled s i :=
  ⟨fun ⟨_, h⟩ => enabled_of_exec h, exec_of_enabled⟩

/-- Every operation has a meaning: a well-formed operation without a step is stuck, never refused (R103). -/
theorem exec_ne_refused (i : Instr) (s : State) (r : Refusal) : exec i s ≠ .refused r := by
  cases i
  case rst | lhi | llo => exact nofun
  case cwr | abeg | rchk | rlvl | rprm | aend | edge | tbeg | submit =>
    simp only [exec, execCwr, execAbeg, execRchk, execRlvl, execRprm, execAend, execEdge, execTbeg, execSubmit]
    split_ifs <;> exact nofun
  case pchk now =>
    simp only [exec, execPchk]
    cases s.BEAT <;> dsimp only <;> split_ifs <;> exact nofun
  case tend =>
    simp only [exec, execTend]
    cases s.VOL <;> dsimp only <;> split_ifs <;> exact nofun
  case voice n =>
    simp only [exec, execVoice]
    cases s.PMULT <;> cases s.SQMIX <;> dsimp only <;> split_ifs <;> exact nofun

/-- Settles O9: an operation that is not enabled has no step and is not refused, so it is stuck. -/
theorem enabledExactly : Obligations.EnabledExactly := by
  unfold Obligations.EnabledExactly
  intro s i
  refine ⟨exec_of_enabled, fun hne => ?_⟩
  cases h : exec i s with
  | next t => exact absurd (enabled_of_exec h) hne
  | fault r => exact ⟨r, rfl⟩
  | refused r => exact absurd h (exec_ne_refused i s r)

/-! ### The control loop -/

/-- With a beat due only ABEG is enabled (R107). -/
theorem eq_abeg_of_due (hi : i.context = .cl) (hc : s.CPH = .idle) (hd : s.DUE = true) (h : Enabled s i) : i = .abeg := by
  cases i <;> cases hi
  case abeg => rfl
  all_goals simp [Enabled, hc, hd] at h

/-- Settles O10: ABEG is enabled whatever DUE is, and any operation with a step is enabled. -/
theorem dueBeatForcesAdvance : Obligations.DueBeatForcesAdvance := by
  unfold Obligations.DueBeatForcesAdvance
  intro s hc hd
  exact ⟨exec_of_enabled hc, fun i t hi h => eq_abeg_of_due hi hc hd (enabled_of_exec h)⟩

/-- Settles O11: inside an advance the enabling conditions of the control loop are those of the advance's own operations. -/
theorem advancesNeverOverlap : Obligations.AdvancesNeverOverlap := by
  unfold Obligations.AdvancesNeverOverlap
  intro s i hc hi
  rw [exists_next_iff_enabled]
  cases i <;> cases hi
  case cwr p v => simp [Enabled, hc]
  case pchk now => simp [Enabled, hc]
  case abeg => simp [Enabled, hc]
  case aend => simp [Enabled]
  case rchk n | rlvl n | rprm n => simp [Enabled, eq_comm (a := n)]

/-! ### The production loop -/

/-- The operation of the production loop that PPH, PV and T stand at (R108). -/
def State.tickNext (s : State) : Instr :=
  match s.PPH with
  | .begin => if s.T < s.cfg.B then .tbeg else .submit
  | .voices => .voice s.PV
  | .finish => .tend

theorem eq_tickNext_of_enabled (hi : i.context = .pl) (h : Enabled s i) : i = s.tickNext := by
  cases i <;> cases hi
  case tbeg =>
    obtain ⟨hp, hT⟩ := h
    simp [State.tickNext, hp, hT]
  case voice n =>
    obtain ⟨hp, hv, -⟩ := h
    simp [State.tickNext, hp, hv]
  case tend =>
    obtain ⟨hp, -⟩ := h
    simp [State.tickNext, hp]
  case submit =>
    obtain ⟨hp, hT⟩ := h
    simp [State.tickNext, hp, hT]

/-- Settles O12: both operations are the one that PPH, PV and T stand at. -/
theorem productionLoopHasOneNext : Obligations.ProductionLoopHasOneNext := by
  unfold Obligations.ProductionLoopHasOneNext
  intro s a b i j hi hj ha hb
  rw [eq_tickNext_of_enabled hi (enabled_of_exec ha), eq_tickNext_of_enabled hj (enabled_of_exec hb)]

end Sys2Proof.Machine
end

section
/-! VOICE, the operation of the oscillator bank (40_oscillator.md R128 to R130), and who writes the phases (R134). -/
namespace Sys2Proof.Machine

variable {i : Instr} {s t : State}

/-! ### What VOICE writes -/

theorem execVoice_of_active {n : Nat} {pm q : ℚ} (hp : s.PPH = .voices) (hv : s.PV = n) (hn : s.cell s.CLAT n = true)
    (hpm : s.PMULT = some pm) (hq : s.SQMIX = some q) :
    execVoice n s = .next ((s.renderVoice n pm q).afterVoice n) := by
  simp [execVoice, hp, hv, hn, hpm, hq]

theorem phaseAt_congr (hP : t.PHASE = s.PHASE) (hcfg : t.cfg = s.cfg) (n : Nat) : t.phaseAt n = s.phaseAt n := by
  rw [State.phaseAt, hP, hcfg, State.phaseAt]

@[simp] theorem State.phaseAt_afterVoice (s : State) (n m : Nat) : (s.afterVoice n).phaseAt m = s.phaseAt m :=
  phaseAt_congr (s.afterVoice_PHASE n) (s.afterVoice_cfg n) m

@[simp] theorem State.phaseRad_afterVoice (s : State) (n m : Nat) : (s.afterVoice n).phaseRad m = s.phaseRad m := by
  rw [State.phaseRad, State.phaseAt_afterVoice, State.phaseRad]

@[simp] theorem State.phaseAt_renderVoice (s : State) (n m : Nat) (pm q : ℚ) :
    (s.renderVoice n pm q).phaseAt m =
      if n = m ∧ n < s.PHASE.length then advancePhase s.cfg.NUM (s.phaseAt n) (s.stepAt n) pm else s.phaseAt m :=
  getD_set _ _ _ _ _

/-- Over the reals the rendered note's phase is advanced and wrapped (R123, R124). -/
theorem phaseRad_renderVoice {n : Nat} (hnum : s.cfg.NUM = .reals) (hn : n < s.PHASE.length) (pm q : ℚ) :
    (s.renderVoice n pm q).phaseRad n =
      if 2 * Real.pi < s.phaseRad n + s.stepRad n * pm then s.phaseRad n + s.stepRad n * pm - 2 * Real.pi
      else s.phaseRad n + s.stepRad n * pm := by
  rw [State.phaseRad, State.phaseAt_renderVoice, if_pos ⟨rfl, hn⟩, hnum]
  exact advanceAngle_toReal _ _ pm

/-- Over the reals the sample rendered from the note's new phase is added to SUM (R122, R126). -/
theorem sumReal_renderVoice {n : Nat} (hnum : s.cfg.NUM = .reals) (hn : n < s.PHASE.length) (pm q : ℚ) :
    (s.renderVoice n pm q).sumReal =
      s.sumReal + realRender s.sign0 ((s.renderVoice n pm q).phaseRad n) q := by
  rw [State.phaseRad, State.phaseAt_renderVoice, if_pos ⟨rfl, hn⟩, State.sumReal, State.renderVoice_SUM, hnum]
  simp only [addShaped, Datum.toWave, Wave.add_toReal, shapedWave_toReal]
  rfl

/-- VOICE of an active note writes its phase, the accumulators and the sequencing fields, and nothing else (R130). -/
theorem afterVoice_renderVoice_frame {n : Nat} {pm q : ℚ} (h : t = (s.renderVoice n pm q).afterVoice n) :
    t = { s with PHASE := t.PHASE, SUM := t.SUM, CNT := t.CNT, PPH := t.PPH, PV := t.PV } := by
  rcases (s.renderVoice n pm q).afterVoice_cases n with ⟨-, e⟩ | ⟨-, e⟩ <;> (rw [h, e]; rfl)

/-- Settles O22: VOICE renders the note and moves on; the clauses are what these two updates write. -/
theorem voiceOfActiveNote : Obligations.VoiceOfActiveNote := by
  unfold Obligations.VoiceOfActiveNote
  intro s n pm q hp hv hlen hn hpm hq
  refine ⟨_, execVoice_of_active hp hv hn hpm hq, fun hnum => ⟨?_, ?_⟩, fun k hk => ⟨?_, ?_⟩, fun m hm => ?_, ?_, ?_,
    fun hlast => ?_, fun hlast => ?_, afterVoice_renderVoice_frame rfl⟩
  · rw [State.phaseRad_afterVoice]
    exact phaseRad_renderVoice hnum hlen pm q
  · rw [State.phaseRad_afterVoice, State.sumReal, State.afterVoice_SUM]
    exact sumReal_renderVoice hnum hlen pm q
  · rw [State.phaseAt_afterVoice, State.phaseAt_renderVoice, if_pos ⟨rfl, hlen⟩, hk]
    rfl
  · rw [State.afterVoice_SUM, State.renderVoice_SUM, hk]
    rfl
  · rw [State.phaseAt_afterVoice, State.phaseAt_renderVoice, if_neg fun h => hm h.1.symm]
  · simp
  · simp
  · simp [hlast]
  · simp [hlast, hp]

/-- Settles O23: a silent note's VOICE only moves on. -/
theorem voiceOfSilentNote : Obligations.VoiceOfSilentNote := by
  unfold Obligations.VoiceOfSilentNote
  intro s n
  exact execVoice_of_silent

/-! ### The phases -/

theorem productionLoop_PHASE (hi : i.context = .pl) (h : exec i s = .next t) : t.PHASE = s.PHASE ∨ ∃ n, i = .voice n := by
  cases i <;> cases hi
  case tbeg =>
    obtain ⟨-, -, rfl⟩ := execTbeg_next h
    exact .inl rfl
  case voice n => exact .inr ⟨n, rfl⟩
  case tend =>
    obtain ⟨-, v, -, rfl⟩ := execTend_next h
    exact .inl rfl
  case submit =>
    obtain ⟨-, -, rfl⟩ := execSubmit_next h
    exact .inl rfl

/-- Only VOICE and RST write the phases (R24). -/
theorem exec_PHASE (h : exec i s = .next t) : t.PHASE = s.PHASE ∨ (∃ n, i = .voice n) ∨ ∃ levels, i = .rst levels := by
  cases hi : i.context with
  | pl => exact (productionLoop_PHASE hi h).imp_right .inl
  | cl => exact .inl (by rw [controlLoop_frame hi h])
  | eh => exact .inl (by rw [edgeHandler_frame hi h])
  | env => exact .inl (by rw [environment_frame hi h])
  | host => exact .inr (.inr (exists_rst_of_host hi))

/-- VOICE moves no phase but that of its own note, and that only where the note is active (R128). -/
theorem execVoice_phaseAt_of_ne {m n : Nat} (h : execVoice m s = .next t) (hne : t.phaseAt n ≠ s.phaseAt n) :
    m = n ∧ s.cell s.CLAT m = true := by
  obtain ⟨-, -, ⟨hcell, pm, q, -, -, rfl⟩ | ⟨-, rfl⟩⟩ := execVoice_next h
  · rw [State.phaseAt_afterVoice, State.phaseAt_renderVoice] at hne
    exact ⟨(ite_ne_right_iff.1 hne).1.1, hcell⟩
  · exact absurd (s.phaseAt_afterVoice m n) hne

/-- Settles O18: VOICE and RST alone write the phases, and VOICE that of its own active note. -/
theorem silentNotesFreeze : Obligations.SilentNotesFreeze := by
  unfold Obligations.SilentNotesFreeze
  intro i s t n h hne
  rcases exec_PHASE h with hsame | ⟨m, rfl⟩ | hrst
  · exact absurd (phaseAt_congr hsame (exec_cfg h) n) hne
  · obtain ⟨rfl, hcell⟩ := execVoice_phaseAt_of_ne h hne
    exact .inl ⟨rfl, hcell⟩
  · exact .inr hrst

end Sys2Proof.Machine
end

section
/-! The rendered sample over the reals: the blend (40_oscillator.md R126, R127, R132) and the wrap (R123 to R125, R131,
R133). -/
namespace Sys2Proof

/-! ### The sign -/

theorem realSgn_of_pos {s0 x : ℝ} (h : 0 < x) : realSgn s0 x = 1 := if_pos h

theorem realSgn_of_neg {s0 x : ℝ} (h : x < 0) : realSgn s0 x = -1 := by
  rw [realSgn, if_neg h.not_gt, if_pos h]

@[simp] theorem realSgn_zero (s0 : ℝ) : realSgn s0 0 = s0 := by simp [realSgn]

/-! ### The blend -/

/-- The blend of the sine and its sign has the sign of the sine, but for a zero of the sine where `SIGN0` speaks (R127). -/
theorem sign_realRender {s0 φ q : ℝ} (h0 : 0 ≤ q) (h : s0 = 0 ∨ Real.sin φ ≠ 0) :
    SignType.sign (realRender s0 φ q) = SignType.sign (Real.sin φ) := by
  have hle : 0 ≤ q * (1 - Real.sin φ) := mul_nonneg h0 (sub_nonneg.2 (Real.sin_le_one φ))
  have hge : 0 ≤ q * (Real.sin φ - -1) := mul_nonneg h0 (sub_nonneg.2 (Real.neg_one_le_sin φ))
  unfold realRender
  rcases lt_trichotomy (Real.sin φ) 0 with hneg | hzero | hpos
  · rw [realSgn_of_neg hneg, sign_neg hneg, sign_neg (by linarith)]
  · rw [hzero, realSgn_zero, h.resolve_right (not_not.2 hzero), zero_mul, zero_mul, add_zero]
  · rw [realSgn_of_pos hpos, sign_pos hpos, sign_pos (by linarith)]

/-- Whole turns do not change the rendered sample (R131). -/
theorem realRender_sub_turns (s0 φ q : ℝ) (j : ℕ) : realRender s0 (φ - j * (2 * Real.pi)) q = realRender s0 φ q := by
  rw [realRender, Real.sin_sub_nat_mul_two_pi, realRender]

namespace Machine

/-- Settles O26: the shaped sample is the blend, whose range and sign are those of `realRender`. -/
theorem blendStaysInRange : Obligations.BlendStaysInRange := by
  unfold Obligations.BlendStaysInRange
  intro z φ q h0 h1
  have h0' : (0 : ℝ) ≤ q := by exact_mod_cast h0
  have h1' : (q : ℝ) ≤ 1 := by exact_mod_cast h1
  rw [shapedWave_toReal]
  refine ⟨realRender_abs_le _ _ _ (signZero_abs_le z) h0' h1', fun h => sign_realRender h0' ?_⟩
  exact h.imp_left fun hz => by simp [hz, SignZero.value]

/-- Settles O27: the blend is affine in the mix, and one of its two terms vanishes at either end. -/
theorem blendEndpoints : Obligations.BlendEndpoints := by
  unfold Obligations.BlendEndpoints
  intro z φ q
  simp only [shapedWave_toReal, realRender]
  push_cast
  exact ⟨by ring, by ring, by ring⟩

/-! ### The wrap -/

/-- The wrapped accumulator is the one that is never wrapped, less whole turns, whatever the multipliers (R131). -/
theorem foldl_advanceAngle_turns (stp φ : Angle) (pms : List ℚ) :
    ∃ j : ℕ, (pms.foldl (advanceAngle · stp ·) φ).turns = φ.turns + stp.turns * (pms.sum : ℚ) - j := by
  induction pms generalizing φ with
  | nil => exact ⟨0, by simp⟩
  | cons pm pms ih =>
    obtain ⟨j, hj⟩ := ih (advanceAngle φ stp pm)
    rw [List.foldl_cons, hj, List.sum_cons, Rat.cast_add]
    rcases advanceAngle_cases φ stp pm with ⟨-, e⟩ | ⟨-, e⟩ <;> rw [e]
    · exact ⟨j + 1, by push_cast; ring⟩
    · exact ⟨j, by ring⟩

/-- Settles O25: a wrap takes whole turns off the phase, and the sine does not see them. -/
theorem wrapKeepsTheWaveform : Obligations.WrapKeepsTheWaveform := by
  unfold Obligations.WrapKeepsTheWaveform
  refine ⟨fun s0 φ q => by simpa using realRender_sub_turns s0 φ q 1, fun z φ stp pms q => ?_⟩
  obtain ⟨j, hj⟩ := foldl_advanceAngle_turns stp φ pms
  have hphase : (pms.foldl (advanceAngle · stp ·) φ).toReal =
      φ.toReal + stp.toReal * (pms.sum : ℚ) - j * (2 * Real.pi) := by
    simp only [Angle.toReal_eq, hj]; ring
  rw [shapedWave_toReal, hphase, realRender_sub_turns]

/-! ### Several calls at one multiplier -/

theorem phaseAfter_reals (stp φ : Angle) (pm : ℚ) (k : ℕ) :
    phaseAfter .reals (.real stp) pm k (.real φ) = .real ((List.replicate k pm).foldl (advanceAngle · stp ·) φ) := by
  induction k with
  | zero => rfl
  | succ k ih =>
    rw [phaseAfter, ih, List.replicate_succ', List.foldl_append]
    rfl

theorem phaseAfter_turns (stp φ : Angle) (pm : ℚ) (k : ℕ) :
    ∃ j : ℕ, (phaseAfter .reals (.real stp) pm k (.real φ)).toAngle.turns = φ.turns + k * (stp.turns * pm) - j := by
  obtain ⟨j, hj⟩ := foldl_advanceAngle_turns stp φ (List.replicate k pm)
  refine ⟨j, ?_⟩
  rw [phaseAfter_reals, Datum.toAngle, hj, List.sum_replicate]
  push_cast [nsmul_eq_mul]
  ring

/-- One subtraction a call is enough, so the stored phase never leaves `[0, 2π]` (R124, R125). -/
theorem phaseAfter_range {stp φ : Angle} {pm : ℚ} (hφ : 0 ≤ φ.turns ∧ φ.turns ≤ 1)
    (hstp : 0 < stp.turns ∧ stp.turns ≤ 1 / 4) (hpm : 1 ≤ pm ∧ pm ≤ 2) (k : ℕ) :
    0 ≤ (phaseAfter .reals (.real stp) pm k (.real φ)).toAngle.turns ∧
      (phaseAfter .reals (.real stp) pm k (.real φ)).toAngle.turns ≤ 1 := by
  induction k with
  | zero => exact hφ
  | succ k ih => exact advanceAngle_range ih hstp hpm

/-- Settles O28: the range is kept call by call; the advance less whole turns is linear in the multiplier. -/
theorem pitchMultiplierScalesPhase : Obligations.PitchMultiplierScalesPhase := by
  unfold Obligations.PitchMultiplierScalesPhase
  intro φ stp pm k hφ0 hφ1 hs0 hs1 hp1 hp2 after
  refine ⟨phaseAfter_range ⟨hφ0, hφ1⟩ ⟨hs0, hs1⟩ ⟨hp1, hp2⟩ k, phaseAfter_turns stp φ pm k, ?_⟩
  obtain ⟨j1, h1⟩ : ∃ j : ℕ, after 1 = _ := phaseAfter_turns stp φ 1 k
  obtain ⟨j2, h2⟩ : ∃ j : ℕ, after 2 = _ := phaseAfter_turns stp φ 2 k
  refine ⟨j1, j2, ?_⟩
  rw [h1, h2]
  push_cast
  ring

end Machine

end Sys2Proof
end

section
/-! The operations of the mixer: TBEG, TEND, SUBMIT (41_mixer.md R141, R144 to R148, R152). -/
namespace Sys2Proof.Machine

variable {s : State}

/-! ### TBEG -/

/-- A physical format's 0 is its `ofReal` of 0, however the 0 is given (R11). -/
theorem ofWave_zero_format (k : Nat) : (NumFormat.format k).ofWave Wave.zero = .code ((Config.formatOps k).ofRat 0) :=
  congrArg Datum.code ((Config.formatOps k).ofReal_congr _ _ (by simp [RealDatum.toReal]))

/-- Settles O29: the clauses are what TBEG writes. -/
theorem tickBegins : Obligations.TickBegins := by
  unfold Obligations.TickBegins
  intro s hp hT
  refine ⟨_, execTbeg_of_begin hp hT, fun _ => ?_, fun k hk => ?_, rfl⟩
  · rw [State.sumReal, State.tickBegun, ofWave_zero_toWave, Wave.zero_toReal]
  · rw [State.tickBegun, hk, ofWave_zero_format]

/-! ### The sample conversion -/

theorem realTrunc_of_nonneg {x : ℝ} (h : 0 ≤ x) : (realTrunc x : ℝ) ≤ x ∧ x < realTrunc x + 1 := by
  rw [realTrunc, if_pos h]
  exact ⟨Int.floor_le x, Int.lt_floor_add_one x⟩

theorem realTrunc_of_nonpos {x : ℝ} (h : x ≤ 0) : x ≤ realTrunc x ∧ (realTrunc x : ℝ) - 1 < x := by
  rcases h.lt_or_eq with hneg | rfl
  · rw [realTrunc, if_neg hneg.not_ge]
    exact ⟨Int.le_ceil x, sub_lt_iff_lt_add.2 (Int.ceil_lt_add_one x)⟩
  · simp [realTrunc]

/-- Settles O31: the computed sample is `realToI16` of the real product, the truncation of its clamped value. -/
theorem sampleConversionIsExact : Obligations.SampleConversionIsExact := by
  unfold Obligations.SampleConversionIsExact
  intro w gain r c y
  have hy : y = realTrunc c := Wave.toI16_real w gain
  rw [hy]
  refine ⟨realTrunc_of_nonneg, realTrunc_of_nonpos, ?_⟩
  rw [← hy]
  exact Wave.toI16_range w gain

/-! ### TEND -/

theorem execTend_of_finish {v : ℚ} (hp : s.PPH = .finish) (hv : s.VOL = some v) :
    execTend s = .next { s.setPair (s.sample v) with T := s.T + 1, PPH := .begin } := by
  simp [execTend, hp, hv]

/-- The sample in a physical number format, the gain formed first (R147). -/
theorem sample_format {k : Nat} (hk : s.cfg.NUM = .format k) (v : ℚ) :
    s.sample v = sampleCode (Config.formatOps k) ((Config.formatOps k).ofReal (.param s.cfg.HEADROOM))
      ((Config.formatOps k).ofRat v) (s.SUM.waveCode (Config.formatOps k)) s.CNT := by
  rw [State.sample, hk]

/-- Settles O30: TEND writes the sample of the tick at the two places of the tick index. -/
theorem tickEnds : Obligations.TickEnds := by
  unfold Obligations.TickEnds
  intro s v hp hv hlen
  have hbuf := s.bufAt_setPair (s.sample v)
  refine ⟨_, s.sample v, execTend_of_finish hp hv, sample_reals s v, fun k hk => sample_format hk v, ?_, ?_,
    fun i hl hr => ?_, ?_, rfl⟩
  · exact (hbuf _).trans (if_pos ⟨.inl rfl, by omega⟩)
  · exact (hbuf _).trans (if_pos ⟨.inr rfl, hlen⟩)
  · exact (hbuf i).trans (if_neg (by tauto))
  · simp

theorem realToI16_zero : realToI16 0 = 0 := by norm_num [realToI16, realTrunc]

/-- Settles O32: at volume 0 the real product that TEND converts is 0. -/
theorem volumeZeroIsSilence : Obligations.VolumeZeroIsSilence := by
  unfold Obligations.VolumeZeroIsSilence
  intro s hp hv hlen
  obtain ⟨t, y, hexec, hreal, -, hleft, hright, -, -, hframe⟩ := tickEnds s 0 hp hv hlen
  refine ⟨t, hexec, fun hnum => ?_, by rw [hframe]⟩
  have hy : y = 0 := by simp [hreal hnum, realToI16_zero]
  rw [hleft, hright, hy]
  exact ⟨rfl, rfl⟩

/-! ### SUBMIT -/

theorem execSubmit_of_full (hp : s.PPH = .begin) (hT : s.T = s.cfg.B) :
    execSubmit s = .next { s.emit [.sinkSubmit (sinkBytes s.BUF)] with T := 0 } := by
  simp [execSubmit, hp, hT]

/-- The bytes of sample `i` stand at the places `2i` and `2i + 1` (R63). -/
theorem sinkBytes_getD (buf : List Int) {i : Nat} (hi : i < buf.length) :
    [(sinkBytes buf).getD (2 * i) 0, (sinkBytes buf).getD (2 * i + 1) 0] = le16 (buf.getD i 0) := by
  induction buf generalizing i with
  | nil => simp at hi
  | cons y ys ih =>
    cases i with
    | zero => rfl
    | succ i => exact ih (Nat.lt_of_succ_lt_succ hi)

/-- Settles O33: the bytes of each sample are those of `le16`, which O34 reads as its two's-complement form. -/
theorem bufferHandedOver : Obligations.BufferHandedOver := by
  unfold Obligations.BufferHandedOver
  intro s hp hT hlen hrange
  refine ⟨_, sinkBytes s.BUF, execSubmit_of_full hp hT, ?_, fun i hi => ?_, rfl⟩
  · rw [sinkBytes_length, hlen]
    omega
  · rw [← hlen] at hi
    have hmem : s.bufAt i ∈ s.BUF := by
      rw [State.bufAt, List.getD_eq_getElem _ _ hi]
      exact List.getElem_mem hi
    obtain ⟨hlo, hhi⟩ := hrange _ hmem
    obtain ⟨low, high, hle, hlow, hhigh, -⟩ := sampleBytesAreTwosComplement _ hlo hhi
    have hbytes := (sinkBytes_getD s.BUF hi).trans hle
    simp only [List.cons.injEq, and_true] at hbytes
    obtain ⟨hl, hr⟩ := hbytes
    rw [hl, hr]
    omega

end Sys2Proof.Machine
end

section
/-! The uninterrupted runs of the production loop: TICK, FILL and CYCLE (41_mixer.md R150, R151). -/
namespace Sys2Proof.Machine

variable {s : State} {pm q v : ℚ}

/-! ### Several notes rendered, one after another -/

/-- The notes of a list rendered in its order (R130). -/
def State.renderNotes (s : State) (pm q : ℚ) (ns : List Nat) : State := ns.foldl (fun u n => u.renderVoice n pm q) s

@[simp] theorem renderNotes_nil (s : State) (pm q : ℚ) : s.renderNotes pm q [] = s := rfl

@[simp] theorem renderNotes_cons (s : State) (pm q : ℚ) (n : Nat) (ns : List Nat) :
    s.renderNotes pm q (n :: ns) = (s.renderVoice n pm q).renderNotes pm q ns := rfl

theorem renderNotes_append (s : State) (pm q : ℚ) (ms ns : List Nat) :
    s.renderNotes pm q (ms ++ ns) = (s.renderNotes pm q ms).renderNotes pm q ns := List.foldl_append

/-- Rendering writes the phases and the accumulators, and nothing else (R130). -/
theorem renderNotes_frame (s : State) (pm q : ℚ) (ns : List Nat) :
    s.renderNotes pm q ns = { s with
      PHASE := (s.renderNotes pm q ns).PHASE, SUM := (s.renderNotes pm q ns).SUM,
      CNT := (s.renderNotes pm q ns).CNT } := by
  induction ns generalizing s with
  | nil => rfl
  | cons n ns ih => exact ih (s.renderVoice n pm q)

theorem renderNotes_CNT (s : State) (pm q : ℚ) (ns : List Nat) : (s.renderNotes pm q ns).CNT = s.CNT + ns.length := by
  induction ns generalizing s with
  | nil => rfl
  | cons n ns ih =>
    rw [renderNotes_cons, ih, State.renderVoice_CNT, List.length_cons, Nat.add_assoc, Nat.add_comm 1]

@[simp] theorem renderNotes_cfg (s : State) (pm q : ℚ) (ns : List Nat) : (s.renderNotes pm q ns).cfg = s.cfg := by
  rw [renderNotes_frame]

theorem renderNotes_CLAT (s : State) (pm q : ℚ) (ns : List Nat) : (s.renderNotes pm q ns).CLAT = s.CLAT := by
  rw [renderNotes_frame]

theorem cell_renderNotes (s : State) (pm q : ℚ) (ns : List Nat) (c n : Nat) :
    (s.renderNotes pm q ns).cell c n = s.cell c n := by
  rw [renderNotes_frame]
  rfl

theorem renderNotes_PHASE_length (s : State) (pm q : ℚ) (ns : List Nat) :
    (s.renderNotes pm q ns).PHASE.length = s.PHASE.length := by
  induction ns generalizing s with
  | nil => rfl
  | cons n ns ih => rw [renderNotes_cons, ih, State.renderVoice_PHASE, List.length_set]

theorem phaseAt_renderNotes_of_not_mem {ns : List Nat} {m : Nat} (h : m ∉ ns) :
    (s.renderNotes pm q ns).phaseAt m = s.phaseAt m := by
  induction ns generalizing s with
  | nil => rfl
  | cons n ns ih =>
    obtain ⟨hne, hmem⟩ := not_or.1 (List.mem_cons.not.1 h)
    rw [renderNotes_cons, ih hmem, State.phaseAt_renderVoice, if_neg fun hc => hne hc.1.symm]

/-- A note rendered once has its phase advanced once (R123, R124). -/
theorem phaseAt_renderNotes_of_mem {ns : List Nat} (hnd : ns.Nodup) (hlt : ∀ n ∈ ns, n < s.PHASE.length) {m : Nat}
    (h : m ∈ ns) : (s.renderNotes pm q ns).phaseAt m = advancePhase s.cfg.NUM (s.phaseAt m) (s.stepAt m) pm := by
  induction ns generalizing s with
  | nil => simp at h
  | cons n ns ih =>
    obtain ⟨hn, hnd⟩ := List.nodup_cons.1 hnd
    obtain ⟨hnlt, hlt⟩ := List.forall_mem_cons.1 hlt
    rw [renderNotes_cons]
    rcases List.mem_cons.1 h with rfl | hmem
    · rw [phaseAt_renderNotes_of_not_mem hn, State.phaseAt_renderVoice, if_pos ⟨rfl, hnlt⟩]
    · have hne : n ≠ m := fun e => hn (e ▸ hmem)
      have hlt' : ∀ k ∈ ns, k < (s.renderVoice n pm q).PHASE.length := by simpa using hlt
      rw [ih hnd hlt' hmem, State.phaseAt_renderVoice, if_neg fun hc => hne hc.1]
      rfl

/-- SUM gains the samples rendered from the new phases, in the order of the list (R126, R130). -/
theorem renderNotes_SUM {ns : List Nat} (hnd : ns.Nodup) (hlt : ∀ n ∈ ns, n < s.PHASE.length) :
    (s.renderNotes pm q ns).SUM =
      ns.foldl (fun sum n => addShaped s.cfg.NUM sum s.cfg.SIGN0 ((s.renderNotes pm q ns).phaseAt n) q) s.SUM := by
  induction ns generalizing s with
  | nil => rfl
  | cons n ns ih =>
    have hphase := phaseAt_renderNotes_of_mem (pm := pm) (q := q) hnd hlt List.mem_cons_self
    obtain ⟨-, hnd⟩ := List.nodup_cons.1 hnd
    have hlt' : ∀ k ∈ ns, k < (s.renderVoice n pm q).PHASE.length := by simpa using (List.forall_mem_cons.1 hlt).2
    rw [List.foldl_cons, hphase, renderNotes_cons, ih hnd hlt']
    rfl

/-- Over the reals the sum of shaped samples is the sum of the rendered values (R126). -/
theorem foldl_addShaped_toReal (sum : Datum Wave) (z : SignZero) (φ : Nat → Datum Angle) (q : ℚ) (ns : List Nat) :
    (ns.foldl (fun sum n => addShaped .reals sum z (φ n) q) sum).toWave.toReal =
      sum.toWave.toReal + (ns.map fun n => realRender z.value (φ n).toAngle.toReal q).sum := by
  induction ns generalizing sum with
  | nil => simp
  | cons n ns ih =>
    rw [List.foldl_cons, ih, List.map_cons, List.sum_cons, ← add_assoc]
    simp [addShaped, Datum.toWave]

/-! ### The voices of a tick -/

/-- The control parameters that the voices of column `c` read hold `pm` and `q`; a column with no active note reads none (R37). -/
def State.VoiceParams (s : State) (c : Nat) (pm q : ℚ) : Prop :=
  ∀ n ∈ s.activeNotes c, s.PMULT = some pm ∧ s.SQMIX = some q

theorem State.mem_activeNotes {c n : Nat} : n ∈ s.activeNotes c ↔ n < s.cfg.N ∧ s.cell c n = true := by
  simp [State.activeNotes]

theorem State.activeNotes_nodup (s : State) (c : Nat) : (s.activeNotes c).Nodup := List.nodup_range.filter _

theorem voiceParams_renderNotes {c : Nat} (h : s.VoiceParams c pm q) (ns : List Nat) :
    (s.renderNotes pm q ns).VoiceParams c pm q := by
  rw [renderNotes_frame]
  exact h

/-- The sequencing fields before `VOICE k`; after the last voice, `k = N`, the tick is ready to end (R40, R130). -/
def State.beforeVoice (s : State) (k : Nat) : State :=
  { s with PPH := if k < s.cfg.N then .voices else .finish, PV := min k (s.cfg.N - 1) }

theorem beforeVoice_last {k : Nat} (hk : k = s.cfg.N) : s.beforeVoice k = { s with PPH := .finish, PV := k - 1 } := by
  simp [State.beforeVoice, ← hk]

theorem afterVoice_beforeVoice {k : Nat} (hk : k < s.cfg.N) : (s.beforeVoice k).afterVoice k = s.beforeVoice (k + 1) := by
  rcases (s.beforeVoice k).afterVoice_cases k with ⟨hlast, e⟩ | ⟨hnext, e⟩ <;> rw [e]
  · have hN : k + 1 = s.cfg.N := hlast
    simp [State.beforeVoice, ← hN]
  · have hN : k + 1 < s.cfg.N := lt_of_le_of_ne hk hnext
    have hPV' : min (k + 1) (s.cfg.N - 1) = k + 1 := by omega
    simp [State.beforeVoice, hk, hN, hPV']

/-- VOICE renders its note if it is active and moves on either way (R128, R130). -/
theorem exec_voice_beforeVoice {k : Nat} (hk : k < s.cfg.N) (hpar : s.VoiceParams s.CLAT pm q) :
    exec (.voice k) (s.beforeVoice k) =
      .next ((s.renderNotes pm q ([k].filter (s.cell s.CLAT))).beforeVoice (k + 1)) := by
  have hp : (s.beforeVoice k).PPH = .voices := if_pos hk
  have hv : (s.beforeVoice k).PV = k := min_eq_left (Nat.le_sub_one_of_lt hk)
  cases hcell : s.cell s.CLAT k with
  | false =>
    have hexec : exec (.voice k) (s.beforeVoice k) = _ := execVoice_of_silent hp hv hcell
    rw [afterVoice_beforeVoice hk] at hexec
    simpa [hcell] using hexec
  | true =>
    obtain ⟨hpm, hq⟩ := hpar k (State.mem_activeNotes.2 ⟨hk, hcell⟩)
    have hexec : exec (.voice k) (s.beforeVoice k) = .next (((s.renderVoice k pm q).beforeVoice k).afterVoice k) :=
      execVoice_of_active hp hv hcell hpm hq
    rw [afterVoice_beforeVoice (s := s.renderVoice k pm q) hk] at hexec
    simpa [hcell] using hexec

/-- The first `k` voices render the active ones of the first `k` notes, in ascending order. -/
theorem runOps_voices {k : Nat} (hk : k ≤ s.cfg.N) (hpar : s.VoiceParams s.CLAT pm q) :
    runOps ((List.range k).map Instr.voice) (s.beforeVoice 0) =
      .next ((s.renderNotes pm q ((List.range k).filter (s.cell s.CLAT))).beforeVoice k) := by
  induction k with
  | zero => rfl
  | succ k ih =>
    have hexec := exec_voice_beforeVoice (s := s.renderNotes pm q ((List.range k).filter (s.cell s.CLAT))) (k := k)
      (by rw [renderNotes_cfg]; exact hk) (by rw [renderNotes_CLAT]; exact voiceParams_renderNotes hpar _)
    have hactive : (s.renderNotes pm q ((List.range k).filter (s.cell s.CLAT))).cell s.CLAT = s.cell s.CLAT :=
      funext (cell_renderNotes _ _ _ _ _)
    rw [renderNotes_CLAT, hactive, ← renderNotes_append, ← List.filter_append, ← List.range_succ] at hexec
    rw [List.range_succ, List.map_append, runOps_append, ih (Nat.le_of_succ_le hk)]
    exact (runOps_cons_of_next hexec []).trans (by rw [List.range_succ]; rfl)

/-! ### A tick -/

/-- TBEG and then the active notes of the current column: the phases and the accumulators that TEND finds (R150). -/
def State.rendered (s : State) (pm q : ℚ) : State := s.tickBegun.renderNotes pm q (s.activeNotes s.COL)

theorem rendered_cfg (s : State) (pm q : ℚ) : (s.rendered pm q).cfg = s.cfg := renderNotes_cfg _ _ _ _

theorem rendered_frame (s : State) (pm q : ℚ) :
    s.rendered pm q = { s.tickBegun with
      PHASE := (s.rendered pm q).PHASE, SUM := (s.rendered pm q).SUM, CNT := (s.rendered pm q).CNT } :=
  renderNotes_frame _ _ _ _

/-- The state that a tick leaves, as a function of the state before it (R150). -/
def State.ticked (s : State) (pm q v : ℚ) : State :=
  { s with
    PHASE := (s.rendered pm q).PHASE, CLAT := s.COL, SUM := (s.rendered pm q).SUM, CNT := (s.rendered pm q).CNT,
    BUF := (s.BUF.set (2 * s.T) ((s.rendered pm q).sample v)).set (2 * s.T + 1) ((s.rendered pm q).sample v),
    T := s.T + 1, PPH := .begin, PV := s.cfg.N - 1 }

theorem runOps_tickOps (hN : 0 < s.cfg.N) (hp : s.PPH = .begin) (hT : s.T < s.cfg.B) (hv : s.VOL = some v)
    (hpar : s.VoiceParams s.COL pm q) : runOps (tickOps s.cfg) s = .next (s.ticked pm q v) := by
  have htbeg : exec .tbeg s = .next (s.tickBegun.beforeVoice 0) := by
    have hfirst : s.tickBegun.beforeVoice 0 = s.tickBegun := by simp [State.beforeVoice, State.tickBegun, hN]
    rw [hfirst]
    exact execTbeg_of_begin hp hT
  have hvoices : runOps ((List.range s.cfg.N).map Instr.voice) (s.tickBegun.beforeVoice 0) =
      .next { s.rendered pm q with PPH := .finish, PV := s.cfg.N - 1 } :=
    (runOps_voices (s := s.tickBegun) le_rfl hpar).trans
      (congrArg Host.Outcome.next (beforeVoice_last (s := s.rendered pm q) (congrArg Config.N (rendered_cfg s pm q).symm)))
  have htend : exec .tend { s.rendered pm q with PPH := .finish, PV := s.cfg.N - 1 } = .next (s.ticked pm q v) := by
    have hvol : (s.rendered pm q).VOL = some v := by rw [rendered_frame]; exact hv
    refine (execTend_of_finish (s := { s.rendered pm q with PPH := .finish, PV := s.cfg.N - 1 }) rfl hvol).trans ?_
    rw [State.ticked, rendered_frame]
    rfl
  rw [tickOps, runOps_cons_of_next htbeg, runOps_append, hvoices]
  exact runOps_cons_of_next htend []

theorem phaseAt_ticked (s : State) (pm q v : ℚ) (n : Nat) : (s.ticked pm q v).phaseAt n = (s.rendered pm q).phaseAt n :=
  phaseAt_congr (s := s.rendered pm q) (t := s.ticked pm q v) rfl (rendered_cfg s pm q).symm n

theorem sample_ticked (s : State) (pm q v v' : ℚ) : (s.ticked pm q v).sample v' = (s.rendered pm q).sample v' := by
  rw [State.sample, State.sample, rendered_cfg]
  rfl

theorem activeNotes_lt {c : Nat} (hlen : s.PHASE.length = s.cfg.N) : ∀ n ∈ s.activeNotes c, n < s.PHASE.length :=
  fun _ hn => hlen ▸ (State.mem_activeNotes.1 hn).1

theorem phaseAt_ticked_of_mem (hlen : s.PHASE.length = s.cfg.N) {n : Nat} (hn : n ∈ s.activeNotes s.COL) :
    (s.ticked pm q v).phaseAt n = advancePhase s.cfg.NUM (s.phaseAt n) (s.stepAt n) pm := by
  rw [phaseAt_ticked]
  exact phaseAt_renderNotes_of_mem (s := s.tickBegun) (s.activeNotes_nodup s.COL) (activeNotes_lt hlen) hn

theorem phaseAt_ticked_of_not_mem {n : Nat} (hn : n ∉ s.activeNotes s.COL) :
    (s.ticked pm q v).phaseAt n = s.phaseAt n := by
  rw [phaseAt_ticked]
  exact phaseAt_renderNotes_of_not_mem hn

theorem ticked_PHASE_length (s : State) (pm q v : ℚ) : (s.ticked pm q v).PHASE.length = s.PHASE.length :=
  renderNotes_PHASE_length _ _ _ _

theorem ticked_SUM (hlen : s.PHASE.length = s.cfg.N) :
    (s.ticked pm q v).SUM = (s.activeNotes s.COL).foldl
      (fun sum n => addShaped s.cfg.NUM sum s.cfg.SIGN0 ((s.ticked pm q v).phaseAt n) q) (s.cfg.NUM.ofWave Wave.zero) := by
  simp only [phaseAt_ticked]
  exact renderNotes_SUM (s := s.tickBegun) (s.activeNotes_nodup s.COL) (activeNotes_lt hlen)

theorem ticked_CNT (s : State) (pm q v : ℚ) : (s.ticked pm q v).CNT = (s.activeNotes s.COL).length :=
  (renderNotes_CNT _ _ _ _).trans (Nat.zero_add _)

theorem phaseRad_ticked (hnum : s.cfg.NUM = .reals) (hlen : s.PHASE.length = s.cfg.N) {n : Nat}
    (hn : n ∈ s.activeNotes s.COL) :
    (s.ticked pm q v).phaseRad n =
      if 2 * Real.pi < s.phaseRad n + s.stepRad n * pm then s.phaseRad n + s.stepRad n * pm - 2 * Real.pi
      else s.phaseRad n + s.stepRad n * pm := by
  rw [State.phaseRad, phaseAt_ticked_of_mem hlen hn, hnum]
  exact advanceAngle_toReal _ _ pm

theorem sumReal_ticked (hnum : s.cfg.NUM = .reals) (hlen : s.PHASE.length = s.cfg.N) :
    (s.ticked pm q v).sumReal =
      ((s.activeNotes s.COL).map fun n => realRender s.sign0 ((s.ticked pm q v).phaseRad n) q).sum := by
  rw [State.sumReal, ticked_SUM hlen, hnum, foldl_addShaped_toReal, ofWave_zero_toWave, Wave.zero_toReal, zero_add]
  rfl

/-- The hypothesis of R150 on PMULT and SQMIX: a parameter that no voice reads may hold anything. -/
theorem voiceParams_getD {c : Nat} (h : s.activeNotes c ≠ [] → s.PMULT ≠ none ∧ s.SQMIX ≠ none) :
    s.VoiceParams c (s.PMULT.getD 1) (s.SQMIX.getD 0) := by
  intro n hn
  obtain ⟨hpm, hq⟩ := h (List.ne_nil_of_mem hn)
  obtain ⟨pm, hpm⟩ := Option.ne_none_iff_exists'.1 hpm
  obtain ⟨q, hq⟩ := Option.ne_none_iff_exists'.1 hq
  simp [hpm, hq]

/-- Settles O35: the run ends in `State.ticked`, whose clauses are those of its rendered notes. -/
theorem uninterruptedTick : Obligations.UninterruptedTick := by
  unfold Obligations.UninterruptedTick
  intro s v hinv hp hT hv hpar active pm q
  have hlen := hinv.phase_len
  refine ⟨s.ticked pm q v, runOps_tickOps (Config.N_pos hinv.cfg_wf) hp hT hv (voiceParams_getD hpar),
    fun n hn => phaseAt_ticked_of_mem hlen hn, fun n hn => phaseAt_ticked_of_not_mem hn, ticked_PHASE_length s pm q v,
    ticked_SUM hlen, ticked_CNT s pm q v, fun hnum => ⟨fun n hn => phaseRad_ticked hnum hlen hn, sumReal_ticked hnum hlen,
      sample_reals _ v hnum⟩, ?_⟩
  rw [sample_ticked]
  rfl

/-! ### Several ticks, and the cycle -/

/-- The state that `k` ticks leave, one after another (R151). -/
def State.afterTicks (pm q v : ℚ) : Nat → State → State
  | 0, s => s
  | k + 1, s => State.afterTicks pm q v k (s.ticked pm q v)

theorem runOps_ticksOps {k : Nat} (hN : 0 < s.cfg.N) (hp : s.PPH = .begin) (hT : s.T + k ≤ s.cfg.B) (hv : s.VOL = some v)
    (hpar : s.VoiceParams s.COL pm q) : runOps (ticksOps s.cfg k) s = .next (s.afterTicks pm q v k) := by
  induction k generalizing s with
  | zero => rfl
  | succ k ih =>
    rw [ticksOps, runOps_append, runOps_tickOps hN hp (by omega) hv hpar]
    have hT' : s.T + 1 + k ≤ s.cfg.B := by omega
    exact ih (s := s.ticked pm q v) hN rfl hT' hv hpar

/-- One tick or more change the phases, the accumulators, the buffer and the sequencing fields, and nothing else (R150). -/
theorem afterTicks_succ_frame (s : State) (pm q v : ℚ) (k : Nat) :
    s.afterTicks pm q v (k + 1) = { s with
      PHASE := (s.afterTicks pm q v (k + 1)).PHASE, CLAT := s.COL, SUM := (s.afterTicks pm q v (k + 1)).SUM,
      CNT := (s.afterTicks pm q v (k + 1)).CNT, BUF := (s.afterTicks pm q v (k + 1)).BUF,
      T := s.T + (k + 1), PPH := .begin, PV := s.cfg.N - 1 } := by
  induction k generalizing s with
  | zero => rfl
  | succ k ih =>
    have hT : s.T + (k + 1 + 1) = s.T + 1 + (k + 1) := by omega
    rw [hT]
    exact ih (s.ticked pm q v)

theorem afterTicks_PHASE_length (s : State) (pm q v : ℚ) (k : Nat) :
    (s.afterTicks pm q v k).PHASE.length = s.PHASE.length := by
  induction k generalizing s with
  | zero => rfl
  | succ k ih => exact (ih _).trans (ticked_PHASE_length s pm q v)

theorem afterTicks_BUF_length (s : State) (pm q v : ℚ) (k : Nat) : (s.afterTicks pm q v k).BUF.length = s.BUF.length := by
  induction k generalizing s with
  | zero => rfl
  | succ k ih => exact (ih _).trans (by simp [State.ticked])

theorem phaseAfter_succ_left (f : NumFormat) (stp : Datum Angle) (pm : ℚ) (k : Nat) (p : Datum Angle) :
    phaseAfter f stp pm (k + 1) p = phaseAfter f stp pm k (advancePhase f p stp pm) := by
  induction k with
  | zero => rfl
  | succ k ih => rw [phaseAfter, ih, phaseAfter]

theorem phaseAt_afterTicks_of_mem {k n : Nat} (hlen : s.PHASE.length = s.cfg.N) (hn : n ∈ s.activeNotes s.COL) :
    (s.afterTicks pm q v k).phaseAt n = phaseAfter s.cfg.NUM (s.stepAt n) pm k (s.phaseAt n) := by
  induction k generalizing s with
  | zero => rfl
  | succ k ih =>
    have hrest := ih (s := s.ticked pm q v) ((ticked_PHASE_length s pm q v).trans hlen) hn
    rw [phaseAt_ticked_of_mem hlen hn] at hrest
    rw [phaseAfter_succ_left]
    exact hrest

theorem phaseAt_afterTicks_of_not_mem {k n : Nat} (hn : n ∉ s.activeNotes s.COL) :
    (s.afterTicks pm q v k).phaseAt n = s.phaseAt n := by
  induction k generalizing s with
  | zero => rfl
  | succ k ih => exact (ih (s := s.ticked pm q v) hn).trans (phaseAt_ticked_of_not_mem hn)

/-- FILL from `T = 0`: the run, its frame, and what it leaves in the phases and the buffer (R151). -/
theorem exists_fill (hinv : s.Inv) (hp : s.PPH = .begin) (hT : s.T = 0) (hv : s.VOL = some v)
    (hpar : s.VoiceParams s.COL pm q) :
    ∃ u, runOps (ticksOps s.cfg s.cfg.B) s = .next u ∧
      u = { s with
        PHASE := u.PHASE, CLAT := s.COL, SUM := u.SUM, CNT := u.CNT, BUF := u.BUF, T := s.cfg.B, PPH := .begin,
        PV := s.cfg.N - 1 } ∧
      (∀ n ∈ s.activeNotes s.COL, u.phaseAt n = phaseAfter s.cfg.NUM (s.stepAt n) pm s.cfg.B (s.phaseAt n)) ∧
      (∀ n, n ∉ s.activeNotes s.COL → u.phaseAt n = s.phaseAt n) ∧
      u.PHASE.length = s.PHASE.length ∧ u.BUF.length = s.BUF.length := by
  obtain ⟨k, hk⟩ : ∃ k, k + 1 = s.cfg.B := Nat.exists_add_one_eq.2 (Config.B_pos hinv.cfg_wf)
  have hframe := afterTicks_succ_frame s pm q v k
  rw [hk, hT, Nat.zero_add] at hframe
  exact ⟨_, runOps_ticksOps (Config.N_pos hinv.cfg_wf) hp (by omega) hv hpar, hframe,
    fun n hn => phaseAt_afterTicks_of_mem hinv.phase_len hn, fun n hn => phaseAt_afterTicks_of_not_mem hn,
    afterTicks_PHASE_length s pm q v _, afterTicks_BUF_length s pm q v _⟩

/-- Settles O36: FILL leaves the tick index at `B`, where SUBMIT is enabled and hands the buffer over. -/
theorem uninterruptedCycle : Obligations.UninterruptedCycle := by
  unfold Obligations.UninterruptedCycle
  intro s v hinv hp hT hv hpar
  obtain ⟨u, hfill, hframe, hactive, hsilent, hPHASE, hBUF⟩ := exists_fill hinv hp hT hv (voiceParams_getD hpar)
  have hTu : u.T = s.cfg.B := by rw [hframe]
  have hpu : u.PPH = .begin := by rw [hframe]
  have hsubmit : exec .submit u = _ := execSubmit_of_full hpu (by rw [hframe])
  refine ⟨u, _, sinkBytes u.BUF, hfill, hTu, hpu, hsubmit, ?_, ?_, ?_, rfl, hactive, hsilent, hPHASE, ?_⟩
  · change runOps (ticksOps s.cfg s.cfg.B ++ [.submit]) s = _
    rw [runOps_append, hfill]
    exact runOps_cons_of_next hsubmit []
  · rw [hframe]
    rfl
  · rw [sinkBytes_length, hBUF, hinv.buf_len]
    omega
  · rw [hframe]
    rfl

end Sys2Proof.Machine
end

section
/-! The operations of the sequencer, one by one: PCHK, ABEG, RCHK, RLVL, RPRM, AEND (42_sequencer.md R161 to R169). -/
namespace Sys2Proof.Machine

variable {s : State} {n : Nat}

/-! ### PCHK -/

theorem exec_pchk_of_idle {beat : Nat} (hc : s.CPH = .idle) (hd : s.DUE = false) (hb : s.BEAT = some beat) (now : Nat) :
    exec (.pchk now) s = .next (if isDue now s.LAST beat then { s with DUE := true, LAST := now } else s) := by
  obtain ⟨t, hexec⟩ := exec_of_enabled (s := s) (i := .pchk now) ⟨hc, hd, by simp [hb]⟩
  obtain ⟨-, -, beat', hb', hcases⟩ := execPchk_next hexec
  obtain rfl : beat = beat' := Option.some.inj (hb.symm.trans hb')
  rw [hexec]
  rcases hcases with ⟨hdue, rfl⟩ | ⟨hdue, rfl⟩
  · rw [if_pos hdue]
  · rw [if_neg (ne_true_of_eq_false hdue), ← hd]

/-- Settles O38: the two clauses are the two outcomes of the beat test. -/
theorem beatTest : Obligations.BeatTest := by
  unfold Obligations.BeatTest
  intro s now beat hc hd hb
  have hexec := exec_pchk_of_idle hc hd hb now
  constructor
  · intro h
    rw [hexec, if_pos ((isDue_iff _ _ _).2 (h.imp_right And.right))]
  · rintro ⟨hle, hlt⟩
    have hnot : ¬ isDue now s.LAST beat = true := by
      rw [isDue_iff]
      omega
    rw [hexec, if_neg hnot]

/-! ### ABEG and RLVL -/

/-- The state that ABEG leaves (R164). -/
def State.advanceBegun (s : State) : State :=
  { s with COL := (s.COL + 1) % s.cfg.COLUMNS, DUE := false, CPH := .chk, CN := 0 }

theorem exec_abeg_of_idle (hc : s.CPH = .idle) : exec .abeg s = .next s.advanceBegun := if_neg (not_not.2 hc)

theorem exec_rlvl_of_next (hc : s.CPH = .lvl) (hn : s.CN = n) :
    exec (.rlvl n) s = .next { s with LLAT := s.lineAt n, CPH := .prm } := if_pos ⟨hc, hn⟩

/-- Settles O39: ABEG is enabled in IDLE. -/
theorem advanceBegins : Obligations.AdvanceBegins := by
  unfold Obligations.AdvanceBegins
  intro s hc
  exact exec_abeg_of_idle hc

/-- Settles O41: RLVL is enabled at its own note. -/
theorem lineSampled : Obligations.LineSampled := by
  unfold Obligations.LineSampled
  intro s n hc hn
  exact exec_rlvl_of_next hc hn

/-! ### RCHK -/

theorem State.setPend_pendAt_self (s : State) (n : Nat) : s.setPend n (s.pendAt n) = s := by
  rw [State.setPend, State.pendAt, set_flagAt_self]

theorem set_getD_self {α : Type} (xs : List α) (n : Nat) (d : α) : xs.set n (xs.getD n d) = xs := by
  rcases lt_or_ge n xs.length with h | h
  · rw [List.getD_eq_getElem _ _ h, List.set_getElem_self]
  · exact List.set_eq_of_length_le h

theorem State.setCell_cell_self (s : State) (c n : Nat) : s.setCell c n (s.cell c n) = s := by
  rw [State.setCell, State.cell, set_flagAt_self, set_getD_self]

/-- RCHK as one write of a cell and one of a flag: where the flag is clear, both write the value that stands there (R166). -/
theorem State.consume_eq (s : State) (n : Nat) :
    s.consume n = (s.setCell s.COL n (s.cell s.COL n ^^ s.pendAt n)).setPend n false := by
  rcases s.consume_cases n with ⟨hp, e⟩ | ⟨hp, e⟩
  · rw [e, hp, Bool.xor_false, State.setCell_cell_self, ← hp, State.setPend_pendAt_self]
  · rw [e, hp, Bool.xor_true]

theorem State.pendAt_consume_of_ne {m : Nat} (h : m ≠ n) : (s.consume n).pendAt m = s.pendAt m := by
  rw [State.consume_eq, State.pendAt_setPend, if_neg fun hc => h hc.1.symm]
  rfl

/-- Settles O40: RCHK is enabled at its own note, and `consume` is what it does to the grid and the flags. -/
theorem noteReconciled : Obligations.NoteReconciled := by
  unfold Obligations.NoteReconciled
  intro s n hc hcn hgrid hcol hrows hn hpend
  have hcol' : s.COL < s.GRID.length := hgrid ▸ hcol
  have hrow : (s.GRID.getD s.COL []).length = s.cfg.N := by
    rw [List.getD_eq_getElem _ _ hcol']
    exact hrows _ (List.getElem_mem hcol')
  refine ⟨_, exec_rchk_of_next hc hcn, rfl, fun hset => ⟨?_, fun c m hne => ?_, State.pendAt_consume s n,
    fun m hm => State.pendAt_consume_of_ne hm⟩, fun hclear => ?_, ?_⟩
  · have hcell := State.cell_consume hcol' (hrow ▸ hn)
    rwa [hset, Bool.xor_true] at hcell
  · by_contra hchanged
    obtain ⟨-, rfl, rfl⟩ := cell_consume_of_ne hchanged
    exact hne rfl
  · have hsame : s.consume n = s := if_neg (by simp [hclear])
    exact ⟨(congrArg State.GRID hsame :), (congrArg State.PEND hsame :)⟩
  · rw [State.consume_eq]
    rfl

/-! ### RPRM -/

/-- RPRM as one write of a flag: where it does not prime, it writes the value that stands there (R168). -/
theorem State.reprime_eq (s : State) (n : Nat) :
    s.reprime n = s.setPend n (if s.cfg.REPRIME = .all ∨ s.HIT = true then s.LLAT else s.pendAt n) := by
  rcases s.reprime_cases n with ⟨h, e⟩ | ⟨hr, hh, e⟩
  · rw [e, if_pos h]
  · rw [e, if_neg (by simp [hr, hh]), State.setPend_pendAt_self]

/-- What RPRM of a note before the last, and of the last, leaves in the sequencing fields (R168). -/
theorem State.afterPrime_sequencing (s : State) (n : Nat) :
    (n + 1 = s.cfg.N → (s.afterPrime n).CPH = .finish ∧ (s.afterPrime n).CN = s.CN) ∧
    (n + 1 ≠ s.cfg.N → (s.afterPrime n).CPH = .chk ∧ (s.afterPrime n).CN = n + 1) := by
  rcases s.afterPrime_cases n with ⟨h, e⟩ | ⟨h, e⟩ <;> rw [e]
  · exact ⟨fun _ => ⟨rfl, rfl⟩, fun hne => absurd h hne⟩
  · exact ⟨fun heq => absurd heq h, fun _ => ⟨rfl, rfl⟩⟩

theorem State.afterPrime_frame (s : State) (n : Nat) :
    s.afterPrime n = { s with CPH := (s.afterPrime n).CPH, CN := (s.afterPrime n).CN } := by
  rcases s.afterPrime_cases n with ⟨-, e⟩ | ⟨-, e⟩ <;> rw [e]

theorem State.pendAt_afterPrime (s : State) (n m : Nat) : (s.afterPrime n).pendAt m = s.pendAt m := by
  rw [State.pendAt, State.afterPrime_PEND, State.pendAt]

/-- Settles O42: RPRM writes the one flag, or nothing, and then moves the sequencing fields on. -/
theorem flagReprimed : Obligations.FlagReprimed := by
  unfold Obligations.FlagReprimed
  intro s n hc hcn hlen
  obtain ⟨hlast, hnext⟩ := (s.reprime n).afterPrime_sequencing n
  rw [State.reprime_cfg] at hlast hnext
  refine ⟨_, exec_rprm_of_next hc hcn, fun h => ?_, fun h => ?_, fun m hm => ?_, fun h => ?_, hnext, ?_⟩
  · rw [State.pendAt_afterPrime, State.reprime_eq, if_pos h, State.pendAt_setPend, if_pos ⟨rfl, hlen⟩]
  · rw [State.pendAt_afterPrime, State.reprime_eq, if_neg (by simp [h]), State.setPend_pendAt_self]
  · rw [State.pendAt_afterPrime, State.reprime_eq, State.pendAt_setPend, if_neg fun hc => hm hc.1.symm]
  · rw [← State.reprime_CN s n]
    exact hlast h
  · rw [State.afterPrime_frame, State.reprime_eq]
    rfl

/-! ### AEND -/

/-- The state that AEND leaves: the redraw appended to the trace, the advance at its end (R169). -/
def State.redrawn (s : State) : State :=
  { s with trace := s.trace ++ [.dispClear, .dispSetPixels s.pixels, .dispCommit], CPH := .idle }

theorem exec_aend_of_finish (hc : s.CPH = .finish) : exec .aend s = .next s.redrawn := if_pos hc

/-- The redraw's pixels by R169; a highlight row of the current column lies in the display's space. -/
theorem State.mem_pixels_iff (hwf : s.cfg.wf = true) (hcol : s.COL < s.cfg.COLUMNS) (c r : Nat) :
    (c, r) ∈ s.pixels ↔
      (c < s.cfg.COLUMNS ∧ r < s.cfg.N ∧ s.cell c r = true) ∨ (c = s.COL ∧ r ∈ s.cfg.highlight s.COL) := by
  have hspace : c = s.COL ∧ r ∈ s.cfg.highlight s.COL → c < s.cfg.COLUMNS ∧ r < s.cfg.N := by
    rintro ⟨rfl, hr⟩
    exact ⟨hcol, Config.highlight_lt hwf hr⟩
  rw [State.mem_pixels, State.pixelLit, Bool.or_eq_true, Bool.and_eq_true, decide_eq_true_eq, decide_eq_true_eq]
  tauto

/-- Settles O43: the list of the trace entry is `State.pixels`. -/
theorem redrawEmitted : Obligations.RedrawEmitted := by
  unfold Obligations.RedrawEmitted
  intro s hc hwf hcol
  exact ⟨s.pixels, exec_aend_of_finish hc, s.pixels_nodup, State.mem_pixels_iff hwf hcol⟩

/-- A trace and a later one are realised by their events, one after the other (R81). -/
theorem Realises.append {es es' : List Event} {os os' : List OutEvent} (h : Realises es os) (h' : Realises es' os') :
    Realises (es ++ es') (os ++ os') := by
  induction h with
  | nil => exact h'
  | sinkSubmit bytes _ ih => exact .sinkSubmit bytes ih
  | dispClear _ ih => exact .dispClear ih
  | dispSetPixels pixels order hperm _ ih =>
    rw [List.append_assoc]
    exact .dispSetPixels pixels order hperm ih
  | dispCommit _ ih => exact .dispCommit ih

/-- The three entries of a redraw stand for every order of its pixels (R169). -/
theorem realises_redraw {pixels order : List (Nat × Nat)} (h : order.Perm pixels) :
    Realises [.dispClear, .dispSetPixels pixels, .dispCommit]
      (.dispClear :: (order.map (fun p => OutEvent.dispSetPixel p.1 p.2) ++ [.dispCommit])) :=
  .dispClear (.dispSetPixels pixels order h (.dispCommit .nil))

/-- Settles O44: the events of the redraw follow those of the trace before it. -/
theorem redrawInAnyOrder : Obligations.RedrawInAnyOrder := by
  unfold Obligations.RedrawInAnyOrder
  intro s t earlier order hexec hearlier hperm
  obtain ⟨-, rfl⟩ := execAend_next hexec
  simpa using hearlier.append (realises_redraw hperm)

end Sys2Proof.Machine
end

section
/-! The uninterrupted runs of the sequencer: one advance as a function of the state (42_sequencer.md R163), and what follows for
several advances and for a single press (R172). -/
namespace Sys2Proof.Machine

variable {s : State}

/-! ### The reconciliation of one note -/

/-- The flag of a note after an advance (R163). -/
def State.primedFlag (s : State) (n : Nat) : Bool :=
  if s.cfg.REPRIME = .all ∨ s.pendAt n = true then s.lineAt n else s.pendAt n

/-- What RCHK, RLVL and RPRM of a note write besides the sequencing fields (R166 to R168). -/
def State.reconciled (s : State) (n : Nat) : State :=
  { (s.setCell s.COL n (s.cell s.COL n ^^ s.pendAt n)).setPend n (s.primedFlag n) with
    HIT := s.pendAt n, LLAT := s.lineAt n }

/-- The sequencing fields before `RCHK k`; after the last note, `k = N`, the advance is ready to end (R43, R168). -/
def State.beforeCheck (s : State) (k : Nat) : State :=
  { s with CPH := if k < s.cfg.N then .chk else .finish, CN := min k (s.cfg.N - 1) }

theorem beforeCheck_last {k : Nat} (hk : k = s.cfg.N) : s.beforeCheck k = { s with CPH := .finish, CN := k - 1 } := by
  simp [State.beforeCheck, ← hk]

theorem afterPrime_of_CN {k : Nat} (hcn : s.CN = k) (hk : k < s.cfg.N) : s.afterPrime k = s.beforeCheck (k + 1) := by
  rcases s.afterPrime_cases k with ⟨hlast, e⟩ | ⟨hnext, e⟩ <;> rw [e]
  · simp [State.beforeCheck, ← hlast, ← hcn]
  · have hN : k + 1 < s.cfg.N := lt_of_le_of_ne hk hnext
    have hCN : min (k + 1) (s.cfg.N - 1) = k + 1 := by omega
    simp [State.beforeCheck, hN, hCN]

/-- The state that RCHK of a note leaves (R166). -/
def State.checked (s : State) (n : Nat) : State :=
  { (s.setCell s.COL n (s.cell s.COL n ^^ s.pendAt n)).setPend n false with HIT := s.pendAt n, CPH := .lvl }

theorem exec_rchk_eq_checked {n : Nat} (hc : s.CPH = .chk) (hn : s.CN = n) : exec (.rchk n) s = .next (s.checked n) := by
  rw [exec_rchk_of_next hc hn, State.consume_eq]
  rfl

theorem pendAt_checked (s : State) (n : Nat) : (s.checked n).pendAt n = false := by
  have h := s.pendAt_consume n
  rwa [State.consume_eq] at h

/-- RPRM of a note after its RCHK and RLVL: a flag that it does not prime was clear (R163). -/
theorem reprime_checked (s : State) (n : Nat) :
    ({ s.checked n with LLAT := s.lineAt n, CPH := .prm } : State).reprime n = { s.reconciled n with CPH := .prm } := by
  have hflag : (if s.cfg.REPRIME = .all ∨ s.pendAt n = true then s.lineAt n else (s.checked n).pendAt n) = s.primedFlag n := by
    rw [pendAt_checked, State.primedFlag]
    split_ifs with h
    · rfl
    · simpa using (not_or.1 h).2
  rw [State.reprime_eq]
  refine (congrArg (State.setPend _ n) hflag).trans ?_
  simp [State.checked, State.reconciled, State.setPend]

/-- RCHK, RLVL, RPRM of one note, one after another. -/
theorem runOps_reconcileOps {k : Nat} (hk : k < s.cfg.N) :
    runOps (reconcileOps k) (s.beforeCheck k) = .next ((s.reconciled k).beforeCheck (k + 1)) := by
  have hcn : (s.beforeCheck k).CN = k := min_eq_left (Nat.le_sub_one_of_lt hk)
  have hrchk := exec_rchk_eq_checked (s := s.beforeCheck k) (if_pos hk) hcn
  have hrlvl := exec_rlvl_of_next (s := (s.beforeCheck k).checked k) rfl hcn
  have hrprm := exec_rprm_of_next (s := { (s.beforeCheck k).checked k with LLAT := s.lineAt k, CPH := .prm }) rfl hcn
  have hprime := reprime_checked (s.beforeCheck k) k
  have hnext := afterPrime_of_CN (s := { (s.beforeCheck k).reconciled k with CPH := .prm }) hcn hk
  rw [reconcileOps, runOps_cons_of_next hrchk, runOps_cons_of_next hrlvl]
  refine (runOps_cons_of_next hrprm []).trans (congrArg Host.Outcome.next ?_)
  exact (congrArg (State.afterPrime · k) hprime).trans hnext

/-! ### The reconciliation of several notes -/

/-- The notes of a list reconciled in its order. -/
def State.reconcileNotes (s : State) (ns : List Nat) : State := ns.foldl State.reconciled s

theorem reconcileNotes_range_succ (s : State) (k : Nat) :
    s.reconcileNotes (List.range (k + 1)) = (s.reconcileNotes (List.range k)).reconciled k := by
  rw [State.reconcileNotes, List.range_succ, List.foldl_append]
  rfl

/-- Reconciling writes the grid, the flags and the two latches, and nothing else (R163). -/
theorem reconcileNotes_frame (s : State) (ns : List Nat) :
    s.reconcileNotes ns = { s with
      GRID := (s.reconcileNotes ns).GRID, PEND := (s.reconcileNotes ns).PEND, HIT := (s.reconcileNotes ns).HIT,
      LLAT := (s.reconcileNotes ns).LLAT } := by
  induction ns generalizing s with
  | nil => rfl
  | cons n ns ih => exact ih (s.reconciled n)

@[simp] theorem reconcileNotes_cfg (s : State) (ns : List Nat) : (s.reconcileNotes ns).cfg = s.cfg := by
  rw [reconcileNotes_frame]

@[simp] theorem reconcileNotes_COL (s : State) (ns : List Nat) : (s.reconcileNotes ns).COL = s.COL := by
  rw [reconcileNotes_frame]

@[simp] theorem lineAt_reconcileNotes (s : State) (ns : List Nat) (n : Nat) :
    (s.reconcileNotes ns).lineAt n = s.lineAt n := by
  rw [reconcileNotes_frame]
  rfl

theorem State.Inv.reconciled (h : s.Inv) (n : Nat) : (s.reconciled n).Inv :=
  { (h.setCell h.col_lt n _).setPend n (s.primedFlag n) with }

theorem State.Inv.reconcileNotes (h : s.Inv) (ns : List Nat) : (s.reconcileNotes ns).Inv := by
  induction ns generalizing s with
  | nil => exact h
  | cons n ns ih => exact ih (h.reconciled n)

theorem runOps_reconcileNotes {k : Nat} (hk : k ≤ s.cfg.N) :
    runOps ((List.range k).flatMap reconcileOps) (s.beforeCheck 0) =
      .next ((s.reconcileNotes (List.range k)).beforeCheck k) := by
  induction k with
  | zero => rfl
  | succ k ih =>
    have hnote := runOps_reconcileOps (s := s.reconcileNotes (List.range k)) (k := k) (by rwa [reconcileNotes_cfg])
    rw [List.range_succ, List.flatMap_append, runOps_append, ih (Nat.le_of_succ_le hk), List.flatMap_singleton,
      ← List.range_succ, reconcileNotes_range_succ]
    exact hnote

/-! ### What the reconciliation leaves in the grid and the flags -/

theorem pendAt_reconciled (h : s.Inv) {n : Nat} (hn : n < s.cfg.N) (m : Nat) :
    (s.reconciled n).pendAt m = if m = n then s.primedFlag n else s.pendAt m := by
  have hlen : n < s.PEND.length := h.pend_len ▸ hn
  refine (flagAt_set _ _ _ _).trans ?_
  simp [hlen, eq_comm, State.pendAt]

theorem cell_reconciled (h : s.Inv) {n : Nat} (hn : n < s.cfg.N) (c m : Nat) :
    (s.reconciled n).cell c m = if c = s.COL ∧ m = n then s.cell c m ^^ s.pendAt m else s.cell c m := by
  have hcol : s.COL < s.GRID.length := h.grid_len ▸ h.col_lt
  have hrow : n < (s.GRID.getD s.COL []).length := (h.row_len h.col_lt) ▸ hn
  refine (State.cell_setCell s s.COL n c m _).trans ?_
  by_cases hcm : c = s.COL ∧ m = n
  · obtain ⟨rfl, rfl⟩ := hcm
    rw [if_pos ⟨⟨rfl, hcol⟩, rfl, hrow⟩, if_pos ⟨rfl, rfl⟩]
  · rw [if_neg hcm, if_neg fun hc => hcm ⟨hc.1.1.symm, hc.2.1.symm⟩]

/-- After the first `k` notes, their flags are primed and the others as before (R163). -/
theorem pendAt_reconcileNotes (h : s.Inv) {k : Nat} (hk : k ≤ s.cfg.N) (m : Nat) :
    (s.reconcileNotes (List.range k)).pendAt m = if m < k then s.primedFlag m else s.pendAt m := by
  induction k generalizing m with
  | zero => rfl
  | succ k ih =>
    have hprev := ih (Nat.le_of_succ_le hk)
    have hk' : k < (s.reconcileNotes (List.range k)).cfg.N := by rwa [reconcileNotes_cfg]
    have hprimed : (s.reconcileNotes (List.range k)).primedFlag k = s.primedFlag k := by
      simp [State.primedFlag, hprev]
    rw [reconcileNotes_range_succ, pendAt_reconciled (h.reconcileNotes _) hk', hprimed, hprev]
    by_cases hm : m = k
    · simp [hm]
    · have hlt : m < k + 1 ↔ m < k := by omega
      simp [hm, hlt]

/-- After the first `k` notes, their cells of the current column are toggled where the flag was set, and every other cell is as
before (R163). -/
theorem cell_reconcileNotes (h : s.Inv) {k : Nat} (hk : k ≤ s.cfg.N) (c m : Nat) :
    (s.reconcileNotes (List.range k)).cell c m = if c = s.COL ∧ m < k then s.cell c m ^^ s.pendAt m else s.cell c m := by
  induction k with
  | zero => simp [State.reconcileNotes]
  | succ k ih =>
    have hprev := ih (Nat.le_of_succ_le hk)
    have hk' : k < (s.reconcileNotes (List.range k)).cfg.N := by rwa [reconcileNotes_cfg]
    rw [reconcileNotes_range_succ, cell_reconciled (h.reconcileNotes _) hk', reconcileNotes_COL, hprev,
      pendAt_reconcileNotes h (Nat.le_of_succ_le hk)]
    by_cases hm : m = k
    · simp [hm]
    · have hlt : m < k + 1 ↔ m < k := by omega
      simp [hm, hlt]

/-! ### An advance -/

theorem State.Inv.advanceBegun (h : s.Inv) (hc : s.CPH = .idle) : s.advanceBegun.Inv := h.exec rfl (exec_abeg_of_idle hc)

/-- ABEG and then every note: the grid and the flags that AEND finds (R163). -/
def State.allReconciled (s : State) : State := s.advanceBegun.reconcileNotes (List.range s.cfg.N)

theorem allReconciled_frame (s : State) :
    s.allReconciled = { s.advanceBegun with
      GRID := s.allReconciled.GRID, PEND := s.allReconciled.PEND, HIT := s.allReconciled.HIT,
      LLAT := s.allReconciled.LLAT } := reconcileNotes_frame _ _

@[simp] theorem allReconciled_cfg (s : State) : s.allReconciled.cfg = s.cfg := reconcileNotes_cfg _ _

@[simp] theorem allReconciled_COL (s : State) : s.allReconciled.COL = (s.COL + 1) % s.cfg.COLUMNS := reconcileNotes_COL _ _

/-- The latches hold what the last note left in them. -/
theorem allReconciled_latches (h : s.Inv) (hc : s.CPH = .idle) :
    s.allReconciled.HIT = s.pendAt (s.cfg.N - 1) ∧ s.allReconciled.LLAT = s.lineAt (s.cfg.N - 1) := by
  obtain ⟨k, hk⟩ : ∃ k, k + 1 = s.cfg.N := Nat.exists_add_one_eq.2 (Config.N_pos h.cfg_wf)
  have hpend := pendAt_reconcileNotes (h.advanceBegun hc) (k := k) (hk ▸ Nat.le_succ k) k
  rw [if_neg (lt_irrefl k)] at hpend
  rw [State.allReconciled, ← hk, reconcileNotes_range_succ, Nat.add_sub_cancel]
  exact ⟨hpend, lineAt_reconcileNotes _ _ k⟩

/-- The state that an advance leaves, as a function of the state before it (R163). -/
def State.advanced (s : State) : State := { s.allReconciled.redrawn with CN := s.cfg.N - 1 }

theorem exec_aend_allReconciled (s : State) :
    exec .aend { s.allReconciled with CPH := .finish, CN := s.cfg.N - 1 } = .next s.advanced := exec_aend_of_finish rfl

theorem runOps_advOps (hN : 0 < s.cfg.N) (hc : s.CPH = .idle) : runOps (advOps s.cfg) s = .next s.advanced := by
  have habeg : exec .abeg s = .next (s.advanceBegun.beforeCheck 0) := by
    have hfirst : s.advanceBegun.beforeCheck 0 = s.advanceBegun := by simp [State.beforeCheck, State.advanceBegun, hN]
    rw [hfirst]
    exact exec_abeg_of_idle hc
  have hnotes : runOps ((List.range s.cfg.N).flatMap reconcileOps) (s.advanceBegun.beforeCheck 0) =
      .next { s.allReconciled with CPH := .finish, CN := s.cfg.N - 1 } :=
    (runOps_reconcileNotes (s := s.advanceBegun) le_rfl).trans
      (congrArg Host.Outcome.next (beforeCheck_last (congrArg Config.N (allReconciled_cfg s).symm)))
  rw [advOps, runOps_cons_of_next habeg, runOps_append, hnotes]
  exact runOps_cons_of_next (exec_aend_allReconciled s) []

theorem pendAt_advanced (h : s.Inv) (hc : s.CPH = .idle) {n : Nat} (hn : n < s.cfg.N) :
    s.advanced.pendAt n = s.primedFlag n :=
  (pendAt_reconcileNotes (h.advanceBegun hc) le_rfl n).trans (if_pos hn)

theorem cell_advanced (h : s.Inv) (hc : s.CPH = .idle) (c n : Nat) :
    s.advanced.cell c n =
      if c = (s.COL + 1) % s.cfg.COLUMNS ∧ n < s.cfg.N then s.cell c n ^^ s.pendAt n else s.cell c n :=
  cell_reconcileNotes (h.advanceBegun hc) le_rfl c n

theorem advanced_trace (s : State) :
    s.advanced.trace = s.trace ++ [.dispClear, .dispSetPixels s.advanced.pixels, .dispCommit] := by
  have htrace : s.allReconciled.trace = s.trace := by
    rw [allReconciled_frame]
    rfl
  rw [← htrace]
  rfl

/-- An advance changes the column, the grid, the flags, the trace and the fields of the advance, and nothing else (R163). -/
theorem advanced_frame (h : s.Inv) (hc : s.CPH = .idle) :
    s.advanced = { s with
      COL := (s.COL + 1) % s.cfg.COLUMNS, DUE := false, GRID := s.advanced.GRID, PEND := s.advanced.PEND,
      trace := s.advanced.trace, CPH := .idle, CN := s.cfg.N - 1, HIT := s.pendAt (s.cfg.N - 1),
      LLAT := s.lineAt (s.cfg.N - 1) } := by
  obtain ⟨hHIT, hLLAT⟩ := allReconciled_latches h hc
  rw [← hHIT, ← hLLAT, State.advanced, State.redrawn, allReconciled_frame]
  rfl

theorem State.Inv.advanced (h : s.Inv) (hc : s.CPH = .idle) : s.advanced.Inv := by
  have hdue : s.allReconciled.DUE = false := by
    rw [allReconciled_frame]
    rfl
  have hN : s.cfg.N - 1 < s.allReconciled.cfg.N := by
    rw [allReconciled_cfg]
    exact Nat.sub_one_lt (Config.N_pos h.cfg_wf).ne'
  have hall : s.allReconciled.Inv := (h.advanceBegun hc).reconcileNotes _
  have hend : ({ s.allReconciled with CPH := .finish, CN := s.cfg.N - 1 } : State).Inv :=
    { hall with due_idle := by simp [hdue], cn_lt := hN }
  exact hend.execAend (exec_aend_allReconciled s)

@[simp] theorem advanced_cfg (s : State) : s.advanced.cfg = s.cfg := allReconciled_cfg s

@[simp] theorem advanced_COL (s : State) : s.advanced.COL = (s.COL + 1) % s.cfg.COLUMNS := allReconciled_COL s

theorem mem_pixels_advanced (h : s.Inv) (hc : s.CPH = .idle) (c r : Nat) :
    (c, r) ∈ s.advanced.pixels ↔
      (c < s.cfg.COLUMNS ∧ r < s.cfg.N ∧ s.advanced.cell c r = true) ∨
      (c = (s.COL + 1) % s.cfg.COLUMNS ∧ r ∈ s.cfg.highlight ((s.COL + 1) % s.cfg.COLUMNS)) := by
  have hinv := h.advanced hc
  rw [State.mem_pixels_iff hinv.cfg_wf hinv.col_lt, advanced_cfg, advanced_COL]

/-- Settles O45: the run ends in `State.advanced`. -/
theorem uninterruptedAdvance : Obligations.UninterruptedAdvance := by
  unfold Obligations.UninterruptedAdvance
  intro s hinv hc col
  refine ⟨s.advanced, runOps_advOps (Config.N_pos hinv.cfg_wf) hc, fun n hn => ?_, fun c n hne => ?_,
    fun n hn => pendAt_advanced hinv hc hn,
    ⟨s.advanced.pixels, advanced_trace s, s.advanced.pixels_nodup, mem_pixels_advanced hinv hc⟩, advanced_frame hinv hc⟩
  · rw [cell_advanced hinv hc, if_pos ⟨rfl, hn⟩]
  · rw [cell_advanced hinv hc, if_neg fun h => hne h.1]

/-! ### Several advances, and a single press -/

/-- Settles O46, by induction on the number of advances: each meets the hypotheses of the next and moves the column by one. -/
theorem advancesWrapAroundTheColumns : Obligations.AdvancesWrapAroundTheColumns := by
  unfold Obligations.AdvancesWrapAroundTheColumns
  intro s k
  induction k generalizing s with
  | zero =>
    intro hinv _
    exact ⟨s, rfl, (Nat.mod_eq_of_lt hinv.col_lt).symm⟩
  | succ k ih =>
    intro hinv hc
    obtain ⟨t, hrun, hcol⟩ := ih s.advanced (hinv.advanced hc) rfl
    rw [advanced_cfg] at hrun hcol
    refine ⟨t, ?_, ?_⟩
    · rw [List.replicate_succ, List.flatten_cons, runOps_append, runOps_advOps (Config.N_pos hinv.cfg_wf) hc]
      exact hrun
    · rw [hcol, advanced_COL, Nat.mod_add_mod, Nat.add_assoc, Nat.add_comm 1]

/-- The grid after the advance from an empty grid with one flag set (R172). -/
theorem cell_advanced_of_single_press (h : s.Inv) (hc : s.CPH = .idle) {n : Nat} (hn : n < s.cfg.N)
    (hempty : ∀ c m, s.cell c m = false) (hflag : ∀ m, s.pendAt m = decide (m = n)) (c m : Nat) :
    s.advanced.cell c m = decide (c = (s.COL + 1) % s.cfg.COLUMNS ∧ m = n) := by
  rw [cell_advanced h hc, hempty, hflag, Bool.false_xor]
  by_cases hm : m = n
  · simp [hm, hn]
  · simp [hm]

/-- Settles O47: the one cell of the new grid lies in the display's space, so the redraw shows it. -/
theorem onePressSetsOneCell : Obligations.OnePressSetsOneCell := by
  unfold Obligations.OnePressSetsOneCell
  intro s n hinv hc hn hempty hflag col
  have hcell := cell_advanced_of_single_press hinv hc hn hempty hflag
  have hcol : col < s.cfg.COLUMNS := Nat.mod_lt _ (Config.COLUMNS_pos hinv.cfg_wf)
  refine ⟨s.advanced, runOps_advOps (Config.N_pos hinv.cfg_wf) hc, hcell, s.advanced.pixels, advanced_trace s,
    fun c r => ?_⟩
  rw [mem_pixels_advanced hinv hc, hcell, decide_eq_true_eq]
  refine or_congr_left ⟨fun hset => hset.2.2, ?_⟩
  rintro ⟨rfl, rfl⟩
  exact ⟨hcol, hn, rfl, rfl⟩

end Sys2Proof.Machine
end

section
/-! The lines, the edge handler and the control parameter writes (43_edge_control.md R182 to R191, 60_exceptions.md R209). -/
namespace Sys2Proof.Machine

variable {s : State} {n : Nat}

/-! ### Lines and requests read back -/

/-- Writing a line with the level it has changes nothing. -/
theorem State.setLine_of_lineAt {v : Bool} (h : s.lineAt n = v) : s.setLine n v = s := by
  rw [← h, State.setLine, State.lineAt, set_flagAt_self]

/-- The handler leaves no request of its own source, and the others as they are (R186). -/
@[simp] theorem State.irqAt_serveEdge (s : State) (n m : Nat) :
    (s.serveEdge n).irqAt m = if n = m then false else s.irqAt m := by
  refine (State.irqAt_setIrq (s.setPend n true) n m false).trans ?_
  by_cases hm : n = m
  · by_cases hlen : n < s.IRQ.length
    · rw [if_pos ⟨hm, hlen⟩, if_pos hm]
    · rw [if_neg fun hset => hlen hset.2, if_pos hm]
      exact flagAt_of_length_le (hm ▸ not_lt.1 hlen)
  · rw [if_neg fun hset => hm hset.1, if_neg hm]
    rfl

/-! ### LHI -/

/-- The state that a rising transition leaves: the request and the high line (R182). -/
def State.lineRaised (s : State) (n : Nat) : State := (s.requestEdge n).setLine n true

theorem exec_lhi_of_low (h : s.lineAt n = false) : exec (.lhi n) s = .next (s.lineRaised n) := by
  simp [exec, execLhi, h, State.lineRaised]

/-- LHI of a line that is high changes nothing, the request included (R182). -/
theorem exec_lhi_of_high (h : s.lineAt n = true) : exec (.lhi n) s = .next s := by
  simp [exec, execLhi, h, State.setLine_of_lineAt h]

@[simp] theorem State.lineAt_lineRaised (s : State) (n m : Nat) :
    (s.lineRaised n).lineAt m = if n = m ∧ n < s.LINE.length then true else s.lineAt m := State.lineAt_setLine _ _ _ _

@[simp] theorem State.irqAt_lineRaised (s : State) (n m : Nat) :
    (s.lineRaised n).irqAt m = if n = m ∧ n < s.IRQ.length then true else s.irqAt m := State.irqAt_setIrq _ _ _ _

/-- Settles O51: a low line rises, and a high one leaves the state as it was. -/
theorem lineRises : Obligations.LineRises := by
  unfold Obligations.LineRises
  intro s n hirq hline
  cases hl : s.lineAt n with
  | false =>
    refine ⟨_, exec_lhi_of_low hl, ?_, fun m hm => ?_, fun _ => ?_, nofun, fun m hm => ?_, rfl⟩
    · rw [State.lineAt_lineRaised, if_pos ⟨rfl, hline⟩]
    · rw [State.lineAt_lineRaised, if_neg fun hset => hm hset.1.symm]
    · rw [State.irqAt_lineRaised, if_pos ⟨rfl, hirq⟩]
    · rw [State.irqAt_lineRaised, if_neg fun hset => hm hset.1.symm]
  | true => exact ⟨s, exec_lhi_of_high hl, hl, fun _ _ => rfl, nofun, fun _ => rfl, fun _ _ => rfl, rfl⟩

/-! ### LLO -/

theorem exec_llo (s : State) (n : Nat) : exec (.llo n) s = .next (s.setLine n false) := rfl

/-- Settles O52: LLO writes its one line. -/
theorem lineFalls : Obligations.LineFalls := by
  unfold Obligations.LineFalls
  intro s n hline
  refine ⟨_, exec_llo s n, ?_, fun m hm => ?_, rfl⟩
  · rw [State.lineAt_setLine, if_pos ⟨rfl, hline⟩]
  · rw [State.lineAt_setLine, if_neg fun hset => hm hset.1.symm]

/-! ### EDGE -/

theorem exec_edge_of_no_request (h : s.irqAt n = false) : exec (.edge n) s = .fault .noRequest :=
  if_neg (Bool.eq_false_iff.1 h)

/-- Settles O53: with a request EDGE is `serveEdge`, and without one it is stuck. -/
theorem handlerSetsFlag : Obligations.HandlerSetsFlag := by
  unfold Obligations.HandlerSetsFlag
  intro s n hlen
  refine ⟨fun hirq => ⟨_, exec_edge_of_request hirq, ?_, ?_, fun m hm => ⟨?_, ?_⟩, rfl⟩, exec_edge_of_no_request⟩
  · rw [State.pendAt_serveEdge, if_pos ⟨rfl, hlen⟩]
  · rw [State.irqAt_serveEdge, if_pos rfl]
  · rw [State.pendAt_serveEdge, if_neg fun hset => hm hset.1.symm]
  · rw [State.irqAt_serveEdge, if_neg hm.symm]

/-! ### PRESS and TAP -/

/-- From a low line the request that LHI makes enables the handler (R189). -/
theorem runOps_lhi_edge (hl : s.lineAt n = false) (hirq : n < s.IRQ.length) :
    runOps [.lhi n, .edge n] s = .next ((s.lineRaised n).serveEdge n) := by
  have hreq : (s.lineRaised n).irqAt n = true := by rw [State.irqAt_lineRaised, if_pos ⟨rfl, hirq⟩]
  exact runOps_pair_of_next (exec_lhi_of_low hl) (exec_edge_of_request hreq)

/-- TAP is PRESS and then LLO (R106). -/
theorem runOps_lhi_edge_llo (hl : s.lineAt n = false) (hirq : n < s.IRQ.length) :
    runOps [.lhi n, .edge n, .llo n] s = .next (((s.lineRaised n).serveEdge n).setLine n false) := by
  have happ := runOps_append [.lhi n, .edge n] [.llo n] s
  rwa [runOps_lhi_edge hl hirq] at happ

/-- Settles O54: both end with the flag set and the request served, TAP with the line lowered after that. -/
theorem pressAndTap : Obligations.PressAndTap := by
  unfold Obligations.PressAndTap
  intro s n hpend hirq hline hl
  have hset : ((s.lineRaised n).serveEdge n).pendAt n = true :=
    (State.pendAt_serveEdge (s.lineRaised n) n n).trans (if_pos ⟨rfl, hpend⟩)
  have hserved : ((s.lineRaised n).serveEdge n).irqAt n = false := by rw [State.irqAt_serveEdge, if_pos rfl]
  have hhigh : ((s.lineRaised n).serveEdge n).lineAt n = true :=
    (State.lineAt_lineRaised s n n).trans (if_pos ⟨rfl, hline⟩)
  have hlow : (((s.lineRaised n).serveEdge n).setLine n false).lineAt n = false := by
    rw [State.lineAt_setLine, hhigh]
    exact if_pos ⟨rfl, by simpa [State.lineRaised] using hline⟩
  exact ⟨⟨_, runOps_lhi_edge hl hirq, hhigh, hset, hserved⟩, ⟨_, runOps_lhi_edge_llo hl hirq, hlow, hset, hserved⟩⟩

/-! ### CWR -/

/-- Between advances, with no beat due, CWR writes its register (R107, R190). -/
theorem exec_cwr_of_idle (hc : s.CPH = .idle) (hd : s.DUE = false) (p : CtrlReg) (v : Nat) :
    exec (.cwr p v) s = .next (s.writeCtrl p v) := by
  simp [exec, execCwr, hc, hd]

/-- Settles O57: `writeCtrl` writes the decoded value of R191 into the register named. -/
theorem controlRegisterWritten : Obligations.ControlRegisterWritten := by
  unfold Obligations.ControlRegisterWritten
  intro s v hc hd
  have hwrite (p : CtrlReg) : exec (.cwr p v) s = .next (s.writeCtrl p v) := exec_cwr_of_idle hc hd p v
  exact ⟨hwrite .vol, hwrite .beat, hwrite .sqmix, hwrite .pmult⟩

end Sys2Proof.Machine
end

section
/-! The edge handler beside another handler and beside the production loop (60_exceptions.md R208, R211). -/
namespace Sys2Proof.Machine

variable {s t : State} {n : Nat} {i : Instr}

/-! ### Two handlers -/

/-- The order in which two sources are served does not matter: each writes its own flag and latch (R208). -/
theorem State.serveEdge_comm {m : Nat} (h : n ≠ m) (s : State) :
    (s.serveEdge n).serveEdge m = (s.serveEdge m).serveEdge n := by
  rw [State.serveEdge_spec (s.serveEdge n) m, State.serveEdge_PEND, State.serveEdge_IRQ, List.set_comm _ _ h,
    List.set_comm _ _ h]
  rfl

/-- A request outlasts the handler of another source. -/
theorem State.irqAt_serveEdge_of_ne {m : Nat} (h : n ≠ m) (s : State) : (s.serveEdge n).irqAt m = s.irqAt m := by
  rw [State.irqAt_serveEdge, if_neg h]

theorem runOps_edge_edge {m : Nat} (h : n ≠ m) (hn : s.irqAt n = true) (hm : s.irqAt m = true) :
    runOps [.edge n, .edge m] s = .next ((s.serveEdge n).serveEdge m) :=
  runOps_pair_of_next (exec_edge_of_request hn) (exec_edge_of_request ((s.irqAt_serveEdge_of_ne h).trans hm))

/-- Settles O55: neither handler withdraws the other's request, and `serveEdge` of two sources commutes. -/
theorem handlersCommute : Obligations.HandlersCommute := by
  unfold Obligations.HandlersCommute
  intro s n m h hn hm
  refine ⟨_, runOps_edge_edge h hn hm, ?_⟩
  rw [State.serveEdge_comm h]
  exact runOps_edge_edge h.symm hm hn

/-! ### The handler and the production loop -/

/-- The production loop leaves the requests (R47). -/
theorem productionLoop_irqAt (hi : i.context = .pl) (h : exec i s = .next t) (n : Nat) : t.irqAt n = s.irqAt n := by
  rw [productionLoop_frame hi h]
  rfl

theorem State.afterVoice_serveEdge (s : State) (m n : Nat) :
    (s.serveEdge n).afterVoice m = (s.afterVoice m).serveEdge n := by
  rcases s.afterVoice_cases m with ⟨hlast, e⟩ | ⟨hnext, e⟩
  · rw [e]
    exact if_pos hlast
  · rw [e]
    exact if_neg hnext

/-- A production-loop operation reads and writes neither PEND nor IRQ: it has the same step after the handler, and the two
effects commute (R211). -/
theorem exec_serveEdge_of_productionLoop (hi : i.context = .pl) (h : exec i s = .next t) (n : Nat) :
    exec i (s.serveEdge n) = .next (t.serveEdge n) := by
  cases i <;> cases hi
  case tbeg =>
    obtain ⟨hp, hT, rfl⟩ := execTbeg_next h
    exact execTbeg_of_begin (s := s.serveEdge n) hp hT
  case voice m =>
    obtain ⟨hp, hv, ⟨hcell, pm, q, hpm, hq, rfl⟩ | ⟨hcell, rfl⟩⟩ := execVoice_next h
    · rw [← State.afterVoice_serveEdge]
      exact execVoice_of_active (s := s.serveEdge n) hp hv hcell hpm hq
    · rw [← State.afterVoice_serveEdge]
      exact execVoice_of_silent (s := s.serveEdge n) hp hv hcell
  case tend =>
    obtain ⟨hp, v, hv, rfl⟩ := execTend_next h
    exact execTend_of_finish (s := s.serveEdge n) hp hv
  case submit =>
    obtain ⟨hp, hT, rfl⟩ := execSubmit_next h
    exact execSubmit_of_full (s := s.serveEdge n) hp hT

/-- Settles O56: the operation keeps the request, and the handler keeps the operation's step. -/
theorem handlerAndProductionCommute : Obligations.HandlerAndProductionCommute := by
  unfold Obligations.HandlerAndProductionCommute
  intro s a n i hi h hirq
  have hirq' : a.irqAt n = true := (productionLoop_irqAt hi h n).trans hirq
  have hafter := exec_serveEdge_of_productionLoop hi h n
  exact ⟨a.serveEdge n, runOps_pair_of_next h (exec_edge_of_request hirq'),
    runOps_pair_of_next (exec_edge_of_request hirq) hafter⟩

end Sys2Proof.Machine
end

section
/-! The quirks of the timing: a column without an active note, a button that is held, and a press inside its own note's
reconciliation (70_reset_and_hazards.md R233, R242, R243). -/
namespace Sys2Proof.Machine

variable {s : State} {n : Nat}

/-! ### A column without an active note -/

theorem activeNotes_eq_nil {c : Nat} (h : ∀ n, n < s.cfg.N → s.cell c n = false) : s.activeNotes c = [] := by
  refine List.eq_nil_iff_forall_not_mem.2 fun n hn => ?_
  obtain ⟨hlt, hcell⟩ := State.mem_activeNotes.1 hn
  exact Bool.false_ne_true ((h n hlt).symm.trans hcell)

theorem rendered_of_activeNotes_eq_nil (h : s.activeNotes s.COL = []) (pm q : ℚ) : s.rendered pm q = s.tickBegun := by
  rw [State.rendered, h, renderNotes_nil]

/-- The cleared accumulators of TBEG convert to the sample 0, whatever the volume (R144 to R146). -/
theorem sample_tickBegun (hnum : s.cfg.NUM = .reals) (v : ℚ) : s.tickBegun.sample v = 0 := by
  have hsum : s.tickBegun.SUM.toWave.toReal = 0 := by rw [State.tickBegun, ofWave_zero_toWave, Wave.zero_toReal]
  have hcnt : ¬ 1 < s.tickBegun.CNT := Nat.not_lt_zero 1
  rw [sample_reals s.tickBegun v hnum, if_neg hcnt, hsum, zero_mul, realToI16_zero]

theorem bufAt_ticked (s : State) (pm q v : ℚ) (i : Nat) :
    (s.ticked pm q v).bufAt i =
      if (i = 2 * s.T ∨ i = 2 * s.T + 1) ∧ i < s.BUF.length then (s.rendered pm q).sample v else s.bufAt i :=
  s.bufAt_setPair _ i

/-- Settles O37: no voice reads a parameter or renders, so TEND finds what TBEG left. -/
theorem emptyColumnIsSilent : Obligations.EmptyColumnIsSilent := by
  unfold Obligations.EmptyColumnIsSilent
  intro s v hinv hp hT hv hcell
  have hactive := activeNotes_eq_nil hcell
  have hpar := voiceParams_getD (s := s) fun hne => absurd hactive hne
  have hrendered := rendered_of_activeNotes_eq_nil hactive (s.PMULT.getD 1) (s.SQMIX.getD 0)
  refine ⟨_, runOps_tickOps (Config.N_pos hinv.cfg_wf) hp hT hv hpar, fun hnum => ?_, (congrArg State.PHASE hrendered :)⟩
  have hlen : 2 * s.T + 1 < s.BUF.length := by rw [hinv.buf_len]; omega
  rw [bufAt_ticked, bufAt_ticked, hrendered, sample_tickBegun hnum]
  exact ⟨if_pos ⟨.inl rfl, Nat.lt_of_succ_lt hlen⟩, if_pos ⟨.inr rfl, hlen⟩⟩

/-! ### A button that is held -/

/-- With `REPRIME = ALL` an advance copies every line into its flag (R168). -/
theorem pendAt_advanced_of_all (h : s.Inv) (hc : s.CPH = .idle) (hr : s.cfg.REPRIME = .all) (hn : n < s.cfg.N) :
    s.advanced.pendAt n = s.lineAt n :=
  (pendAt_advanced h hc hn).trans (if_pos (.inl hr))

/-- An advance toggles the cells of the flagged notes in the column it moves to (R172). -/
theorem cell_advanced_of_flag (h : s.Inv) (hc : s.CPH = .idle) (hn : n < s.cfg.N) (hflag : s.pendAt n = true) :
    s.advanced.cell ((s.COL + 1) % s.cfg.COLUMNS) n = !s.cell ((s.COL + 1) % s.cfg.COLUMNS) n := by
  rw [cell_advanced h hc, if_pos ⟨rfl, hn⟩, hflag, Bool.xor_true]

/-- Settles O48: the first advance leaves the flag set, and the second consumes it. -/
theorem heldButtonRepeats : Obligations.HeldButtonRepeats := by
  unfold Obligations.HeldButtonRepeats
  intro s n hinv hc hn hr hline
  have hinv' := hinv.advanced hc
  have hflag : s.advanced.pendAt n = true := (pendAt_advanced_of_all hinv hc hr hn).trans hline
  have hcell := cell_advanced_of_flag (s := s.advanced) hinv' rfl (by rwa [advanced_cfg]) hflag
  rw [advanced_cfg] at hcell
  exact ⟨s.advanced, s.advanced.advanced, runOps_advOps (Config.N_pos hinv.cfg_wf) hc, hflag,
    runOps_advOps (Config.N_pos hinv'.cfg_wf) rfl, hcell⟩

/-! ### A press between RLVL and RPRM of its note -/

/-- The state that RLVL of a note leaves (R167). -/
def State.levelLatched (s : State) (n : Nat) : State := { s with LLAT := s.lineAt n, CPH := .prm }

/-- The state that RPRM of a note finds when the line rose and its handler ran since RLVL (R242). -/
def State.pressedInWindow (s : State) (n : Nat) : State := ((s.levelLatched n).lineRaised n).serveEdge n

theorem runOps_rlvl_lhi_edge_rprm (hc : s.CPH = .lvl) (hcn : s.CN = n) (hl : s.lineAt n = false)
    (hirq : n < s.IRQ.length) :
    runOps [.rlvl n, .lhi n, .edge n, .rprm n] s = .next (((s.pressedInWindow n).reprime n).afterPrime n) := by
  have hrlvl : exec (.rlvl n) s = .next (s.levelLatched n) := exec_rlvl_of_next hc hcn
  have hpress : runOps [.lhi n, .edge n] (s.levelLatched n) = .next (s.pressedInWindow n) :=
    runOps_lhi_edge (s := s.levelLatched n) hl hirq
  have hrprm := exec_rprm_of_next (s := s.pressedInWindow n) rfl hcn
  have happ := runOps_append [.lhi n, .edge n] [.rprm n] (s.levelLatched n)
  rw [hpress] at happ
  rw [runOps_cons_of_next hrlvl]
  exact happ.trans (runOps_cons_of_next hrprm [])

theorem State.lineAt_pressedInWindow (hline : n < s.LINE.length) : (s.pressedInWindow n).lineAt n = true :=
  (State.lineAt_lineRaised (s.levelLatched n) n n).trans (if_pos ⟨rfl, hline⟩)

theorem State.pendAt_pressedInWindow (hpend : n < s.PEND.length) : (s.pressedInWindow n).pendAt n = true :=
  (State.pendAt_serveEdge ((s.levelLatched n).lineRaised n) n n).trans (if_pos ⟨rfl, hpend⟩)

/-- RPRM leaves the lines as they are (R168). -/
theorem State.lineAt_afterPrime_reprime (s : State) (n m : Nat) :
    ((s.reprime n).afterPrime n).lineAt m = s.lineAt m := by
  rw [State.lineAt, State.afterPrime_LINE, State.reprime_LINE, State.lineAt]

/-- The flag of a note after its RPRM: the latched level, or the flag as it stood (R168). -/
theorem State.pendAt_afterPrime_reprime (hpend : n < s.PEND.length) :
    ((s.reprime n).afterPrime n).pendAt n =
      if s.cfg.REPRIME = .all ∨ s.HIT = true then s.LLAT else s.pendAt n := by
  rw [State.pendAt_afterPrime, State.reprime_eq, State.pendAt_setPend, if_pos ⟨rfl, hpend⟩]

/-- Settles O49: RPRM writes the level that RLVL latched before the edge, or leaves the flag that the edge set. -/
theorem lostPressWindow : Obligations.LostPressWindow := by
  unfold Obligations.LostPressWindow
  intro s n hc hcn hl hpend hirq hline
  have hlen : n < (s.pressedInWindow n).PEND.length := hpend.trans_eq List.length_set.symm
  have hflag := State.pendAt_afterPrime_reprime hlen
  refine ⟨_, runOps_rlvl_lhi_edge_rprm hc hcn hl hirq, ?_, fun hprimes => ?_, fun ⟨hr, hh⟩ => ?_⟩
  · rw [State.lineAt_afterPrime_reprime, State.lineAt_pressedInWindow hline]
  · exact (hflag.trans (if_pos hprimes)).trans hl
  · have hnot : ¬(s.cfg.REPRIME = .all ∨ s.HIT = true) := not_or.2 ⟨hr, Bool.eq_false_iff.1 hh⟩
    exact (hflag.trans (if_neg hnot)).trans (State.pendAt_pressedInWindow hpend)

end Sys2Proof.Machine
end

section
/-! What RST leaves in each field (70_reset_and_hazards.md R230), read from `State.initial`. -/
namespace Sys2Proof

/-- The step of a note in radians per output sample (R121). -/
theorem Config.stepAngle_toReal (c : Config) (n : Nat) :
    (c.stepAngle n).toReal = 2 * Real.pi * (c.freq n).toReal / c.FS.toReal := by
  rw [Angle.toReal_eq, Config.stepAngle, RealParam.ratio_turns, mul_div_assoc]

/-- A physical format holds a real as its `ofReal` of it, however the real is given (R11). -/
theorem ofAngle_format (k : Nat) {a : Angle} {d : RealDatum} (h : d.toReal = a.toReal) :
    (NumFormat.format k).ofAngle a = .code ((Config.formatOps k).ofReal d) :=
  congrArg Datum.code ((Config.formatOps k).ofReal_congr (.angle a) d h.symm)

theorem Angle.ofTurn_zero_toReal : (Angle.ofTurn 0).toReal = 0 := by simp [Angle.toReal_eq]

theorem ofAngle_zero_format (k : Nat) :
    (NumFormat.format k).ofAngle (Angle.ofTurn 0) = .code ((Config.formatOps k).ofRat 0) :=
  ofAngle_format k (by simp [RealDatum.toReal, Angle.ofTurn_zero_toReal])

namespace Machine

variable (c : Config) (levels : BitVec 32)

/-! ### The fields of the state after reset -/

theorem getD_map_range {α : Type} (f : Nat → α) (d : α) {k n : Nat} (h : n < k) :
    ((List.range k).map f).getD n d = f n := by
  simp [List.getD_eq_getElem?_getD, h]

theorem initial_stepAt {n : Nat} (hn : n < c.N) : (State.initial c levels).stepAt n = c.stepValue n :=
  getD_map_range c.stepValue _ hn

theorem initial_phaseAt (n : Nat) : (State.initial c levels).phaseAt n = c.NUM.ofAngle (Angle.ofTurn 0) :=
  List.getElem?_getD_replicate_default_eq _ _ n

theorem initial_lineAt {n : Nat} (hn : n < c.N) : (State.initial c levels).lineAt n = levels.getLsbD n :=
  getD_map_range _ false hn

theorem initial_bufAt (i : Nat) : (State.initial c levels).bufAt i = 0 :=
  List.getElem?_getD_replicate_default_eq _ _ i

/-- The numbers after reset, over the reals (R121, R230). -/
theorem initial_reals (hnum : c.NUM = .reals) :
    (State.initial c levels).sumReal = 0 ∧ ∀ n, n < c.N →
      (State.initial c levels).stepRad n = 2 * Real.pi * (c.freq n).toReal / c.FS.toReal ∧
      (State.initial c levels).phaseRad n = 0 := by
  refine ⟨?_, fun n hn => ⟨?_, ?_⟩⟩
  · rw [State.sumReal, State.initial, ofWave_zero_toWave, Wave.zero_toReal]
  · rw [State.stepRad, initial_stepAt c levels hn, Config.stepValue, hnum]
    exact c.stepAngle_toReal n
  · rw [State.phaseRad, initial_phaseAt, Angle.toReal_eq, ofAngle_zero_turns, mul_zero]

/-- The codes after reset in a physical number format. -/
theorem initial_format {k : Nat} (hnum : c.NUM = .format k) :
    (State.initial c levels).SUM = .code ((Config.formatOps k).ofRat 0) ∧ ∀ n, n < c.N →
      (∀ d : RealDatum, d.toReal = 2 * Real.pi * (c.freq n).toReal / c.FS.toReal →
        (State.initial c levels).stepAt n = .code ((Config.formatOps k).ofReal d)) ∧
      (State.initial c levels).phaseAt n = .code ((Config.formatOps k).ofRat 0) := by
  refine ⟨?_, fun n hn => ⟨fun d hd => ?_, ?_⟩⟩
  · rw [State.initial, hnum, ofWave_zero_format]
  · rw [initial_stepAt c levels hn, Config.stepValue, hnum]
    exact ofAngle_format k (hd.trans (c.stepAngle_toReal n).symm)
  · rw [initial_phaseAt, hnum, ofAngle_zero_format]

/-- After reset every storage space has its size (R60). -/
theorem initial_sizes :
    let t := State.initial c levels
    t.STEP.length = c.N ∧ t.PHASE.length = c.N ∧ t.PEND.length = c.N ∧ t.IRQ.length = c.N ∧ t.LINE.length = c.N ∧
      t.GRID.length = c.COLUMNS ∧ (∀ row ∈ t.GRID, row.length = c.N) ∧ t.BUF.length = 2 * c.B := by
  refine ⟨?_, List.length_replicate, List.length_replicate, List.length_replicate, ?_, List.length_replicate,
    fun row hrow => ?_, List.length_replicate⟩
  · simp [State.initial]
  · simp [State.initial]
  · rw [List.eq_of_mem_replicate hrow, List.length_replicate]

/-- Settles O58: RST leaves `State.initial` of the configuration, with the trace kept. -/
theorem resetOperation : Obligations.ResetOperation := by
  unfold Obligations.ResetOperation
  intro s levels
  have hfalse := flagAt_replicate_false s.cfg.N
  exact ⟨_, execRst_eq levels s, initial_reals s.cfg levels, fun k hk => initial_format s.cfg levels hk,
    fun n hn => ⟨hfalse n, hfalse n, initial_lineAt s.cfg levels hn, fun c _ => initial_cell s.cfg levels c n⟩,
    initial_sizes s.cfg levels, rfl, rfl, rfl, rfl, rfl, rfl, rfl, fun i _ => initial_bufAt s.cfg levels i,
    rfl, rfl, rfl, rfl, rfl, rfl, rfl, rfl, rfl, rfl, rfl⟩

end Machine

end Sys2Proof
end
